-- ==== Sys2Proof/Word.lean ====
section
/-! DEFINITION. The word types, the plainest arithmetic over them and the fixed constants of the block.
`spec/00_scope.md` R5, R8, R9; `spec/10_state.md` R30, R36, R38. Every value of the block is unsigned (R9). -/

namespace Sys2Proof

/-- A host-visible register, a host memory address, a frequency: 32 bits (R8 `REG_W`, `ADDR_W`; R6). -/
abbrev Word := BitVec 32

/-- One byte of host memory (R60). -/
abbrev Byte := BitVec 8

/-- A node index or the sentinel `NONE`: 10 bits (R30). -/
abbrev NodeIx := BitVec 10

/-- An offset inside the register window: `REG_SPAN` = 0x4000 bytes are exactly the 14-bit offsets (R8, R80). -/
abbrev Offset := BitVec 14

/-- The frequency ROM `FREQ[0..256]`, 257 words of 32 bits (R6, R34). -/
abbrev FreqTable := Vector Word 257

/-- A fixed-size table filled by a function of the index. -/
def tabulate {α : Type} (n : Nat) (f : Nat → α) : Vector α n := ⟨⟨(List.range n).map f⟩, by simp⟩

/-- The symbol value and node index of the end-of-stream leaf (R5 `EOS`). -/
abbrev eosIx : NodeIx := 256#10

/-- The root's node index (R5 `ROOT`). -/
abbrev rootIx : NodeIx := 512#10

/-- The "no child" node index, above every node index (R8 `NONE`). -/
abbrev noneIx : NodeIx := 0x3FF#10

/-- The RESULT value of a failed command (R8 `ERROR_RESULT`). -/
abbrev errorResult : Word := 0xFFFFFFFF#32

/-- The weight of symbol 0 (R5 `FREQ0`). -/
abbrev freq0 : Word := 0x40000000#32

end Sys2Proof
end

