-- ==== Sys2Proof/Syntax.lean ====
section
/-! DEFINITION. What can be asked of the block: the three commands of `spec/opcode_table.json`, and the inputs
that the outside world gives it (bus accesses, host memory accesses, reset). `spec/30_encoding.md` R81, R82, R93,
R94; `spec/43_commands.md` R200, R201; `spec/70_reset_and_hazards.md` R250. -/

namespace Sys2Proof

/-- The commands, one constructor per row of `spec/opcode_table.json` (R82). None has an operand: what a command
works on are the parameter registers (R20). -/
inductive Instr where
  /-- `NOP`, CMD = 0x00000000 (R204). -/
  | nop
  /-- `INIT`, CMD = 0x00000001 (R205, R206). -/
  | init
  /-- `DECODE`, CMD = 0x00000002 (R207, R208). -/
  | decode
deriving DecidableEq, Repr

/-- The width of a host access to the register window; only 32 bits are defined (R61, R217). -/
inductive BusWidth where
  | w8
  | w16
  | w32
  | w64
deriving DecidableEq, Repr

/-- One thing the outside world does to the block, in the order the host does them (R12, R93, R94, R250). -/
inductive Input where
  /-- `WR`: a write of `data` at a window offset (R200). -/
  | busWrite (width : BusWidth) (offset : Offset) (data : Word)
  /-- `RD`: a read at a window offset (R201). -/
  | busRead (width : BusWidth) (offset : Offset)
  /-- `WAIT`: read STATUS again and again until BUSY = 0, one read a step (R94). -/
  | wait
  /-- The host writes one byte of its own memory (R12, R71). -/
  | memWrite (addr : Word) (value : Byte)
  /-- The host reads one byte of its own memory (R12, R71). -/
  | memRead (addr : Word)
  /-- The platform asserts reset (R250, R251). -/
  | reset
deriving DecidableEq, Repr

end Sys2Proof
end

