-- ==== Sys2Proof/Decode.lean ====
section
/-! DEFINITION. The decoder of a CMD word, total over all 2^32 words, and the encoder.
`spec/30_encoding.md` R81, R82; `spec/opcode_table.json`.
A CMD word travels as one 32-bit bus word; the byte lanes of the bus are the platform's and are not modelled (R65,
decision D22), so decoding starts from the word and not from bytes. -/

namespace Sys2Proof

/-- Why a CMD word encodes no command (R82's two reserved rows). -/
inductive DecodeReject where
  /-- `CMD[31:4]` is not 0. -/
  | reservedBits
  /-- `OP` is one of 3..15 with `CMD[31:4] = 0`. -/
  | reservedOpcode
deriving DecidableEq, Repr

/-- The field `OP = CMD[3:0]` (R81). -/
def cmdOp (w : Word) : BitVec 4 := w.extractLsb' 0 4

/-- The reserved field `CMD[31:4]` (R81). -/
def cmdReserved (w : Word) : BitVec 28 := w.extractLsb' 4 28

/-- The decoder of a CMD word (R82). -/
def decodeCmd (w : Word) : Except DecodeReject Instr :=
  if cmdReserved w ≠ 0#28 then .error .reservedBits
  else if cmdOp w = 0x0#4 then .ok .nop
  else if cmdOp w = 0x1#4 then .ok .init
  else if cmdOp w = 0x2#4 then .ok .decode
  else .error .reservedOpcode

/-- The opcode a command is written with (R82). -/
def encodeOp : Instr → BitVec 4
  | .nop => 0x0#4
  | .init => 0x1#4
  | .decode => 0x2#4

/-- The CMD word of a command: reserved bits 0 above the opcode (R81). -/
def encode (i : Instr) : Word := 0#28 ++ encodeOp i

/-- The bus word that the low `nbits` bits of `w` stand for, every higher bit 0. -/
def tableWord (nbits w : Nat) : Word := BitVec.ofNat 32 (w % 2 ^ nbits)

/-- The command the decoder reads from a table row's word of `nbits` bits; longer than one CMD word is no command. -/
def decodeTableWord (nbits w : Nat) : Option Instr :=
  if nbits ≤ 32 then
    match decodeCmd (tableWord nbits w) with
    | .ok i => some i
    | .error _ => none
  else none

end Sys2Proof
end

