-- ==== Sys2Proof/Machine/Storage.lean ====
section
/-! DEFINITION. The shapes of the block's storage: node array, LUT, working registers, the platform's memory map
and the host's record of its accesses. `spec/10_state.md` R22, R24, R30, R33, R36 to R38; `spec/20_memory.md` R60,
R68; `spec/30_encoding.md` R80, R93; `spec/60_exceptions.md` R231. -/

namespace Sys2Proof.Machine

/-- The engine state register `ESTATE` (R22). -/
inductive EState where
  | idle
  | tree
  | lutb
  | dA
  | dB
  | dC
  | dD
  | dWalk
  | dEmit
deriving DecidableEq, Repr, Inhabited

/-- `STATUS.ERRCLASS`; codes 6 and 7 are never produced (R231). -/
inductive ErrClass where
  | none
  | truncated
  | invalidCode
  | outputOverflow
  | notReady
  | illegalCmd
deriving DecidableEq, Repr, Inhabited

/-- The first argument of `finish` (R234). -/
inductive EndKind where
  | success
  | fail
deriving DecidableEq, Repr

/-- One entry of the node array, as the tagged variant of R30. -/
inductive Node where
  | leaf (symbol : BitVec 9) (code : BitVec 24) (len : BitVec 5)
  | internal (child0 child1 : NodeIx)
deriving DecidableEq, Repr, Inhabited

/-- A construction record of the tree builder (R36 `WL`). -/
structure Record where
  id : NodeIx
  freq : Word
deriving DecidableEq, Repr, Inhabited

/-- The codec state the host's INIT builds: node array (R30) and decode table (R33). -/
structure Tables where
  node : Vector Node 513
  lut : Vector NodeIx 1024
deriving DecidableEq, Repr, Inhabited

/-- Working registers of the two INIT phases: the working list with its length and the next free node (R36), and
the next LUT index (R37). -/
structure BuilderRegs where
  wl : Vector Record 257
  nleft : BitVec 9
  next : BitVec 10
  v : BitVec 11
deriving DecidableEq, Repr, Inhabited

/-- Working registers of the decoder (R38). -/
structure DecoderRegs where
  bits : Word
  bitcnt : BitVec 6
  inPtr : Word
  outPtr : Word
  node : NodeIx
  cand : NodeIx
  candv : Bool
  lInBase : Word
  lInLen : Word
  lOutBase : Word
  lOutCap : Word
deriving DecidableEq, Repr, Inhabited

/-- A run of host addresses that the platform admits, `size` bytes from `base` upward modulo 2^32 (R68). -/
structure Region where
  base : Word
  size : Nat
deriving DecidableEq, Repr, Inhabited

/-- Host memory: the listed bytes, addresses strictly rising, none equal to what an unlisted address reads as. -/
abbrev Memory := List Host.Cell

/-- A word of the register window (R80). -/
inductive Reg where
  | cmd
  | status
  | inBase
  | inLen
  | outBase
  | outCap
  | result
  | freqW (s : Fin 257)
  | nodeW0 (i : Fin 513)
  | nodeW1 (i : Fin 513)
  | lutW (v : Fin 1024)
  | reserved
deriving DecidableEq, Repr

/-- What the host did and saw: the bus transactions `(R|W, offset, data)` of R93, its own memory accesses, and
resets. -/
inductive Transaction where
  | write (offset : Offset) (data : Word)
  | read (offset : Offset) (data : Word)
  | memWrite (addr : Word) (value : Byte)
  | memRead (addr : Word) (value : Byte)
  | reset
deriving DecidableEq, Repr

/-- The two agents (R12). -/
inductive Agent where
  | host
  | engine
deriving DecidableEq, Repr

end Sys2Proof.Machine
end

