-- ==== Sys2Proof/Machine/LutBuilder.lean ====
section
/-! DEFINITION. Node access, the bit-by-bit descent, and the decode lookup table. `spec/41_decode_lut.md` R140, R141;
`spec/10_state.md` R30, R33; `spec/42_decoder_fsm.md` R167. -/

namespace Sys2Proof.Machine

/-- `Node[i]`; there is none above index 512 (R30). -/
def nodeAt (node : Vector Node 513) (i : NodeIx) : Option Node := node[i.toNat]?

/-- `isLeaf(i)`. -/
def isLeafAt (node : Vector Node 513) (i : NodeIx) : Bool :=
  match nodeAt node i with
  | some (.leaf _ _ _) => true
  | _ => false

/-- Child slot `bit` of node `i`. A missing child is `NONE` (R30). -/
def childAt (node : Vector Node 513) (i : NodeIx) (bit : Bool) : NodeIx :=
  match nodeAt node i with
  | some (.internal c0 c1) => if bit then c1 else c0
  | _ => noneIx

/-- Take one child a bit, and stop at the first leaf (R140, R141). -/
def descend (node : Vector Node 513) : List Bool → NodeIx → NodeIx
  | [], i => i
  | b :: bs, i =>
    if isLeafAt node (childAt node i b) then childAt node i b else descend node bs (childAt node i b)

/-- The low `n` bits of `v`, bit 0 first (R10). -/
def bitsOf (n v : Nat) : List Bool := (List.range n).map fun k => v.testBit k

/-- `LutEntry(v)` (R141). -/
def lutEntry (node : Vector Node 513) (v : Nat) : NodeIx := descend node (bitsOf 10 v) rootIx

/-- `LutBuild(Node)` (R141). -/
def lutBuild (node : Vector Node 513) : Vector NodeIx 1024 := tabulate 1024 (lutEntry node)

/-- `Lut[i]` (R33). -/
def lutAt (lut : Vector NodeIx 1024) (i : BitVec 10) : NodeIx := lut[i.toNat]

end Sys2Proof.Machine
end

