-- ==== Sys2Proof/Machine/TreeBuilder.lean ====
section
/-! DEFINITION. The tree builder as a function of the frequency table, and the table check.
`spec/40_tree_builder.md` R100 to R113; `spec/00_scope.md` R7. -/

namespace Sys2Proof.Machine

/-! ### The sort (R103, R104) -/

/-- Put `x`, which stood before every record of the sorted list, where it belongs: below the records of greater
frequency, above the others. Only `freq` is compared (R103). -/
def insertDesc (x : Record) : List Record → List Record
  | [] => [x]
  | y :: ys => if y.freq.toNat ≤ x.freq.toNat then x :: y :: ys else y :: insertDesc x ys

/-- `SortDesc`: frequencies do not increase, and records of equal frequency keep their order (R103). -/
def sortDesc (l : List Record) : List Record := l.foldr insertDesc []

/-- The inner loop of R104 over the first `size` records: swap neighbours on a strict `<`; says whether it swapped. -/
def bubblePass : Nat → List Record → List Record × Bool
  | size + 2, x :: y :: rest =>
    if x.freq.toNat < y.freq.toNat then
      let r := bubblePass (size + 1) (x :: rest)
      (y :: r.1, true)
    else
      let r := bubblePass (size + 1) (y :: rest)
      (x :: r.1, r.2)
  | _, l => (l, false)

/-- The outer loop of R104, at most `fuel` passes: stop after a pass that swapped nothing, and leave the last
position of each pass out of the next one. -/
def bubbleLoop : Nat → Nat → List Record → List Record
  | 0, _, l => l
  | fuel + 1, size, l =>
    let r := bubblePass size l
    if r.2 then bubbleLoop fuel (size - 1) r.1 else r.1

/-- The source's adjacent-swap bubble sort (R104). A pass more than the list is long can swap nothing. -/
def bubbleSort (l : List Record) : List Record := bubbleLoop (l.length + 1) l.length l

/-! ### The merge loop (R101, R102, R105 to R108) -/

/-- The tree builder's working state: the working list `WL[0..NLEFT-1]`, the records dropped from it, which stay in
`WL[NLEFT..256]`, the next free slot, and the node array so far. -/
structure Build where
  wl : List Record
  dropped : List Record
  next : Nat
  nodes : List Node
deriving DecidableEq, Repr

/-- `Leaf{symbol = s, code = 0, len = PENDING}` (R101). `PENDING` is written as length 0, which no finished leaf has;
it never leaves the tree builder (I19). -/
def pendingLeaf (s : Nat) : Node := .leaf (BitVec.ofNat 9 s) 0#24 0#5

/-- The weight the tree builder gives symbol `s`: the table's word, but 1 for EOS (R102). -/
def weight (f : FreqTable) (s : Nat) : Word := if s = 256 then 1#32 else f[s]?.getD 0#32

/-- Leaf initialisation and working-list initialisation (R101, R102). -/
def initBuild (f : FreqTable) : Build :=
  { wl := (List.range 257).map fun s => { id := BitVec.ofNat 10 s, freq := weight f s }
    dropped := []
    next := 257
    nodes := (List.range 257).map pendingLeaf }

/-- The ids of the last two records of the list, `(WL[n-2].id, WL[n-1].id)`. -/
def lastPair : List Record → Option (NodeIx × NodeIx)
  | [] => none
  | x :: t => match t with
    | [] => none
    | y :: u => match u with
      | [] => some (x.id, y.id)
      | _ :: _ => lastPair t

/-- Replace the second-lowest record in place by the merged one and drop the lowest (R107). -/
def mergeTail (m : NodeIx) : List Record → List Record
  | [] => []
  | x :: t => match t with
    | [] => [x]
    | y :: u => match u with
      | [] => [{ id := m, freq := x.freq + y.freq }]
      | _ :: _ => x :: mergeTail m t

/-- One pass of R108's loop, `none` when fewer than two records are left: sort, make the internal node in the next
free slot with the second-lowest record as child 0 and the lowest as child 1 (R105, R106), replace (R107). The lowest record is
dropped where it stands: `WL[n-1]` is not written. -/
def mergePass (b : Build) : Option Build :=
  match lastPair (sortDesc b.wl) with
  | none => none
  | some (c0, c1) =>
    some { wl := mergeTail (BitVec.ofNat 10 b.next) (sortDesc b.wl)
           dropped := (sortDesc b.wl).getLast?.toList ++ b.dropped
           next := b.next + 1
           nodes := b.nodes ++ [.internal c0 c1] }

/-- `while NLEFT > 1` (R108), at most `fuel` passes. -/
def mergeLoop : Nat → Build → Build
  | 0, b => b
  | fuel + 1, b => match mergePass b with
    | none => b
    | some b' => mergeLoop fuel b'

/-- The merge phase: 257 records allow exactly 256 merges (R108). -/
def mergeAll (f : FreqTable) : Build := mergeLoop 256 (initBuild f)

/-! ### Code assignment (R110) -/

/-- A leaf reached by the walk, with the code and the depth it gets. -/
structure CodePath where
  leaf : NodeIx
  code : Nat
  len : Nat
deriving DecidableEq, Repr

/-- The depth-first walk `assign(i, code, d)` of R110: child slot 1 first with bit `d` set, then child slot 0. Every
child lies below its parent (R112), so `fuel` above the root's index never runs out. -/
def assignCodes (nodes : List Node) : Nat → NodeIx → Nat → Nat → List CodePath
  | 0, _, _, _ => []
  | fuel + 1, i, code, d =>
    match nodes[i.toNat]? with
    | some (.internal c0 c1) =>
      assignCodes nodes fuel c1 (code ||| 1 <<< d) (d + 1) ++ assignCodes nodes fuel c0 code (d + 1)
    | some (.leaf _ _ _) => [{ leaf := i, code := code, len := d }]
    | none => []

/-- `assign(512, 0, 0)` on the merged tree (R110). -/
def codePaths (f : FreqTable) : List CodePath := assignCodes (mergeAll f).nodes 513 rootIx 0 0

/-- Node `i` after the code assignment: a leaf gets its code and length, an internal node is untouched (R110). -/
def finishNode (paths : List CodePath) (i : Nat) : Node → Node
  | .internal c0 c1 => .internal c0 c1
  | .leaf s c l =>
    match paths.find? (fun p => p.leaf.toNat == i) with
    | some p => .leaf s (BitVec.ofNat 24 p.code) (BitVec.ofNat 5 p.len)
    | none => .leaf s c l

/-- The finished node array of given nodes and paths (R110). -/
def finishNodes (nodes : List Node) (paths : List CodePath) : Vector Node 513 :=
  tabulate 513 fun i => finishNode paths i (nodes[i]?.getD (pendingLeaf i))

/-- `TreeBuild(FREQ)` (R100, R113). -/
def treeBuild (f : FreqTable) : Vector Node 513 := finishNodes (mergeAll f).nodes (codePaths f)

/-! ### The table check (R7) -/

/-- The greatest length among code paths. -/
def maxLenOf (paths : List CodePath) : Nat := (paths.map (·.len)).foldl max 0

/-- `MAXLEN(FREQ)`: the greatest depth of a leaf (R111). -/
def maxLen (f : FreqTable) : Nat := maxLenOf (codePaths f)

/-- The sum of the weights of the 257 leaves, as an exact number (R7 item 3, R109). -/
def totalWeight (f : FreqTable) : Nat := ((List.range 257).map fun s => (weight f s).toNat).sum

/-- The well-formedness check of a frequency table, its four items in order (R7). -/
def freqOk (f : FreqTable) : Bool :=
  f[0] == freq0
    && (List.range 256).all (fun s => decide (1 ≤ (weight f s).toNat))
    && decide (totalWeight f ≤ 2 ^ 32 - 1)
    && decide (maxLen f ≤ 24)

/-- The flat table: 2^30 for symbol 0 and 1 for every other entry. It passes `freqOk`; it is T1 of
`spec/95_test_vectors.md`. -/
def flatTable : FreqTable := tabulate 257 fun s => if s = 0 then freq0 else 1#32

/-- `WL[0..256]`: the list, and after it the records dropped from it (R36, R107). -/
def Build.store (b : Build) : Vector Record 257 := tabulate 257 fun k => (b.wl ++ b.dropped)[k]?.getD default

/-- What the builder's working registers hold when the merge loop has ended (R36, R108). -/
def builderAfter (f : FreqTable) (b : BuilderRegs) : BuilderRegs :=
  { b with wl := (mergeAll f).store
           nleft := BitVec.ofNat 9 (mergeAll f).wl.length
           next := BitVec.ofNat 10 (mergeAll f).next }

end Sys2Proof.Machine
end

