-- ==== Sys2Proof/Laws/TreeBuilder.lean ====
section
/-! SUPPORT. Laws of the tree builder: what the sort does to a list in order and to a merged record at its end, the merge
loop as insertion into a sorted list, a bound on the code lengths, and that the flat table passes the check of R7. -/

namespace Sys2Proof

@[simp] theorem tabulate_getElem {α : Type} (n : Nat) (f : Nat → α) (i : Nat) (h : i < n) :
    (tabulate n f)[i] = f i := by
  simp [tabulate]

end Sys2Proof

namespace Sys2Proof.Machine

/-! ### The sort -/

/-- Frequencies do not increase along the list (R103 (a)). -/
abbrev Desc (l : List Record) : Prop := l.Pairwise fun x y => y.freq.toNat ≤ x.freq.toNat

theorem mem_insertDesc {x z : Record} {l : List Record} : z ∈ insertDesc x l ↔ z = x ∨ z ∈ l := by
  induction l with
  | nil => simp [insertDesc]
  | cons y ys ih =>
    simp only [insertDesc]
    split <;> simp [ih]
    tauto

theorem insertDesc_desc {x : Record} {l : List Record} (h : Desc l) : Desc (insertDesc x l) := by
  induction l with
  | nil => simp [insertDesc, Desc]
  | cons y ys ih =>
    have hy := List.pairwise_cons.1 h
    simp only [insertDesc]
    split
    · next hle =>
      refine List.pairwise_cons.2 ⟨fun z hz => ?_, h⟩
      rcases List.mem_cons.1 hz with rfl | hz
      · exact hle
      · exact Nat.le_trans (hy.1 z hz) hle
    · next hlt =>
      refine List.pairwise_cons.2 ⟨fun z hz => ?_, ih hy.2⟩
      rcases mem_insertDesc.1 hz with rfl | hz
      · omega
      · exact hy.1 z hz

theorem sortDesc_desc (l : List Record) : Desc (sortDesc l) := by
  induction l with
  | nil => exact List.Pairwise.nil
  | cons x l ih => exact insertDesc_desc ih

theorem insertDesc_of_le {x : Record} {l : List Record} (h : ∀ y ∈ l, y.freq.toNat ≤ x.freq.toNat) :
    insertDesc x l = x :: l := by
  cases l with
  | nil => rfl
  | cons y ys => rw [insertDesc, if_pos (h y List.mem_cons_self)]

theorem insertDesc_of_lt {x y : Record} {l : List Record} (h : x.freq.toNat < y.freq.toNat) :
    insertDesc x (y :: l) = y :: insertDesc x l := by
  rw [insertDesc, if_neg (by omega)]

/-- A list in order stays as it is. -/
theorem sortDesc_of_desc {l : List Record} (h : Desc l) : sortDesc l = l := by
  induction l with
  | nil => rfl
  | cons x l ih =>
    have hx := List.pairwise_cons.1 h
    show insertDesc x (sortDesc l) = x :: l
    rw [ih hx.2, insertDesc_of_le hx.1]

/-- Put a record that stood last into a list kept lowest frequency first: above every record of smaller frequency, below
every other (R107's corner case). -/
def insertAsc (m : Record) : List Record → List Record
  | [] => [m]
  | y :: ys => if m.freq.toNat ≤ y.freq.toNat then m :: y :: ys else y :: insertAsc m ys

theorem insertAsc_above {m : Record} {r : List Record} (h : ∀ y ∈ r, y.freq.toNat < m.freq.toNat) (t : List Record) :
    insertAsc m (r ++ t) = r ++ insertAsc m t := by
  induction r with
  | nil => rfl
  | cons y ys ih =>
    rw [List.cons_append, insertAsc, if_neg (by have := h y List.mem_cons_self; omega),
      ih fun z hz => h z (List.mem_cons_of_mem _ hz)]
    rfl

theorem insertAsc_within {m : Record} {r : List Record} (h : ∃ y ∈ r, m.freq.toNat ≤ y.freq.toNat) (t : List Record) :
    insertAsc m (r ++ t) = insertAsc m r ++ t := by
  induction r with
  | nil => obtain ⟨y, hy, _⟩ := h; cases hy
  | cons y ys ih =>
    simp only [List.cons_append, insertAsc]
    split
    · rfl
    · next hlt =>
      obtain ⟨z, hz, hle⟩ := h
      rcases List.mem_cons.1 hz with rfl | hz
      · exact absurd hle hlt
      · rw [ih ⟨z, hz, hle⟩]; rfl

theorem mem_insertAsc {m z : Record} {r : List Record} : z ∈ insertAsc m r ↔ z = m ∨ z ∈ r := by
  induction r with
  | nil => simp [insertAsc]
  | cons y ys ih =>
    simp only [insertAsc]
    split <;> simp [ih]
    tauto

/-- Sorting a list in order with one record put at its end is one insertion. -/
theorem sortDesc_append_last {l : List Record} (m : Record) (h : Desc l) :
    sortDesc (l ++ [m]) = (insertAsc m l.reverse).reverse := by
  induction l with
  | nil => rfl
  | cons x l ih =>
    have hx := List.pairwise_cons.1 h
    show insertDesc x (sortDesc (l ++ [m])) = _
    rw [ih hx.2, List.reverse_cons]
    by_cases hb : ∃ y ∈ l.reverse, m.freq.toNat ≤ y.freq.toNat
    · rw [insertAsc_within hb, List.reverse_append, List.reverse_singleton, List.singleton_append]
      obtain ⟨y, hy, hle⟩ := hb
      refine insertDesc_of_le fun z hz => ?_
      rcases mem_insertAsc.1 (List.mem_reverse.1 hz) with rfl | hz
      · exact Nat.le_trans hle (hx.1 y (List.mem_reverse.1 hy))
      · exact hx.1 z (List.mem_reverse.1 hz)
    · have ha : ∀ y ∈ l.reverse, y.freq.toNat < m.freq.toNat := fun y hy => by
        by_contra hc
        exact hb ⟨y, hy, by omega⟩
      have hm := insertAsc_above ha []
      rw [List.append_nil] at hm
      rw [insertAsc_above ha, hm]
      simp only [insertAsc, List.reverse_append, List.reverse_reverse, List.reverse_singleton, List.singleton_append]
      split
      · next hle =>
        rw [insertDesc, if_pos hle]
        simp
      · next hlt =>
        rw [insertDesc_of_lt (by omega), insertDesc_of_le hx.1]
        simp

/-! ### The merge loop -/

theorem lastPair_append (l : List Record) (x y : Record) : lastPair (l ++ [x, y]) = some (x.id, y.id) := by
  induction l with
  | nil => rfl
  | cons z l ih =>
    obtain ⟨u, v, w, h⟩ : ∃ u v w, l ++ [x, y] = u :: v :: w := by
      rcases l with _ | ⟨a, _ | ⟨b, l⟩⟩ <;> simp
    rw [List.cons_append, h, lastPair, ← h, ih]

theorem mergeTail_append (m : NodeIx) (l : List Record) (x y : Record) :
    mergeTail m (l ++ [x, y]) = l ++ [{ id := m, freq := x.freq + y.freq }] := by
  induction l with
  | nil => rfl
  | cons z l ih =>
    obtain ⟨u, v, w, h⟩ : ∃ u v w, l ++ [x, y] = u :: v :: w := by
      rcases l with _ | ⟨a, _ | ⟨b, l⟩⟩ <;> simp
    rw [List.cons_append, h, mergeTail, ← h, ih]
    rfl

/-- The internal nodes the merge loop makes, in order, from the sorted list kept lowest frequency first. -/
def mergedNodes : Nat → List Record → Nat → List Node
  | 0, _, _ => []
  | _ + 1, [], _ => []
  | _ + 1, [_], _ => []
  | fuel + 1, y :: x :: r, next =>
    .internal x.id y.id
      :: mergedNodes fuel (insertAsc { id := BitVec.ofNat 10 next, freq := x.freq + y.freq } r) (next + 1)

/-- The merge loop makes exactly `mergedNodes`: the sort of R103 over the whole list is one insertion (R107). -/
theorem mergeLoop_nodes (fuel : Nat) (b : Build) (r : List Record) (h : sortDesc b.wl = r.reverse) :
    (mergeLoop fuel b).nodes = b.nodes ++ mergedNodes fuel r b.next := by
  induction fuel generalizing b r with
  | zero => simp [mergeLoop, mergedNodes]
  | succ fuel ih =>
    rcases r with _ | ⟨y, _ | ⟨x, r⟩⟩
    · simp [mergeLoop, mergePass, h, lastPair, mergedNodes]
    · simp [mergeLoop, mergePass, h, lastPair, mergedNodes]
    · have hr : (y :: x :: r).reverse = r.reverse ++ [x, y] := by simp
      have hd : Desc r.reverse := by
        have := sortDesc_desc b.wl
        rw [h, hr] at this
        exact (List.pairwise_append.1 this).1
      have hs := sortDesc_append_last { id := BitVec.ofNat 10 b.next, freq := x.freq + y.freq } hd
      rw [List.reverse_reverse] at hs
      have := ih { wl := r.reverse ++ [{ id := BitVec.ofNat 10 b.next, freq := x.freq + y.freq }]
                   dropped := (r.reverse ++ [x, y]).getLast?.toList ++ b.dropped
                   next := b.next + 1
                   nodes := b.nodes ++ [.internal x.id y.id] } _ hs
      simp only [mergeLoop, mergePass, h, hr, lastPair_append, mergeTail_append, mergedNodes]
      rw [this]
      simp

theorem mergeAll_nodes (f : FreqTable) :
    (mergeAll f).nodes
      = (List.range 257).map pendingLeaf ++ mergedNodes 256 (sortDesc (initBuild f).wl).reverse 257 :=
  mergeLoop_nodes 256 (initBuild f) _ (List.reverse_reverse _).symm

/-- Node `i` of the finished array. -/
theorem nodeAt_treeBuild (f : FreqTable) (i : NodeIx) (h : i.toNat < 513) :
    nodeAt (treeBuild f) i
      = some (finishNode (codePaths f) i.toNat ((mergeAll f).nodes[i.toNat]?.getD (pendingLeaf i.toNat))) := by
  rw [nodeAt, Vector.getElem?_eq_getElem h, treeBuild, finishNodes, tabulate_getElem]

theorem sortDesc_length (l : List Record) : (sortDesc l).length = l.length := by
  have hi : ∀ (x : Record) (l : List Record), (insertDesc x l).length = l.length + 1 := by
    intro x l
    induction l with
    | nil => rfl
    | cons y ys ih =>
      simp only [insertDesc]
      split <;> simp [ih]
  induction l with
  | nil => rfl
  | cons x l ih => rw [List.length_cons, ← ih]; exact hi x (sortDesc l)

/-- A pass makes the list one shorter and drops one record, so the store stays full (R36, R107). -/
theorem mergePass_lengths {b b' : Build} (h : mergePass b = some b') :
    b'.wl.length + 1 = b.wl.length ∧ b'.dropped.length = b.dropped.length + 1 := by
  obtain ⟨l, x, y, hl⟩ | hl : (∃ l x y, sortDesc b.wl = l ++ [x, y]) ∨ lastPair (sortDesc b.wl) = none := by
    cases hr : (sortDesc b.wl).reverse with
    | nil => exact .inr (by rw [List.reverse_eq_nil_iff.1 hr]; rfl)
    | cons y t =>
      have hs : sortDesc b.wl = t.reverse ++ [y] := by rw [← List.reverse_reverse (sortDesc b.wl), hr, List.reverse_cons]
      cases t with
      | nil => exact .inr (by rw [hs]; rfl)
      | cons x t => exact .inl ⟨t.reverse, x, y, by simp [hs]⟩
  · have hn := sortDesc_length b.wl
    rw [mergePass, hl, lastPair_append] at h
    simp only [Option.some.injEq] at h
    subst h
    simp [mergeTail_append, ← hn, hl]
  · simp [mergePass, hl] at h

/-! ### Code lengths -/

/-- A height that falls from every internal node to its children bounds the length of every code below a node. -/
theorem assignCodes_len_le {nodes : List Node} {height : Nat → Nat}
    (hh : ∀ i c0 c1, nodes[i]? = some (.internal c0 c1) → height c0.toNat < height i ∧ height c1.toNat < height i)
    (fuel : Nat) (i : NodeIx) (code d : Nat) :
    ∀ p ∈ assignCodes nodes fuel i code d, p.len ≤ d + height i.toNat := by
  induction fuel generalizing i code d with
  | zero => intro p hp; simp [assignCodes] at hp
  | succ fuel ih =>
    intro p hp
    rw [assignCodes] at hp
    split at hp
    · next c0 c1 hn =>
      have := hh _ _ _ hn
      rcases List.mem_append.1 hp with hp | hp
      · have := ih _ _ _ p hp; omega
      · have := ih _ _ _ p hp; omega
    · simp at hp; subst hp; simp
    · simp at hp

theorem maxLenOf_le {paths : List CodePath} {n : Nat} (h : ∀ p ∈ paths, p.len ≤ n) : maxLenOf paths ≤ n := by
  suffices H : ∀ (l : List Nat) (a : Nat), a ≤ n → (∀ x ∈ l, x ≤ n) → l.foldl max a ≤ n by
    refine H _ _ (Nat.zero_le _) fun x hx => ?_
    obtain ⟨p, hp, rfl⟩ := List.mem_map.1 hx
    exact h p hp
  intro l
  induction l with
  | nil => intro a ha _; exact ha
  | cons x l ih =>
    intro a ha hl
    exact ih _ (max_le ha (hl x List.mem_cons_self)) fun z hz => hl z (List.mem_cons_of_mem _ hz)

/-! ### The flat table passes the check -/

/-- The height of each node of the flat table's tree. -/
def flatHeight (i : Nat) : Nat :=
  if i ≤ 256 then 0 else if i ≤ 384 then 1 else if i ≤ 448 then 2 else if i ≤ 480 then 3 else if i ≤ 496 then 4
  else if i ≤ 504 then 5 else if i ≤ 508 then 6 else if i ≤ 510 then 7 else if i ≤ 511 then 8 else 9

/-- Every internal node of the list, the first one with index `i`, is higher than its children. -/
def heightsFall (height : Nat → Nat) : Nat → List Node → Bool
  | _, [] => true
  | i, .leaf _ _ _ :: l => heightsFall height (i + 1) l
  | i, .internal c0 c1 :: l =>
    decide (height c0.toNat < height i) && decide (height c1.toNat < height i) && heightsFall height (i + 1) l

theorem heightsFall_get {height : Nat → Nat} {l : List Node} {k : Nat} (h : heightsFall height k l = true) :
    ∀ i c0 c1, l[i]? = some (.internal c0 c1) → height c0.toNat < height (k + i) ∧ height c1.toNat < height (k + i) := by
  induction l generalizing k with
  | nil => intro i c0 c1 hi; simp at hi
  | cons n l ih =>
    intro i c0 c1 hi
    cases i with
    | zero =>
      simp at hi
      subst hi
      simp [heightsFall] at h
      exact h.1
    | succ i =>
      have hl : heightsFall height (k + 1) l = true := by
        cases n
        · exact h
        · simp [heightsFall] at h; exact h.2
      have := ih hl i c0 c1 (by simpa using hi)
      rwa [show k + (i + 1) = k + 1 + i by omega]

/-- The flat table's tree, evaluated once. It is the spec's test table T1, and the nodes and the code compared with here
are those of `spec/95_test_vectors.md` (TB1, TB2, TB4, and symbol 86's code). -/
theorem flatTable_tree :
    (let l := (List.range 257).map pendingLeaf ++ mergedNodes 256 (sortDesc (initBuild flatTable).wl).reverse 257
    heightsFall flatHeight 0 l
      && l[257]? == some (.internal 255 256) && l[258]? == some (.internal 253 254)
      && l[384]? == some (.internal 1 2) && l[385]? == some (.internal 383 384)
      && l[386]? == some (.internal 381 382) && l[511]? == some (.internal 509 510)
      && l[512]? == some (.internal 0 511)
      && (assignCodes l 513 rootIx 0 0).head? == some { leaf := 86, code := 0x1FF, len := 9 }) = true := by
  decide +kernel

theorem flatTable_heights : heightsFall flatHeight 0 (mergeAll flatTable).nodes = true := by
  have h := flatTable_tree
  simp only [Bool.and_eq_true] at h
  rw [mergeAll_nodes]
  exact h.1.1.1.1.1.1.1.1

/-- The first code path of the flat table: symbol 86 with the code `0x1FF/9`. -/
theorem flatTable_firstPath : (codePaths flatTable).head? = some { leaf := 86, code := 0x1FF, len := 9 } := by
  have h := flatTable_tree
  simp only [Bool.and_eq_true, beq_iff_eq] at h
  rw [codePaths, mergeAll_nodes]
  exact h.2

theorem flatTable_maxLen : maxLen flatTable ≤ 9 := by
  refine maxLenOf_le fun p hp => ?_
  have := assignCodes_len_le (fun i c0 c1 hi => by simpa using heightsFall_get flatTable_heights i c0 c1 hi) _ _ _ _ p hp
  simpa [flatHeight] using this

/-- The flat table passes the check of R7. -/
theorem flatTable_ok : freqOk flatTable = true := by
  have h : flatTable[0] == freq0 := by decide +kernel
  have h1 : (List.range 256).all (fun s => decide (1 ≤ (weight flatTable s).toNat)) = true := by decide +kernel
  have h2 : totalWeight flatTable ≤ 2 ^ 32 - 1 := by decide +kernel
  have h3 := flatTable_maxLen
  rw [freqOk, h, h1]
  simp
  exact ⟨by simpa using h2, by omega⟩

end Sys2Proof.Machine
end

