-- ==== Sys2Proof/Machine/Rom.lean ====
section
/-! DEFINITION. The frequency ROM, whose contents have passed the table check, and that check as the configuration's.
`spec/00_scope.md` R6, R7; `spec/10_state.md` R34. -/

namespace Sys2Proof.Machine

/-- The frequency ROM: a table that meets R7. There is no ROM, and so no state of the machine, with a table that fails it:
the block has no meaning under such a table (R7, R34). The flat table only witnesses that there is a ROM (assumption 1). -/
structure Rom where
  table : FreqTable := flatTable
  wf : freqOk table = true := by exact flatTable_ok
deriving DecidableEq, Repr, Inhabited

/-- The configuration check: the ROM that a table makes, none if it fails R7. -/
def Rom.check (f : FreqTable) : Option Rom :=
  if h : freqOk f = true then some { table := f, wf := h } else none

end Sys2Proof.Machine
end

