-- ==== Sys2Proof/Config.lean ====
section
/-! DEFINITION. What the platform or the implementation fixes, and the free values. Each constant is opaque and has
no body: no proof can learn what it is, and a claim holds whatever it is. `spec/92_eei_decisions.md` D4, D17, D20,
D25, D40; `spec/93_implementation_defined.md` I1, I6 to I9, I13. -/

namespace Sys2Proof.Config

/-- The open parameter `FREQ`: the ROM the block was made with, of which nothing but R7 is known (R6, R34, D4, I1). -/
opaque freqParam : Machine.Rom

/-- The open parameter `admits`, as the list of address runs that the platform admits (R68, D17, I9). -/
opaque hostRegions : List Machine.Region

/-- The open parameter `REG_BASE`: where the register window sits in the host's address space (R60, R78, D40, I13). -/
opaque regBase : Word

/-- The `n`-th draw of an unspecified 32-bit value: NODE and LUT window reads while READY = 0 (R213, R214, I6). -/
opaque freeWord : Nat → Word

/-- What the node array and the LUT hold after the `n`-th draw: unspecified after reset (R40, R250, I7). -/
opaque freeTables : Nat → Machine.Tables

/-- What the INIT working registers hold after the `n`-th draw: unspecified after reset (R36, R37, R40, I8). -/
opaque freeBuilder : Nat → Machine.BuilderRegs

/-- What the decoder's working registers hold after the `n`-th draw: unspecified after reset (R38, R40, I8). -/
opaque freeDecoder : Nat → Machine.DecoderRegs

end Sys2Proof.Config
end

