-- ==== Sys2Proof/Machine/State.lean ====
section
/-! DEFINITION. The state of the machine, the reasons a step can stop, and the state after reset.
`spec/10_state.md` R20 to R41; `spec/00_scope.md` R12; `spec/70_reset_and_hazards.md` R250. -/

namespace Sys2Proof.Machine

/-- Everything the spec gives the block, the host and the platform. STATUS's BUSY and PHASE are not stored: they are
read off `estate` (R22, R25). CMD stores nothing (R23). -/
structure State where
  /-- `ESTATE` (R22). -/
  estate : EState
  /-- `STATUS.READY` (R26). -/
  ready : Bool
  /-- `STATUS.DONE` (R27). -/
  done : Bool
  /-- `STATUS.ERR` (R27). -/
  err : Bool
  /-- `STATUS.ERRCLASS` (R27, R231). -/
  errClass : ErrClass
  /-- `STATUS.REJECTED` (R28). -/
  rejected : Bool
  /-- `IN_BASE` (R29). -/
  inBase : Word
  /-- `IN_LEN` (R29). -/
  inLen : Word
  /-- `OUT_BASE` (R29). -/
  outBase : Word
  /-- `OUT_CAP` (R29). -/
  outCap : Word
  /-- `RESULT` (R35). -/
  result : Word
  /-- The frequency ROM (R34). No step changes it. -/
  rom : Rom
  /-- Node array and LUT (R30, R33). -/
  tab : Tables
  /-- `WL`, `NLEFT`, `NEXT`, `V` (R36, R37). -/
  bld : BuilderRegs
  /-- The decoder's working registers (R38). -/
  dec : DecoderRegs
  /-- Host memory (R60). -/
  mem : Memory
  /-- The platform's admitted addresses (R68). No step changes them. -/
  regions : List Region
  /-- What the outside world has yet to do, first thing first (R12, R93). -/
  inputs : List Input
  /-- What the host has done and seen, newest first (R93). -/
  trace : List Transaction
  /-- The model's own: who moves when both agents can; when it is used up, the engine (R12, R261). -/
  turns : List Agent
  /-- The model's own: how many free values have been drawn. -/
  draws : Nat
deriving DecidableEq, Repr

/-- The reasons the machine stops with a fault. -/
inductive Fault where
  /-- Raised by the engine's refill and output steps: the address is one the platform does not admit, the engine has no
  step (R68), and nothing the host has yet to do could change that. Safe: the run ends where the hardware hangs. -/
  | engineStuck
  /-- Raised by the output step on a node that is no leaf: no rule gives it a symbol. No run reaches it (R167, R168).
  Safe. -/
  | emitNotLeaf
  /-- Raised by a host memory access at an address the platform does not admit: such an address does not exist (R68).
  Safe. -/
  | hostNoSuchAddress
deriving DecidableEq, Repr

/-- The reasons a run has no meaning. -/
inductive Refusal where
  /-- Raised by an arm of `exec` for a command that has no meaning yet. Safe. -/
  | notModelled (mnemonic : String)
  /-- Raised by `State.configure` for a table that fails the check of R7: no machine has it in its ROM (R7, I3). Safe. -/
  | freqTable
  /-- Raised by a register access that is not 32 bits wide (R61, R217, I11). Safe. -/
  | busWidth
  /-- Raised by a register access whose offset is no multiple of 4 (R61, R217, I11). Safe. -/
  | busAlignment
  /-- Raised by DECODE when its input and output regions share a byte (R72, R217, I10). Safe. -/
  | bufferOverlap
  /-- Raised by a host access to a running DECODE's buffers (R71, R217, I10). Safe. -/
  | bufferDuty
deriving DecidableEq, Repr

/-- The contents of the ROM, `FREQ[0..256]` (R34). -/
abbrev State.freq (s : State) : FreqTable := s.rom.table

/-- What `Node[i]` is named to hold at reset; the spec leaves it unspecified (R40). -/
def resetNode : Node := .leaf 0#9 0#24 0#5

/-- The machine right after reset, nothing placed in memory and nothing asked of it (R40, R250). The registers R40 calls
unspecified are named 0 here, as assumption 3 says; the ROM holds the open parameter `FREQ`. -/
def State.reset : State :=
  { estate := .idle
    ready := false
    done := false
    err := false
    errClass := .none
    rejected := false
    inBase := 0#32
    inLen := 0#32
    outBase := 0#32
    outCap := 0#32
    result := 0#32
    rom := Config.freqParam
    tab := { node := Vector.replicate 513 resetNode, lut := Vector.replicate 1024 0#10 }
    bld := { wl := Vector.replicate 257 { id := 0#10, freq := 0#32 }, nleft := 0#9, next := 0#10, v := 0#11 }
    dec := { bits := 0#32, bitcnt := 0#6, inPtr := 0#32, outPtr := 0#32, node := 0#10, cand := 0#10, candv := false,
             lInBase := 0#32, lInLen := 0#32, lOutBase := 0#32, lOutCap := 0#32 }
    mem := []
    regions := Config.hostRegions
    inputs := []
    trace := []
    turns := []
    draws := 0 }

end Sys2Proof.Machine
end

