-- ==== Sys2Proof/Machine/Flags.lean ====
section
/-! DEFINITION. The STATUS word and the words of the read windows. `spec/30_encoding.md` R83 to R87;
`spec/10_state.md` R22, R24, R25. Concatenations have their high part on the left, as in R9. -/

namespace Sys2Proof.Machine

/-- `STATUS.BUSY` (R25). -/
def busy (s : State) : Bool := s.estate != .idle

/-- `STATUS.PHASE` (R22). -/
def EState.phase : EState → BitVec 2
  | .idle => 0#2
  | .tree => 1#2
  | .lutb => 2#2
  | .dA => 3#2
  | .dB => 3#2
  | .dC => 3#2
  | .dD => 3#2
  | .dWalk => 3#2
  | .dEmit => 3#2

/-- Whether a DECODE is running: BUSY = 1 with PHASE = 3 (R71). -/
def EState.decoding (e : EState) : Bool := e.phase == 3#2

/-- `STATUS.ERRCLASS` (R83, R231). -/
def ErrClass.code : ErrClass → BitVec 3
  | .none => 0#3
  | .truncated => 1#3
  | .invalidCode => 2#3
  | .outputOverflow => 3#3
  | .notReady => 4#3
  | .illegalCmd => 5#3

/-- The fields of STATUS in their places (R83). -/
def packStatus (phase : BitVec 2) (rejected : Bool) (cls : BitVec 3) (err done ready busy : Bool) : Word :=
  0#22 ++ phase ++ BitVec.ofBool rejected ++ cls ++ BitVec.ofBool err ++ BitVec.ofBool done ++ BitVec.ofBool ready
    ++ BitVec.ofBool busy

/-- The STATUS word (R83). -/
def statusWord (s : State) : Word :=
  packStatus s.estate.phase s.rejected s.errClass.code s.err s.done s.ready (busy s)

/-- `NODE_W0[i]` of a node (R84). -/
def Node.word0 : Node → Word
  | .leaf symbol _ _ => 1#1 ++ 0#2 ++ symbol ++ noneIx ++ noneIx
  | .internal child0 child1 => 0#1 ++ 0#2 ++ 0#9 ++ child1 ++ child0

/-- `NODE_W1[i]` of a node (R85). -/
def Node.word1 : Node → Word
  | .leaf _ code len => 0#3 ++ len ++ code
  | .internal _ _ => 0#32

/-- `LUT_W[v]` of an entry (R86). -/
def lutWord (i : NodeIx) : Word := i.setWidth 32

end Sys2Proof.Machine
end

