-- ==== Sys2Proof/Machine/Ops.lean ====
section
/-! DEFINITION. The shared operations: host memory, admission, accepting a command, ending one (`finish`, the block's
analogue of taking an exception), dropping one, and the reset event. `spec/20_memory.md` R60 to R68;
`spec/43_commands.md` R202, R203; `spec/60_exceptions.md` R234; `spec/70_reset_and_hazards.md` R250. -/

namespace Sys2Proof.Machine

/-! ### Host memory -/

/-- What a byte of host memory that nothing has written reads as (assumption 2). -/
def unlistedByte : Byte := 0#8

/-- The canonical form above a least address: addresses below 2^32 and strictly rising, and no entry equal to what an
unlisted address reads as. -/
def Memory.wfFrom (low : Nat) : Memory → Bool
  | [] => true
  | (k, v) :: m => decide (low ≤ k) && decide (k < 2 ^ 32) && v != unlistedByte && Memory.wfFrom (k + 1) m

/-- The canonical form of a memory. -/
def Memory.wf (m : Memory) : Bool := Memory.wfFrom 0 m

/-- The byte at an address. -/
def Memory.read : Memory → Nat → Byte
  | [], _ => unlistedByte
  | (k, v) :: m, a => if k = a then v else Memory.read m a

/-- The memory with the byte at an address replaced, in canonical form. -/
def Memory.write : Memory → Nat → Byte → Memory
  | [], a, b => if b = unlistedByte then [] else [(a, b)]
  | (k, v) :: m, a, b =>
    if a < k then (if b = unlistedByte then (k, v) :: m else (a, b) :: (k, v) :: m)
    else if a = k then (if b = unlistedByte then m else (a, b) :: m)
    else (k, v) :: Memory.write m a b

/-- `MemRead(addr, 1)` (R62). -/
def memRead (s : State) (addr : Word) : Byte := Memory.read s.mem addr.toNat

/-- `MemWrite(addr, 1, v)` (R63). -/
def memWrite (s : State) (addr : Word) (v : Byte) : State :=
  { s with mem := Memory.write s.mem addr.toNat v }

/-- Whether an address lies in `size` bytes from `base` upward, modulo 2^32 (R64). -/
def inRange (base : Word) (size : Nat) (addr : Word) : Bool := decide ((addr - base).toNat < size)

/-- Whether the platform admits a host address (R68). -/
def admits (s : State) (addr : Word) : Bool := s.regions.any fun r => inRange r.base r.size addr

/-! ### The life of a command -/

/-- Acceptance of a command (R203). -/
def accept (s : State) : State :=
  { s with done := false, err := false, errClass := .none, rejected := false }

/-- A command word dropped because the engine is busy (R202). -/
def reject (s : State) : State := { s with rejected := true }

/-- `finish(kind, result, class)`: the one way a command ends (R234). -/
def finish (s : State) (kind : EndKind) (result : Word) (cls : ErrClass) : State :=
  { s with estate := .idle
           done := true
           err := match kind with
             | .fail => true
             | .success => false
           errClass := cls
           result := result }

/-- `raise class`: end the command with an error (R230, R231). -/
def raise (s : State) (cls : ErrClass) : State := finish s .fail errorResult cls

/-! ### Configuration and reset -/

/-- The machine after reset with a given table in its ROM; a table that fails the check of R7 is refused, and there is no
machine with it (R6, R7). -/
def State.configure (f : FreqTable) : Except Refusal State :=
  match Rom.check f with
  | some rom => .ok { State.reset with rom := rom }
  | none => .error .freqTable

/-- The reset event (R250, R251, R40): what R40 gives a value takes it, what R40 calls unspecified takes a free value,
and the ROM, host memory and the platform stay. -/
def hwReset (s : State) : State :=
  { s with estate := .idle
           ready := false
           done := false
           err := false
           errClass := .none
           rejected := false
           inBase := 0#32
           inLen := 0#32
           outBase := 0#32
           outCap := 0#32
           result := 0#32
           tab := Config.freeTables s.draws
           bld := Config.freeBuilder s.draws
           dec := Config.freeDecoder s.draws
           draws := s.draws + 1 }

end Sys2Proof.Machine
end

