-- ==== Sys2Proof/Machine/Operands.lean ====
section
/-! DEFINITION. Where things stand: the register map, the buffers of a DECODE and the host addresses the engine forms,
and the LUT index. `spec/30_encoding.md` R80; `spec/20_memory.md` R62 to R64, R71, R72; `spec/42_decoder_fsm.md`
R161 to R170. -/

namespace Sys2Proof.Machine

/-! ### The register map (R80) -/

/-- The word of the register window at an aligned offset (R80, R89). -/
def regOf (offset : Offset) : Reg :=
  let a := offset.toNat
  if a = 0x000 then .cmd
  else if a = 0x004 then .status
  else if a = 0x008 then .inBase
  else if a = 0x00C then .inLen
  else if a = 0x010 then .outBase
  else if a = 0x014 then .outCap
  else if a = 0x018 then .result
  else if h : 0x400 ≤ a ∧ a ≤ 0x800 then .freqW ⟨(a - 0x400) / 4, by omega⟩
  else if h : 0x1000 ≤ a ∧ a ≤ 0x2004 then
    if (a - 0x1000) % 8 = 0 then .nodeW0 ⟨(a - 0x1000) / 8, by omega⟩
    else .nodeW1 ⟨(a - 0x1000) / 8, by omega⟩
  else if h : 0x3000 ≤ a ∧ a ≤ 0x3FFF then .lutW ⟨(a - 0x3000) / 4, by omega⟩
  else .reserved

/-- Whether an offset is a multiple of 4 (R61). -/
def wordAligned (offset : Offset) : Bool := offset.toNat % 4 == 0

/-- The host address of a word of the register window (R60, R78): `REG_BASE` is the platform's. -/
def regBusAddr (offset : Offset) : Word := Config.regBase + offset.setWidth 32

/-! ### The buffers of a DECODE -/

/-- Whether an address is a byte of the running DECODE's input region (R71). -/
def inInput (s : State) (addr : Word) : Bool := inRange s.dec.lInBase s.dec.lInLen.toNat addr

/-- Whether an address is a byte of the running DECODE's output region (R71). -/
def inOutput (s : State) (addr : Word) : Bool := inRange s.dec.lOutBase s.dec.lOutCap.toNat addr

/-- Whether two regions, modulo 2^32, share a byte; one of length 0 overlaps nothing (R72). Two arcs of a circle meet
exactly when one of them starts inside the other. -/
def regionsOverlap (base1 len1 base2 len2 : Word) : Bool :=
  len1 != 0#32 && len2 != 0#32
    && (inRange base1 len1.toNat base2 || inRange base2 len2.toNat base1)

/-- The host address of the next input byte (R62, R162). -/
def inputAddr (s : State) : Word := s.dec.lInBase + s.dec.inPtr

/-- The host address of the next output byte (R63, R170). -/
def outputAddr (s : State) : Word := s.dec.lOutBase + s.dec.outPtr

/-! ### The decoder's operands -/

/-- `BITS[9:0]`, the index of a LUT lookup (R161, R163). -/
def lutIndex (s : State) : BitVec 10 := s.dec.bits.extractLsb' 0 10

/-- `Lut[BITS[9:0]]`. -/
def lutLookup (s : State) : NodeIx := lutAt s.tab.lut (lutIndex s)

/-- Whether the refill step reads a byte (R162). -/
def wantsByte (s : State) : Bool :=
  decide (s.dec.bitcnt.toNat < 24) && decide (s.dec.inPtr.toNat < s.dec.lInLen.toNat)

/-- The byte the output step writes, `sym(NODE)[7:0]`; none when NODE is no leaf (R170). -/
def emitByte (s : State) : Option Byte :=
  match nodeAt s.tab.node s.dec.node with
  | some (.leaf symbol _ _) => some (symbol.setWidth 8)
  | _ => none

end Sys2Proof.Machine
end

