-- ==== Sys2Proof/Machine/Commands.lean ====
section
/-! DEFINITION. The meanings of the three commands, and of a CMD word that encodes none. `spec/43_commands.md` R202 to
R209; `spec/42_decoder_fsm.md` R160. -/

namespace Sys2Proof.Machine

/-- `NOP` has no effect, in any state (R204). -/
def execNop (s : State) : Host.Outcome State Fault Refusal := .next s

/-- `INIT`: dropped while busy (R202); else accepted, READY goes to 0 and the tree builder starts (R203, R205). -/
def execInit (s : State) : Host.Outcome State Fault Refusal :=
  if busy s then .next (reject s)
  else .next { accept s with ready := false, estate := .tree }

/-- The start step of a DECODE (R160). -/
def decodeStart (s : State) : State :=
  { s with estate := .dA
           dec := { s.dec with lInBase := s.inBase, lInLen := s.inLen, lOutBase := s.outBase, lOutCap := s.outCap
                               bits := 0#32, bitcnt := 0#6, inPtr := 0#32, outPtr := 0#32, candv := false } }

/-- Whether the input and output regions that a DECODE accepted now would get share a byte (R72). -/
def buffersOverlap (s : State) : Bool := regionsOverlap s.inBase s.inLen s.outBase s.outCap

/-- `DECODE`: dropped while busy (R202); else accepted, and either failed with NOT_READY, or refused when its regions
overlap (R72), or started (R203, R207). -/
def execDecode (s : State) : Host.Outcome State Fault Refusal :=
  if busy s then .next (reject s)
  else if s.ready = false then .next (raise (accept s) .notReady)
  else if buffersOverlap s then .refused .bufferOverlap
  else .next (decodeStart (accept s))

/-- A CMD word that encodes no command: dropped while busy (R202); else accepted and failed with ILLEGAL_CMD (R203,
R209). -/
def illegalCmd (s : State) : State :=
  if busy s then reject s else raise (accept s) .illegalCmd

end Sys2Proof.Machine
end

