-- ==== Sys2Proof/Machine/Engine.lean ====
section
/-! DEFINITION. The engine's steps, one per state of `ESTATE`. `spec/40_tree_builder.md` R113; `spec/41_decode_lut.md`
R145; `spec/42_decoder_fsm.md` R161 to R170; `spec/20_memory.md` R68. -/

namespace Sys2Proof.Machine

/-- Step `TREE` (R113). The ROM has passed the check of R7, so every operation of it is defined (R117). -/
def stepTree (s : State) : State :=
  { s with tab := { s.tab with node := treeBuild s.freq }
           bld := builderAfter s.freq s.bld
           estate := .lutb }

/-- Step `LUTB`: fill the LUT, finish with success, then set READY (R145). -/
def stepLutb (s : State) : State :=
  let filled := { s with tab := { s.tab with lut := lutBuild s.tab.node }, bld := { s.bld with v := 1024#11 } }
  { finish filled .success 0#32 .none with ready := true }

/-- Step `D_A`: a lookup before the refill when ten bits are there (R161). -/
def stepDA (s : State) : State :=
  if 10 ≤ s.dec.bitcnt.toNat then
    { s with dec := { s.dec with cand := lutLookup s, candv := true }, estate := .dB }
  else { s with dec := { s.dec with candv := false }, estate := .dB }

/-- Take one input byte into the accumulator (R162). -/
def takeByte (s : State) : State :=
  { s with dec := { s.dec with
      bits := s.dec.bits ||| ((memRead s (inputAddr s)).setWidth 32 <<< s.dec.bitcnt.toNat)
      bitcnt := s.dec.bitcnt + 8#6
      inPtr := s.dec.inPtr + 1#32 } }

/-- Step `D_B`: read one byte while fewer than 24 bits are there and input is left, else go on (R162). At an address the
platform does not admit there is no step (R68). -/
def stepDB (s : State) : Host.Outcome State Fault Refusal :=
  if wantsByte s then
    if admits s (inputAddr s) then .next (takeByte s) else .fault .engineStuck
  else .next { s with estate := .dC }

/-- Step `D_C`: the candidate, or a lookup now (R163). -/
def stepDC (s : State) : State :=
  { s with dec := { s.dec with node := if s.dec.candv then s.dec.cand else lutLookup s }, estate := .dD }

/-- Consume `n` bits of the accumulator. -/
def dropBits (d : DecoderRegs) (n : Nat) : DecoderRegs :=
  { d with bits := d.bits >>> n, bitcnt := d.bitcnt - BitVec.ofNat 6 n }

/-- Step `D_D`: no such node, a leaf to consume, or an internal node whose ten LUT bits are consumed (R164 to R166). -/
def stepDD (s : State) : State :=
  match nodeAt s.tab.node s.dec.node with
  | none => raise s .invalidCode
  | some (.leaf _ _ len) =>
    if s.dec.bitcnt.toNat < len.toNat then raise s .truncated
    else { s with dec := dropBits s.dec len.toNat, estate := .dEmit }
  | some (.internal _ _) =>
    if s.dec.bitcnt.toNat < 10 then raise s .truncated
    else { s with dec := dropBits s.dec 10, estate := .dWalk }

/-- The child that the walk takes: slot `BITS[0]` of NODE (R167). -/
def walkChild (s : State) : NodeIx := childAt s.tab.node s.dec.node (s.dec.bits.getLsbD 0)

/-- One bit of the walk taken: NODE goes to the child and a bit is consumed (R167). -/
def walkTake (s : State) : State :=
  { s with dec := { dropBits s.dec 1 with node := walkChild s } }

/-- Step `D_WALK`: one bit of the descent (R167). When a check fires after the registers were written, they stay
written. -/
def stepDWalk (s : State) : State :=
  if s.dec.bitcnt = 0#6 then raise s .truncated
  else if 512 < (walkChild s).toNat then raise s .invalidCode
  else if isLeafAt s.tab.node (walkChild s) then { walkTake s with estate := .dEmit }
  else if (walkTake s).dec.bitcnt = 0#6 then raise (walkTake s) .truncated
  else walkTake s

/-- Whether the output step gets as far as writing a byte: NODE is not EOS and there is room (R168, R169). -/
def wantsEmit (s : State) : Bool := s.dec.node != eosIx && s.dec.outPtr != s.dec.lOutCap

/-- Write one output byte and go on with the loop (R170). -/
def putByte (s : State) (b : Byte) : State :=
  { memWrite s (outputAddr s) b with dec := { s.dec with outPtr := s.dec.outPtr + 1#32 }, estate := .dA }

/-- Step `D_EMIT`: end at EOS (R168), overflow (R169), or write a byte (R170). At an address the platform does not admit
there is no step (R68). -/
def stepDEmit (s : State) : Host.Outcome State Fault Refusal :=
  if s.dec.node = eosIx then .next (finish s .success s.dec.outPtr .none)
  else if s.dec.outPtr = s.dec.lOutCap then .next (raise s .outputOverflow)
  else match emitByte s with
    | none => .fault .emitNotLeaf
    | some b => if admits s (outputAddr s) then .next (putByte s b) else .fault .engineStuck

/-- The engine's step in each state; an idle engine has none to take (R22, R252). -/
def engineStep (s : State) : Host.Outcome State Fault Refusal :=
  match s.estate with
  | .idle => .next s
  | .tree => .next (stepTree s)
  | .lutb => .next (stepLutb s)
  | .dA => .next (stepDA s)
  | .dB => stepDB s
  | .dC => .next (stepDC s)
  | .dD => .next (stepDD s)
  | .dWalk => .next (stepDWalk s)
  | .dEmit => stepDEmit s

/-- Whether the engine is stuck: its next access is at an address the platform does not admit (R68). -/
def engineStuck (s : State) : Bool :=
  match s.estate with
  | .dB => wantsByte s && !admits s (inputAddr s)
  | .dEmit => wantsEmit s && (emitByte s).isSome && !admits s (outputAddr s)
  | _ => false

end Sys2Proof.Machine
end

