-- ==== Sys2Proof/Machine/Bus.lean ====
section
/-! DEFINITION. The host's side: register writes and reads, host memory accesses, WAIT, reset, and who moves next.
`spec/43_commands.md` R200 to R217; `spec/20_memory.md` R61, R71; `spec/30_encoding.md` R93, R94; `spec/00_scope.md`
R12; `spec/70_reset_and_hazards.md` R250. -/

namespace Sys2Proof.Machine

/-! ### Register writes and reads -/

/-- `CmdWrite(w)` (R202, R203). -/
def cmdWrite (w : Word) (s : State) : Host.Outcome State Fault Refusal :=
  match decodeCmd w with
  | .ok i => exec i s
  | .error _ => .next (illegalCmd s)

/-- A write of `w` to a word of the window (R200, R210). -/
def regWrite (r : Reg) (w : Word) (s : State) : Host.Outcome State Fault Refusal :=
  match r with
  | .cmd => cmdWrite w s
  | .status => .next s
  | .inBase => .next { s with inBase := w }
  | .inLen => .next { s with inLen := w }
  | .outBase => .next { s with outBase := w }
  | .outCap => .next { s with outCap := w }
  | .result => .next s
  | .freqW _ => .next s
  | .nodeW0 _ => .next s
  | .nodeW1 _ => .next s
  | .lutW _ => .next s
  | .reserved => .next s

/-- The value a read of a word of the window returns; a free value for the tables while READY = 0 (R201, R212 to
R214). -/
def regRead (s : State) : Reg → Word
  | .cmd => 0#32
  | .status => statusWord s
  | .inBase => s.inBase
  | .inLen => s.inLen
  | .outBase => s.outBase
  | .outCap => s.outCap
  | .result => s.result
  | .freqW i => s.freq[i]
  | .nodeW0 i => if s.ready then s.tab.node[i].word0 else Config.freeWord s.draws
  | .nodeW1 i => if s.ready then s.tab.node[i].word1 else Config.freeWord s.draws
  | .lutW v => if s.ready then lutWord s.tab.lut[v] else Config.freeWord s.draws
  | .reserved => 0#32

/-- Whether a word belongs to the NODE or LUT window. -/
def Reg.isTable : Reg → Bool
  | .nodeW0 _ => true
  | .nodeW1 _ => true
  | .lutW _ => true
  | _ => false

/-- Count the free value that a table read while READY = 0 has drawn, so that the next one draws afresh (I6). -/
def countDraw (r : Reg) (s : State) : State :=
  if r.isTable && !s.ready then { s with draws := s.draws + 1 } else s

/-- Note what the host did or saw. -/
def record (t : Transaction) (s : State) : State := { s with trace := t :: s.trace }

/-- Give a register access of width and offset its meaning, or refuse it (R61, R217). -/
def checkedAccess (width : BusWidth) (offset : Offset) (k : Host.Outcome State Fault Refusal) :
    Host.Outcome State Fault Refusal :=
  if width ≠ .w32 then .refused .busWidth
  else if wordAligned offset = false then .refused .busAlignment
  else k

/-- `WR` (R200, R93). -/
def busWrite (width : BusWidth) (offset : Offset) (w : Word) (s : State) : Host.Outcome State Fault Refusal :=
  checkedAccess width offset (regWrite (regOf offset) w (record (.write offset w) s))

/-- The state after a host read at an offset: the value read is noted, nothing else of the block changes (R201). -/
def readAt (offset : Offset) (s : State) : State :=
  record (.read offset (regRead s (regOf offset))) (countDraw (regOf offset) s)

/-- `RD` (R201, R93). -/
def busRead (width : BusWidth) (offset : Offset) (s : State) : Host.Outcome State Fault Refusal :=
  checkedAccess width offset (.next (readAt offset s))

/-- One read of a `WAIT`: while BUSY = 1 the host goes on waiting (R94). -/
def waitPoll (s : State) : State :=
  if busy s then { readAt 0x004#14 s with inputs := .wait :: s.inputs } else readAt 0x004#14 s

/-! ### Host memory accesses -/

/-- The host writes a byte of its memory; not of a running DECODE's buffers (R71). -/
def hostMemWrite (addr : Word) (v : Byte) (s : State) : Host.Outcome State Fault Refusal :=
  if s.estate.decoding && (inInput s addr || inOutput s addr) then .refused .bufferDuty
  else if admits s addr then .next (record (.memWrite addr v) (memWrite s addr v))
  else .fault .hostNoSuchAddress

/-- The host reads a byte of its memory; not of a running DECODE's output buffer (R71). -/
def hostMemRead (addr : Word) (s : State) : Host.Outcome State Fault Refusal :=
  if s.estate.decoding && inOutput s addr then .refused .bufferDuty
  else if admits s addr then .next (record (.memRead addr (memRead s addr)) s)
  else .fault .hostNoSuchAddress

/-! ### The host's step and the choice of the agent -/

/-- What one input does, `s` being the state with that input taken off the list. -/
def perform (i : Input) (s : State) : Host.Outcome State Fault Refusal :=
  match i with
  | .busWrite width offset w => busWrite width offset w s
  | .busRead width offset => busRead width offset s
  | .wait => .next (waitPoll s)
  | .memWrite addr v => hostMemWrite addr v s
  | .memRead addr => hostMemRead addr s
  | .reset => .next (record .reset (hwReset s))

/-- The outside world's next move; none left, nothing happens. -/
def hostStep (s : State) : Host.Outcome State Fault Refusal :=
  match s.inputs with
  | [] => .next s
  | i :: rest => perform i { s with inputs := rest }

/-- Who moves next. Alone, an agent with a step moves. When both have one, `turns` says who, and the engine moves once
`turns` is used up, so it is never starved (R12). A stuck engine has no step while the host still has one (R68). -/
def nextAgent (s : State) : Option Agent :=
  if s.inputs.isEmpty then (if busy s then some .engine else none)
  else if busy s && !engineStuck s then some (s.turns.headD .engine)
  else some .host

/-- One turn used. -/
def takeTurn (s : State) : State := { s with turns := s.turns.tail }

end Sys2Proof.Machine
end

