-- ==== Sys2Proof/Machine/Step.lean ====
section
/-! DEFINITION. One step of the whole machine, host and engine (`spec/00_scope.md` R12). -/

namespace Sys2Proof.Machine

/-- One step: of the host, of the engine, or none while the block waits for a CMD write (R12, R252). -/
def step (s : State) : Host.Outcome State Fault Refusal :=
  match nextAgent s with
  | none => .next s
  | some .engine => engineStep (takeTurn s)
  | some .host => hostStep (takeTurn s)

/-- `s` with a CMD write of the given word as the host's next move, and the next turn the host's. -/
def State.withFetchWord (s : State) (nbits w : Nat) : State :=
  { s with inputs := .busWrite .w32 0x000#14 (tableWord nbits w) :: s.inputs
           turns := .host :: s.turns }

end Sys2Proof.Machine
end

