-- ==== Sys2Proof/Machine/DecodeFunction.lean ====
section
/-! DEFINITION. The decode as one function of the input bytes and the capacity, and the wire format it reads.
`spec/42_decoder_fsm.md` R171, R176; `spec/30_encoding.md` R90, R91. No step of the machine uses this file: claims about
whole commands are stated with it. The encoder of the wire format is the spec's test aid, not hardware (R4, R90). -/

namespace Sys2Proof.Machine

/-! ### `Decode(in, cap)` (R171) -/

/-- How a decode ends: the count of bytes written, or an error class. -/
inductive StreamEnd where
  | success (count : Nat)
  | error (cls : ErrClass)
deriving DecidableEq, Repr

/-- The accumulator as exact numbers: the bits not yet consumed, how many they are, and the input bytes taken. -/
structure Acc where
  bits : Nat
  cnt : Nat
  ip : Nat
deriving DecidableEq, Repr

/-- The refill, at most `fuel` bytes; three always suffice (R162, R171). -/
def refillAcc (inp : List Byte) : Nat → Acc → Acc
  | 0, a => a
  | fuel + 1, a =>
    if a.cnt < 24 then
      match inp[a.ip]? with
      | some b => refillAcc inp fuel { bits := a.bits ||| b.toNat <<< a.cnt, cnt := a.cnt + 8, ip := a.ip + 1 }
      | none => a
    else a

/-- Consume `n` bits. -/
def Acc.drop (a : Acc) (n : Nat) : Acc := { a with bits := a.bits >>> n, cnt := a.cnt - n }

/-- The descent, recursion on the number of bits left (R167, R171). -/
def walkAcc (node : Vector Node 513) (ip : Nat) : Nat → NodeIx → Nat → Except ErrClass (NodeIx × Acc)
  | 0, _, _ => .error .truncated
  | cnt + 1, i, bits =>
    let c := childAt node i (bits.testBit 0)
    if 512 < c.toNat then .error .invalidCode
    else if isLeafAt node c then .ok (c, { bits := bits >>> 1, cnt := cnt, ip := ip })
    else walkAcc node ip cnt c (bits >>> 1)

/-- The leaf that the looked-up node leads to, and the accumulator after its code is consumed (R164 to R167). -/
def resolveAcc (node : Vector Node 513) (i : NodeIx) (a : Acc) : Except ErrClass (NodeIx × Acc) :=
  match nodeAt node i with
  | none => .error .invalidCode
  | some (.leaf _ _ len) => if a.cnt < len.toNat then .error .truncated else .ok (i, a.drop len.toNat)
  | some (.internal _ _) =>
    if a.cnt < 10 then .error .truncated
    else walkAcc node a.ip (a.cnt - 10) i (a.bits >>> 10)

/-- `Lut[bits[9:0]]`. -/
def lutOfBits (t : Tables) (bits : Nat) : NodeIx := lutAt t.lut (BitVec.ofNat 10 bits)

/-- One symbol: the lookup, before the refill when ten bits are there, and the resolution (R171). -/
def nextSymbol (t : Tables) (inp : List Byte) (a : Acc) : Except ErrClass (NodeIx × Acc) :=
  let r := refillAcc inp 3 a
  resolveAcc t.node (if 10 ≤ a.cnt then lutOfBits t a.bits else lutOfBits t r.bits) r

/-- The symbol of a leaf as a byte. -/
def symbolByte (node : Vector Node 513) (i : NodeIx) : Byte :=
  match nodeAt node i with
  | some (.leaf symbol _ _) => symbol.setWidth 8
  | _ => 0#8

/-- The loop of R171, at most `fuel` passes; `none` when they run out. -/
def decodeLoop (t : Tables) (inp : List Byte) (cap : Nat) : Nat → Acc → List Byte → Option (StreamEnd × List Byte)
  | 0, _, _ => none
  | fuel + 1, a, out =>
    match nextSymbol t inp a with
    | .error cls => some (.error cls, out)
    | .ok (i, a') =>
      if i = eosIx then some (.success out.length, out)
      else if out.length = cap then some (.error .outputOverflow, out)
      else decodeLoop t inp cap fuel a' (out ++ [symbolByte t.node i])

/-- `Decode(in, cap)` (R171); R173 bounds the passes. -/
def decodeFn (t : Tables) (inp : List Byte) (cap : Nat) : Option (StreamEnd × List Byte) :=
  decodeLoop t inp cap (8 * inp.length + 1) { bits := 0, cnt := 0, ip := 0 } []

/-! ### The wire format (R90) -/

/-- The tables INIT builds from a frequency table (R206). -/
def builtTables (f : FreqTable) : Tables := { node := treeBuild f, lut := lutBuild (treeBuild f) }

/-- The bits of a leaf's code, first branch first (R10, R91). -/
def codeBits (node : Vector Node 513) (i : NodeIx) : List Bool :=
  match nodeAt node i with
  | some (.leaf _ code len) => bitsOf len.toNat code.toNat
  | _ => []

/-- The codes of a stream's symbols one after another, EOS last (R90). -/
def streamBits (node : Vector Node 513) (symbols : List Byte) : List Bool :=
  symbols.flatMap (fun b => codeBits node (b.setWidth 10)) ++ codeBits node eosIx

/-- The number whose bit `k` is the `k`-th of the list. -/
def bitsToNat : List Bool → Nat
  | [] => 0
  | b :: bs => b.toNat + 2 * bitsToNat bs

/-- `byte[b] = S[8b+7 : 8b]`, as many bytes as hold the bits, padded with zeros (R90, R176). -/
def packBytes (bits : List Bool) : List Byte :=
  (List.range ((bits.length + 7) / 8)).map fun k => BitVec.ofNat 8 (bitsToNat bits >>> (8 * k))

end Sys2Proof.Machine
end

