-- ==== Sys2Proof/Machine/HostProgram.lean ====
section
/-! DEFINITION. Host programs as lists of inputs: the notation and the pseudo-operations. `spec/30_encoding.md` R93,
R94; `spec/70_reset_and_hazards.md` R253. -/

namespace Sys2Proof.Machine

/-- `WR <reg>, <value>`. -/
def wr (offset : Offset) (w : Word) : Input := .busWrite .w32 offset w

/-- `RD <reg>`. -/
def rd (offset : Offset) : Input := .busRead .w32 offset

/-- The pseudo-operations `NOP`, `INIT` and `DECODE`: a CMD write of the command's word (R94). -/
def cmd (i : Instr) : List Input := [wr 0x000#14 (encode i)]

/-- `RUN_INIT` (R94, R253 steps 1 and 2). -/
def runInit : List Input := cmd .init ++ [.wait]

/-- `RUN_DECODE in, len, out, cap` (R94, R253 step 3). -/
def runDecode (inB len out cap : Word) : List Input :=
  [wr 0x008#14 inB, wr 0x00C#14 len, wr 0x010#14 out, wr 0x014#14 cap] ++ cmd .decode ++ [.wait, rd 0x018#14]

/-- `MEM <addr>: <b0> <b1> ...`: host memory set before the program starts (R93). -/
def withMem (s : State) (addr : Word) : List Byte → State
  | [] => s
  | b :: bs => withMem (memWrite s addr b) (addr + 1#32) bs

end Sys2Proof.Machine
end

