-- ==== Sys2Proof/WellFormed.lean ====
section
/-! DEFINITION. What is well formed: a command, an input, a frequency table. `spec/30_encoding.md` R81;
`spec/43_commands.md` R217; `spec/00_scope.md` R7. -/

namespace Sys2Proof

/-- Every command is well formed: none has an operand (R20, R82). -/
def Instr.wf : Instr → Bool
  | .nop => true
  | .init => true
  | .decode => true

/-- A register access is 32 bits wide at a multiple of 4 (R61, R217). Every other input is well formed. -/
def Input.wf : Input → Bool
  | .busWrite width offset _ => width == .w32 && Machine.wordAligned offset
  | .busRead width offset => width == .w32 && Machine.wordAligned offset
  | .wait => true
  | .memWrite _ _ => true
  | .memRead _ => true
  | .reset => true

/-- A table the block may be configured with (R7). -/
abbrev FreqWf (f : FreqTable) : Prop := Machine.freqOk f = true

end Sys2Proof
end

