-- ==== Sys2Proof/Safety.lean ====
section
/-! DEFINITION. What claims about runs are made of: the end of a run and what is observed of it, and the invariants of
the machine. `spec/70_reset_and_hazards.md` R262; `spec/10_state.md` R26, R39; `spec/40_tree_builder.md` R112;
`spec/41_decode_lut.md` R144. -/

namespace Sys2Proof.Machine

/-- A run is over: the host has nothing left to do and the engine is idle (R262). -/
abbrev State.over (s : State) : Prop := s.inputs = [] ∧ s.estate = .idle

/-- What is observed at the end of a run: STATUS, RESULT and host memory (R262). -/
structure Observation where
  status : Word
  result : Word
  mem : Memory
deriving DecidableEq, Repr

/-- The observation of a state (R262). -/
def observe (s : State) : Observation := { status := statusWord s, result := s.result, mem := s.mem }

/-- `n` steps from `s` end in `t`, none of them a fault or a refusal. -/
abbrev Runs (n : Nat) (s t : State) : Prop := Sys2Proof.core.run n s = .next t

/-- Host memory is in canonical form. -/
abbrev MemInv (s : State) : Prop := Memory.wf s.mem = true

/-- The decoder's registers while a DECODE runs (R39). -/
abbrev DecoderInv (s : State) : Prop :=
  s.estate.decoding = true →
    s.dec.bitcnt.toNat ≤ 31 ∧ s.dec.bits.toNat < 2 ^ s.dec.bitcnt.toNat
      ∧ s.dec.inPtr.toNat ≤ s.dec.lInLen.toNat ∧ s.dec.outPtr.toNat ≤ s.dec.lOutCap.toNat

/-- READY = 1 and the phase after the tree builder vouch for the tables; a DECODE runs only when they are there (R26,
R113, R207). -/
abbrev CodecInv (s : State) : Prop :=
  (s.ready = true → s.tab = builtTables s.freq)
    ∧ (s.estate = .lutb → s.tab.node = treeBuild s.freq)
    ∧ (s.estate = .tree ∨ s.estate = .lutb → s.ready = false)
    ∧ (s.estate.decoding = true → s.ready = true)

/-- An index is the index of an internal node. -/
def isInternalAt (node : Vector Node 513) (i : NodeIx) : Bool :=
  match nodeAt node i with
  | some (.internal _ _) => true
  | _ => false

/-- The node the decoder holds is one that its state needs: a candidate and a looked-up node exist, the walk stands on an
internal node, and the output step on a leaf (R144, R164, R167). -/
abbrev NodeInv (s : State) : Prop :=
  (s.estate = .dB ∨ s.estate = .dC → s.dec.candv = true → s.dec.cand.toNat ≤ 512)
    ∧ (s.estate = .dD → s.dec.node.toNat ≤ 512)
    ∧ (s.estate = .dWalk → isInternalAt s.tab.node s.dec.node = true)
    ∧ (s.estate = .dEmit → isLeafAt s.tab.node s.dec.node = true)

/-- No address of the running DECODE's regions is missing, and the regions share no byte (R68, R72). -/
abbrev BuffersGood (s : State) : Prop :=
  (∀ a, inInput s a = true ∨ inOutput s a = true → admits s a = true)
    ∧ (∀ a, ¬(inInput s a = true ∧ inOutput s a = true))

/-- The candidate, where there is one, was looked up with ten bits there, and is what a lookup after the refill would
give (R161, R172). -/
abbrev CandInv (s : State) : Prop :=
  s.estate = .dB ∨ s.estate = .dC → s.dec.candv = true → 10 ≤ s.dec.bitcnt.toNat ∧ s.dec.cand = lutLookup s

/-- The DECODE has just been started: every decoder register is fresh (R160). -/
abbrev JustStarted (s : State) : Prop :=
  s.estate = .dA ∧ s.dec.bits = 0#32 ∧ s.dec.bitcnt = 0#6 ∧ s.dec.inPtr = 0#32 ∧ s.dec.outPtr = 0#32

/-- The host is to move and its next move is `i`, with `rest` to follow. -/
abbrev HostNext (s : State) (i : Input) (rest : List Input) : Prop :=
  nextAgent s = some .host ∧ s.inputs = i :: rest

/-- The state with that move taken off the list and a turn used: what the move acts on. -/
abbrev taken (s : State) (rest : List Input) : State := { takeTurn s with inputs := rest }

/-- The state with other parameter registers (R29). -/
def setParams (s : State) (inBase inLen outBase outCap : Word) : State :=
  { s with inBase := inBase, inLen := inLen, outBase := outBase, outCap := outCap }

/-- An outcome with its next state changed. -/
def mapNext (g : State → State) : Host.Outcome State Fault Refusal → Host.Outcome State Fault Refusal
  | .next t => .next (g t)
  | .fault f => .fault f
  | .refused r => .refused r

/-- The node reached from the root by taking one child a bit, not stopping at leaves (R91, R144). -/
def pathNode (node : Vector Node 513) (bits : List Bool) : NodeIx := bits.foldl (childAt node) rootIx

/-- The input bytes of the running DECODE (R171). -/
def inputBytes (s : State) : List Byte :=
  (List.range s.dec.lInLen.toNat).map fun k => memRead s (s.dec.lInBase + BitVec.ofNat 32 k)

end Sys2Proof.Machine
end

