-- ==== Sys2Proof/Certificates/Slice0/Obligations.lean ====
section
/-! DEFINITION. The statements for the provers. Each docstring names the rules of `spec/` it formalises, or says that it
rests on a choice of the model's. -/

open Sys2Proof Sys2Proof.Machine

/-! ### Commands and their encoding -/

/-- R81, R82: which word is which command, and what a word that is none does. -/
def Obligations.CmdWordsDecodeAsTheTableSays : Prop :=
  ∀ w : Word,
    (decodeCmd w = .ok .nop ↔ w = 0x00000000#32)
      ∧ (decodeCmd w = .ok .init ↔ w = 0x00000001#32)
      ∧ (decodeCmd w = .ok .decode ↔ w = 0x00000002#32)
      ∧ (decodeCmd w = .error .reservedOpcode ↔ w.extractLsb' 4 28 = 0#28 ∧ 3 ≤ (w.extractLsb' 0 4).toNat)
      ∧ (decodeCmd w = .error .reservedBits ↔ w.extractLsb' 4 28 ≠ 0#28)
      ∧ (∀ (e : DecodeReject) (s : State), decodeCmd w = .error e →
          (busy s = false → ∃ t, cmdWrite w s = .next t ∧ t.estate = .idle ∧ t.done = true ∧ t.err = true
              ∧ t.errClass = .illegalCmd)
            ∧ (busy s = true → cmdWrite w s = .next { s with rejected := true }))

/-- R81, R82: the encoder and the decoder agree both ways. -/
def Obligations.EncodeAndDecodeAgree : Prop :=
  ∀ i : Instr, i.wf = true →
    decodeCmd (encode i) = .ok i ∧ ∀ w : Word, decodeCmd w = .ok i → w = encode i

/-- R82: the three words of the opcode table, and two words that are none. -/
def Obligations.TableWordsDecode : Prop :=
  decodeTableWord 32 0x00000000 = some .nop ∧ decodeTableWord 32 0x00000001 = some .init
    ∧ decodeTableWord 32 0x00000002 = some .decode ∧ decodeTableWord 32 0x00000003 = none
    ∧ decodeTableWord 32 0x00000011 = none

/-- R200, R203: when the host's next move is a CMD write of a word that decodes to `i`, the step is `exec i`, on the state
with the move taken off the list, a turn used and the transaction noted; and the step after `withFetchWord` is `exec i`
on the state itself with the transaction noted. -/
def Obligations.StepRunsTheDecodedCommand : Prop :=
  (∀ (s : State) (w : Word) (rest : List Input) (i : Instr),
      HostNext s (.busWrite .w32 0x000#14 w) rest → decodeCmd w = .ok i →
        step s = exec i (record (.write 0x000#14 w) (taken s rest)))
    ∧ (∀ (s : State) (nbits w : Nat) (i : Instr), decodeTableWord nbits w = some i →
        step (s.withFetchWord nbits w) = exec i (record (.write 0x000#14 (tableWord nbits w)) s))

/-- R204: NOP has no effect, in any state; and 0 is the only CMD word that never sets REJECTED. -/
def Obligations.NopHasNoEffect : Prop :=
  ∀ s : State, exec .nop s = .next s ∧ cmdWrite 0x00000000#32 s = .next s
    ∧ ∀ w : Word, w ≠ 0x00000000#32 → busy s = true → ∃ t, cmdWrite w s = .next t ∧ t.rejected = true

/-- R205: INIT is accepted in every idle state, with READY 0 and PHASE 1 after it, and nothing else changed. -/
def Obligations.InitIsAcceptedWhenIdle : Prop :=
  ∀ s : State, busy s = false →
    exec .init s = .next { s with ready := false, estate := .tree, done := false, err := false, errClass := .none
                                  rejected := false }
      ∧ statusWord { s with ready := false, estate := .tree, done := false, err := false, errClass := .none
                            rejected := false } = 0x00000101#32

/-- R206, R113, R145: INIT is two engine steps, TREE then LUTB, and leaves STATUS 0x00000006, RESULT 0 and both tables
built from the ROM. -/
def Obligations.InitBuildsBothTables : Prop :=
  ∀ s : State, busy s = false → s.inputs = [] →
    ∃ a b c, exec .init s = .next a ∧ step a = .next b ∧ step b = .next c
      ∧ statusWord a = 0x00000101#32
      ∧ b.estate = .lutb ∧ b.tab.node = treeBuild s.freq ∧ statusWord b = 0x00000201#32
      ∧ c.estate = .idle ∧ statusWord c = 0x00000006#32 ∧ c.result = 0#32
      ∧ c.tab = { node := treeBuild s.freq, lut := lutBuild (treeBuild s.freq) }
      ∧ c.mem = s.mem ∧ c.rom = s.rom

/-- R202: while busy, NOP has no effect and every other CMD word is dropped with REJECTED = 1 and nothing else. -/
def Obligations.CommandWhileBusyIsDropped : Prop :=
  ∀ (s : State) (w : Word), busy s = true →
    cmdWrite w s = .next (if w = 0x00000000#32 then s else { s with rejected := true })

/-- R203: a CMD write while idle, case by case. -/
def Obligations.CommandWhileIdle : Prop :=
  ∀ (s : State) (w : Word), busy s = false →
    (w = 0x00000000#32 → cmdWrite w s = .next s)
      ∧ (w = 0x00000001#32 → cmdWrite w s =
          .next { s with done := false, err := false, errClass := .none, rejected := false, ready := false
                         estate := .tree })
      ∧ (w = 0x00000002#32 → cmdWrite w s = exec .decode { s with done := false, err := false, errClass := .none
                                                                  rejected := false })
      ∧ (w ≠ 0x00000000#32 → w ≠ 0x00000001#32 → w ≠ 0x00000002#32 →
          cmdWrite w s = .next (finish { s with done := false, err := false, errClass := .none, rejected := false }
            .fail 0xFFFFFFFF#32 .illegalCmd))

/-- R236: DECODE with READY = 0 fails at once with NOT_READY; no host memory is read or written. That this holds whatever
the parameters are, regions that share a byte included, is the model's reading of R72 beside R236 (assumption 5). -/
def Obligations.DecodeBeforeInitFailsNotReady : Prop :=
  ∀ s : State, busy s = false → s.ready = false →
    exec .decode s = .next { s with estate := .idle, done := true, err := true, errClass := .notReady
                                    rejected := false, result := 0xFFFFFFFF#32 }

/-- R160, R207: DECODE with READY = 1 starts in every idle state whose regions share no byte, with fresh decoder registers
and the parameters latched. -/
def Obligations.DecodeStartsWhenReady : Prop :=
  ∀ s : State, busy s = false → s.ready = true → buffersOverlap s = false →
    ∃ t, exec .decode s = .next t ∧ t.estate = .dA ∧ statusWord t = 0x00000303#32
      ∧ t.dec = { s.dec with lInBase := s.inBase, lInLen := s.inLen, lOutBase := s.outBase, lOutCap := s.outCap
                             bits := 0#32, bitcnt := 0#6, inPtr := 0#32, outPtr := 0#32, candv := false }
      ∧ t.result = s.result ∧ t.mem = s.mem ∧ t.tab = s.tab

/-- R72: a DECODE that would start is refused exactly when some byte lies in both regions, modulo 2^32; a region of
length 0 overlaps nothing. That a DECODE before INIT is not refused for its regions is the model's reading
(assumption 5). -/
def Obligations.DecodeRefusedIffRegionsShareAByte : Prop :=
  ∀ s : State, busy s = false → s.ready = true →
    (exec .decode s = .refused .bufferOverlap ↔
      ∃ j k : Nat, j < s.inLen.toNat ∧ k < s.outCap.toNat
        ∧ s.inBase + BitVec.ofNat 32 j = s.outBase + BitVec.ofNat 32 k)

/-- R209, R237: a CMD word other than 0, 1 and 2, while idle and while busy. -/
def Obligations.IllegalCommandWord : Prop :=
  ∀ (s : State) (w : Word), w ≠ 0x00000000#32 → w ≠ 0x00000001#32 → w ≠ 0x00000002#32 →
    (busy s = false → cmdWrite w s = .next { s with estate := .idle, done := true, err := true
                                                    errClass := .illegalCmd, rejected := false
                                                    result := 0xFFFFFFFF#32 })
      ∧ (busy s = true → cmdWrite w s = .next { s with rejected := true })

/-- The frame of the three commands: what a command never changes when it answers a next state (R203 to R207). -/
def Obligations.CommandFrame : Prop :=
  ∀ (i : Instr) (s t : State), exec i s = .next t →
    (∀ a, memRead t a = memRead s a) ∧ t.mem = s.mem
      ∧ t.inBase = s.inBase ∧ t.inLen = s.inLen ∧ t.outBase = s.outBase ∧ t.outCap = s.outCap
      ∧ t.rom = s.rom ∧ t.tab = s.tab ∧ t.bld = s.bld ∧ t.regions = s.regions
      ∧ t.inputs = s.inputs ∧ t.trace = s.trace ∧ t.turns = s.turns ∧ t.draws = s.draws
      ∧ (i = .nop → t = s)
      ∧ (busy s = true → i ≠ .nop → t = { s with rejected := true })
      ∧ (i = .init → t.dec = s.dec ∧ t.result = s.result)
      ∧ (i = .decode → t.ready = s.ready ∧ (t.estate ≠ .dA → t.dec = s.dec)
          ∧ (t.estate = .dA → t.dec.node = s.dec.node ∧ t.dec.cand = s.dec.cand ∧ t.result = s.result))

/-! ### The engine, step by step -/

/-- R161: the pre-refill lookup. -/
def Obligations.PreRefillLookup : Prop :=
  ∀ s : State, s.estate = .dA →
    engineStep s = .next { s with estate := .dB, dec :=
      if 10 ≤ s.dec.bitcnt.toNat then
        { s.dec with cand := s.tab.lut[(s.dec.bits.extractLsb' 0 10).toNat], candv := true }
      else { s.dec with candv := false } }

/-- R162, R62: the refill, one byte a step, and its end. -/
def Obligations.RefillTakesOneByteAStep : Prop :=
  ∀ s : State, s.estate = .dB →
    (s.dec.bitcnt.toNat < 24 → s.dec.inPtr.toNat < s.dec.lInLen.toNat →
      admits s (s.dec.lInBase + s.dec.inPtr) = true →
        engineStep s = .next { s with dec := { s.dec with
          bits := s.dec.bits ||| ((memRead s (s.dec.lInBase + s.dec.inPtr)).setWidth 32 <<< s.dec.bitcnt.toNat)
          bitcnt := s.dec.bitcnt + 8#6
          inPtr := s.dec.inPtr + 1#32 } })
      ∧ (¬(s.dec.bitcnt.toNat < 24 ∧ s.dec.inPtr.toNat < s.dec.lInLen.toNat) →
        engineStep s = .next { s with estate := .dC })

/-- R163: the late lookup. -/
def Obligations.LateLookup : Prop :=
  ∀ s : State, s.estate = .dC →
    engineStep s = .next { s with estate := .dD, dec := { s.dec with
      node := if s.dec.candv then s.dec.cand else s.tab.lut[(s.dec.bits.extractLsb' 0 10).toNat] } }

/-- R164, R165, R166: an index that is no node, a leaf, an internal node. -/
def Obligations.ResolveTheLookedUpNode : Prop :=
  ∀ s : State, s.estate = .dD →
    (512 < s.dec.node.toNat → engineStep s = .next (raise s .invalidCode))
      ∧ (∀ y c (len : BitVec 5), nodeAt s.tab.node s.dec.node = some (.leaf y c len) →
          (s.dec.bitcnt.toNat < len.toNat → engineStep s = .next (raise s .truncated))
            ∧ (len.toNat ≤ s.dec.bitcnt.toNat →
                ∃ t, engineStep s = .next t ∧ t.estate = .dEmit
                  ∧ t.dec = { s.dec with bits := t.dec.bits, bitcnt := t.dec.bitcnt }
                  ∧ t.dec.bits.toNat = s.dec.bits.toNat / 2 ^ len.toNat
                  ∧ t.dec.bitcnt.toNat = s.dec.bitcnt.toNat - len.toNat))
      ∧ (∀ c0 c1, nodeAt s.tab.node s.dec.node = some (.internal c0 c1) →
          (s.dec.bitcnt.toNat < 10 → engineStep s = .next (raise s .truncated))
            ∧ (10 ≤ s.dec.bitcnt.toNat →
                ∃ t, engineStep s = .next t ∧ t.estate = .dWalk
                  ∧ t.dec = { s.dec with bits := t.dec.bits, bitcnt := t.dec.bitcnt }
                  ∧ t.dec.bits.toNat = s.dec.bits.toNat / 2 ^ 10
                  ∧ t.dec.bitcnt.toNat = s.dec.bitcnt.toNat - 10))

/-- R167: the bit-by-bit descent, on an internal node (the only kind D_WALK is entered with). -/
def Obligations.WalkTakesOneBitAStep : Prop :=
  ∀ (s : State) (c0 c1 : NodeIx), s.estate = .dWalk → nodeAt s.tab.node s.dec.node = some (.internal c0 c1) →
    (s.dec.bitcnt.toNat = 0 → engineStep s = .next (raise s .truncated))
      ∧ (s.dec.bitcnt.toNat ≠ 0 → ∀ c, c = (if s.dec.bits.getLsbD 0 then c1 else c0) →
          (512 < c.toNat → engineStep s = .next (raise s .invalidCode))
            ∧ (c.toNat ≤ 512 → ∃ t, engineStep s = .next t
                ∧ t.dec = { s.dec with node := c, bits := t.dec.bits, bitcnt := t.dec.bitcnt }
                ∧ t.dec.bits.toNat = s.dec.bits.toNat / 2 ∧ t.dec.bitcnt.toNat = s.dec.bitcnt.toNat - 1
                ∧ (isLeafAt s.tab.node c = true → t.estate = .dEmit)
                ∧ (isLeafAt s.tab.node c = false → 1 < s.dec.bitcnt.toNat → t.estate = .dWalk)
                ∧ (isLeafAt s.tab.node c = false → s.dec.bitcnt.toNat = 1 →
                    t.estate = .idle ∧ t.done = true ∧ t.err = true ∧ t.errClass = .truncated
                      ∧ t.result = 0xFFFFFFFF#32)))

/-- R168, R169, R170, R63: EOS before the capacity test, the overflow before any write, and the output byte. -/
def Obligations.EmitEndsOverflowsOrWrites : Prop :=
  ∀ s : State, s.estate = .dEmit →
    (s.dec.node = 256#10 → engineStep s = .next (finish s .success s.dec.outPtr .none))
      ∧ (s.dec.node ≠ 256#10 → s.dec.outPtr = s.dec.lOutCap → engineStep s = .next (raise s .outputOverflow))
      ∧ (∀ y c l, s.dec.node ≠ 256#10 → s.dec.outPtr ≠ s.dec.lOutCap →
          nodeAt s.tab.node s.dec.node = some (.leaf y c l) → MemInv s →
          admits s (s.dec.lOutBase + s.dec.outPtr) = true →
            ∃ t, engineStep s = .next t ∧ t.estate = .dA ∧ t.dec = { s.dec with outPtr := s.dec.outPtr + 1#32 }
              ∧ memRead t (s.dec.lOutBase + s.dec.outPtr) = y.setWidth 8
              ∧ ∀ a, a ≠ s.dec.lOutBase + s.dec.outPtr → memRead t a = memRead s a)

/-- R234: what `finish` writes, that it writes nothing else, and that no engine step follows it. -/
def Obligations.FinishWritesStatusAndResult : Prop :=
  ∀ (s : State) (k : EndKind) (r : Word) (c : ErrClass),
    finish s k r c = { s with estate := .idle, done := true, err := decide (k = .fail), errClass := c, result := r }
      ∧ busy (finish s k r c) = false ∧ (statusWord (finish s k r c)).extractLsb' 8 2 = 0#2
      ∧ engineStep (finish s k r c) = .next (finish s k r c)

/-- The frame of the engine (R113, R145, R160 to R170, R234): what its steps never change, and what changes only in the
states whose rule names it. -/
def Obligations.EngineFrame : Prop :=
  ∀ s t : State, engineStep s = .next t →
    t.inBase = s.inBase ∧ t.inLen = s.inLen ∧ t.outBase = s.outBase ∧ t.outCap = s.outCap
      ∧ t.rom = s.rom ∧ t.regions = s.regions ∧ t.inputs = s.inputs ∧ t.trace = s.trace ∧ t.turns = s.turns
      ∧ t.draws = s.draws ∧ t.rejected = s.rejected
      ∧ (s.estate ≠ .lutb → t.ready = s.ready ∧ t.tab.lut = s.tab.lut)
      ∧ (s.estate ≠ .tree → t.tab.node = s.tab.node)
      ∧ (s.estate ≠ .tree → s.estate ≠ .lutb → t.bld = s.bld)
      ∧ (s.estate.decoding = false → t.dec = s.dec)
      ∧ (t.estate ≠ .idle → t.done = s.done ∧ t.err = s.err ∧ t.errClass = s.errClass ∧ t.result = s.result)
      ∧ (s.estate ≠ .dEmit → t.mem = s.mem)
      ∧ (s.estate = .dEmit → ∀ a, a ≠ outputAddr s → memRead t a = memRead s a)
      ∧ (s.estate = .dEmit → t.estate = .idle → t.mem = s.mem)

/-- R68: at an address the platform does not admit the engine has no step; whatever the host does short of a reset leaves
the engine in its state, with BUSY = 1. That such a run stops by a named fault once the host has nothing left to do is
the model's form of the stuck state (assumption 6). -/
def Obligations.UnadmittedAddressSticksTheEngine : Prop :=
  ∀ s : State,
    (s.estate = .dB ∧ wantsByte s = true ∧ admits s (inputAddr s) = false)
      ∨ (s.estate = .dEmit ∧ s.dec.node ≠ eosIx ∧ s.dec.outPtr ≠ s.dec.lOutCap ∧ (emitByte s).isSome = true
          ∧ admits s (outputAddr s) = false) →
    engineStep s = .fault .engineStuck ∧ busy s = true
      ∧ (s.inputs = [] → step s = .fault .engineStuck)
      ∧ (∀ t, step s = .next t → s.inputs.head? ≠ some .reset →
          t.estate = s.estate ∧ t.dec = s.dec ∧ busy t = true ∧ t.result = s.result)

/-! ### Words and windows -/

/-- R83, R24, R22: the STATUS word, field by field. -/
def Obligations.StatusWordLayout : Prop :=
  ∀ s : State,
    (statusWord s).getLsbD 0 = decide (s.estate ≠ .idle)
      ∧ (statusWord s).getLsbD 1 = s.ready ∧ (statusWord s).getLsbD 2 = s.done ∧ (statusWord s).getLsbD 3 = s.err
      ∧ ((statusWord s).extractLsb' 4 3).toNat =
          (match s.errClass with
            | .none => 0 | .truncated => 1 | .invalidCode => 2 | .outputOverflow => 3 | .notReady => 4
            | .illegalCmd => 5)
      ∧ (statusWord s).getLsbD 7 = s.rejected
      ∧ ((statusWord s).extractLsb' 8 2).toNat =
          (match s.estate with
            | .idle => 0 | .tree => 1 | .lutb => 2 | .dA => 3 | .dB => 3 | .dC => 3 | .dD => 3 | .dWalk => 3
            | .dEmit => 3)
      ∧ (statusWord s).extractLsb' 10 22 = 0#22

/-- R84, R85, R86: the words of the NODE and LUT windows, field by field. -/
def Obligations.NodeAndLutWordLayout : Prop :=
  (∀ (y : BitVec 9) (c : BitVec 24) (l : BitVec 5),
      (Node.leaf y c l).word0.extractLsb' 0 10 = 0x3FF#10 ∧ (Node.leaf y c l).word0.extractLsb' 10 10 = 0x3FF#10
        ∧ (Node.leaf y c l).word0.extractLsb' 20 9 = y ∧ (Node.leaf y c l).word0.extractLsb' 29 2 = 0#2
        ∧ (Node.leaf y c l).word0.getLsbD 31 = true
        ∧ (Node.leaf y c l).word1.extractLsb' 0 24 = c ∧ (Node.leaf y c l).word1.extractLsb' 24 5 = l
        ∧ (Node.leaf y c l).word1.extractLsb' 29 3 = 0#3)
    ∧ (∀ c0 c1 : NodeIx,
        (Node.internal c0 c1).word0.extractLsb' 0 10 = c0 ∧ (Node.internal c0 c1).word0.extractLsb' 10 10 = c1
          ∧ (Node.internal c0 c1).word0.extractLsb' 20 12 = 0#12 ∧ (Node.internal c0 c1).word1 = 0#32)
    ∧ (∀ i : NodeIx, (lutWord i).extractLsb' 0 10 = i ∧ (lutWord i).extractLsb' 10 22 = 0#22)

/-- R212, R213, R214: reads of the three windows. A table read while READY = 0 returns a free value and counts the draw,
so that the next one is a fresh one; that the unspecified value is `Config.freeWord` of that count is the model's form
(assumption 8). -/
def Obligations.WindowReads : Prop :=
  (∀ (s : State) (i : Nat) (h : i < 257), ∃ t, busRead .w32 (BitVec.ofNat 14 (0x400 + 4 * i)) s = .next t
      ∧ t.trace = .read (BitVec.ofNat 14 (0x400 + 4 * i)) s.freq[i] :: s.trace ∧ t.draws = s.draws)
    ∧ (∀ (s : State) (i : Nat) (h : i < 513), s.ready = true →
        (∃ t, busRead .w32 (BitVec.ofNat 14 (0x1000 + 8 * i)) s = .next t
          ∧ t.trace = .read (BitVec.ofNat 14 (0x1000 + 8 * i)) s.tab.node[i].word0 :: s.trace)
        ∧ (∃ t, busRead .w32 (BitVec.ofNat 14 (0x1004 + 8 * i)) s = .next t
          ∧ t.trace = .read (BitVec.ofNat 14 (0x1004 + 8 * i)) s.tab.node[i].word1 :: s.trace))
    ∧ (∀ (s : State) (v : Nat) (h : v < 1024), s.ready = true →
        ∃ t, busRead .w32 (BitVec.ofNat 14 (0x3000 + 4 * v)) s = .next t
          ∧ t.trace = .read (BitVec.ofNat 14 (0x3000 + 4 * v)) (s.tab.lut[v].setWidth 32) :: s.trace)
    ∧ (∀ (s : State) (a : Nat), s.ready = false →
        (∃ i < 513, a = 0x1000 + 8 * i ∨ a = 0x1004 + 8 * i) ∨ (∃ v < 1024, a = 0x3000 + 4 * v) →
        ∃ t, busRead .w32 (BitVec.ofNat 14 a) s = .next t
          ∧ t.trace = .read (BitVec.ofNat 14 a) (Config.freeWord s.draws) :: s.trace ∧ t.draws = s.draws + 1)

/-- R201, R89: reads of the registers and of the reserved offsets, and that no read has a side effect on the block. -/
def Obligations.RegisterReads : Prop :=
  ∀ s : State,
    regRead s (regOf 0x000#14) = 0#32 ∧ regRead s (regOf 0x004#14) = statusWord s
      ∧ regRead s (regOf 0x008#14) = s.inBase ∧ regRead s (regOf 0x00C#14) = s.inLen
      ∧ regRead s (regOf 0x010#14) = s.outBase ∧ regRead s (regOf 0x014#14) = s.outCap
      ∧ regRead s (regOf 0x018#14) = s.result
      ∧ (∀ a : Offset, wordAligned a = true →
          (0x01C ≤ a.toNat ∧ a.toNat ≤ 0x3FC) ∨ (0x804 ≤ a.toNat ∧ a.toNat ≤ 0xFFC)
            ∨ (0x2008 ≤ a.toNat ∧ a.toNat ≤ 0x2FFC) → regRead s (regOf a) = 0#32)
      ∧ (∀ a : Offset, wordAligned a = true → ∃ t, busRead .w32 a s = .next t
          ∧ t = { s with draws := t.draws, trace := .read a (regRead s (regOf a)) :: s.trace })

/-- R200, R210, R89: writes of the parameter registers, and that a write at every other aligned offset but CMD's changes
nothing of the block. -/
def Obligations.RegisterWrites : Prop :=
  ∀ (s : State) (w : Word),
    busWrite .w32 0x008#14 w s = .next { s with inBase := w, trace := .write 0x008#14 w :: s.trace }
      ∧ busWrite .w32 0x00C#14 w s = .next { s with inLen := w, trace := .write 0x00C#14 w :: s.trace }
      ∧ busWrite .w32 0x010#14 w s = .next { s with outBase := w, trace := .write 0x010#14 w :: s.trace }
      ∧ busWrite .w32 0x014#14 w s = .next { s with outCap := w, trace := .write 0x014#14 w :: s.trace }
      ∧ busWrite .w32 0x000#14 w s = cmdWrite w { s with trace := .write 0x000#14 w :: s.trace }
      ∧ (∀ a : Offset, wordAligned a = true → a.toNat = 0x004 ∨ 0x018 ≤ a.toNat →
          busWrite .w32 a w s = .next { s with trace := .write a w :: s.trace })

/-- R217, R61, R71, R72: the four kinds of access that are refused. The overlap is stated for a DECODE that would start:
that a DECODE which is dropped or not ready has no regions is the model's reading (assumption 5). -/
def Obligations.RefusedAccesses : Prop :=
  (∀ (s : State) (width : BusWidth) (a : Offset) (w : Word), width ≠ .w32 →
      busWrite width a w s = .refused .busWidth ∧ busRead width a s = .refused .busWidth)
    ∧ (∀ (s : State) (a : Offset) (w : Word), a.toNat % 4 ≠ 0 →
        busWrite .w32 a w s = .refused .busAlignment ∧ busRead .w32 a s = .refused .busAlignment)
    ∧ (∀ s : State, busy s = false → s.ready = true → buffersOverlap s = true →
        exec .decode s = .refused .bufferOverlap)
    ∧ (∀ (s : State) (a : Word) (v : Byte), busy s = true → (statusWord s).extractLsb' 8 2 = 3#2 →
        (inInput s a = true ∨ inOutput s a = true → hostMemWrite a v s = .refused .bufferDuty)
          ∧ (inOutput s a = true → hostMemRead a s = .refused .bufferDuty))

/-- R12, R62, R63, R71: a host memory access outside a running DECODE's buffers, at an address that exists, is performed:
a read changes nothing but the host's record, a write that one byte. -/
def Obligations.HostMemoryAccess : Prop :=
  ∀ (s : State) (a : Word) (v : Byte), admits s a = true → MemInv s →
    (s.estate.decoding = false ∨ inOutput s a = false →
        hostMemRead a s = .next { s with trace := .memRead a (memRead s a) :: s.trace })
      ∧ (s.estate.decoding = false ∨ (inInput s a = false ∧ inOutput s a = false) →
          ∃ t, hostMemWrite a v s = .next t ∧ memRead t a = v ∧ (∀ b, b ≠ a → memRead t b = memRead s b)
            ∧ t = { s with mem := t.mem, trace := .memWrite a v :: s.trace })

/-! ### Reset, waiting, turns -/

/-- R250, R251: the reset event, from every state, in one step: the values of R40, the tables and working registers free,
the ROM, host memory and the platform kept, and no `finish`. That what is unspecified becomes an opaque value of the count
of draws, and that a reset is one of the outside world's inputs, between two steps, are the model's forms (assumptions 8,
11 and 18). -/
def Obligations.ResetEvent : Prop :=
  ∀ (s : State) (rest : List Input), HostNext s .reset rest →
    ∃ t, step s = .next t ∧ t.estate = .idle ∧ statusWord t = 0x00000000#32
      ∧ t.inBase = 0#32 ∧ t.inLen = 0#32 ∧ t.outBase = 0#32 ∧ t.outCap = 0#32 ∧ t.result = 0#32
      ∧ t.ready = false ∧ t.done = false ∧ t.tab = Config.freeTables s.draws
      ∧ t.bld = Config.freeBuilder s.draws ∧ t.dec = Config.freeDecoder s.draws
      ∧ t.mem = s.mem ∧ t.rom = s.rom ∧ t.regions = s.regions ∧ t.inputs = rest

/-- R252, R40: the state after reset has the values R40 gives, and it and every idle state with nothing asked of it waits:
a step changes nothing. -/
def Obligations.ResetStateWaits : Prop :=
  State.reset.estate = .idle ∧ statusWord State.reset = 0x00000000#32
    ∧ State.reset.inBase = 0#32 ∧ State.reset.inLen = 0#32 ∧ State.reset.outBase = 0#32 ∧ State.reset.outCap = 0#32
    ∧ State.reset.result = 0#32 ∧ step State.reset = .next State.reset
    ∧ ∀ s : State, s.estate = .idle → s.inputs = [] → step s = .next s

/-- R94: one read of a WAIT, which goes on while BUSY = 1 and is over when it reads BUSY = 0. -/
def Obligations.WaitPollsStatus : Prop :=
  ∀ (s : State) (rest : List Input), HostNext s .wait rest →
    ∃ t, step s = .next t ∧ t.trace = .read 0x004#14 (statusWord s) :: s.trace
      ∧ (busy s = true → t.inputs = .wait :: rest) ∧ (busy s = false → t.inputs = rest)
      ∧ t = { s with inputs := t.inputs, trace := t.trace, turns := s.turns.tail }

/-- R12: a step is the host's or the engine's, whole; and with the turns used up an engine that has a step takes it, so it
is never starved. The list of turns is the model's own (assumption 4). -/
def Obligations.EngineIsNeverStarved : Prop :=
  ∀ s : State, busy s = true → engineStuck s = false →
    (s.turns = [] → step s = engineStep s)
      ∧ (∀ turns, s.turns = .engine :: turns → step s = engineStep { s with turns := turns })
      ∧ (∀ turns i rest, s.turns = .host :: turns → s.inputs = i :: rest →
          step s = perform i { s with turns := turns, inputs := rest })

/-! ### Invariants of the whole machine -/

/-- The invariants hold after reset, and the ROM's table passes R7. That host memory lists nothing and that the hidden
registers are named 0 are the model's choices (assumptions 2 and 3). -/
def Obligations.InvariantsHoldAtReset : Prop :=
  MemInv State.reset ∧ DecoderInv State.reset ∧ CodecInv State.reset ∧ NodeInv State.reset ∧ CandInv State.reset
    ∧ FreqWf State.reset.freq

/-- Every step keeps host memory in canonical form (the form is the model's, assumption 2). -/
def Obligations.EveryStepKeepsMemoryCanonical : Prop :=
  ∀ s t : State, MemInv s → step s = .next t → MemInv t

/-- R39: every step keeps the bounds of the decoder's registers. -/
def Obligations.EveryStepKeepsDecoderBounds : Prop :=
  ∀ s t : State, DecoderInv s → step s = .next t → DecoderInv t

/-- R26: what sets and clears READY, and that while it is 1 the tables are the ones built from the ROM. -/
def Obligations.ReadyMeansTablesBuilt : Prop :=
  (∀ s t : State, CodecInv s → step s = .next t → CodecInv t)
    ∧ (∀ s t : State, step s = .next t →
        (s.ready = false → t.ready = true → s.estate = .lutb ∧ t.estate = .idle)
          ∧ (s.ready = true → t.ready = false →
              (s.estate = .idle ∧ t.estate = .tree) ∨ s.inputs.head? = some .reset))
    ∧ (∀ s t : State, busy s = false → exec .init s = .next t → t.ready = false)
    ∧ (∀ s t : State, s.estate = .lutb → engineStep s = .next t → t.ready = true)
    ∧ (∀ s : State, (hwReset s).ready = false)

/-- R144, R164, R167, R233: with tables that READY vouches for, the node the decoder holds is always one its state needs,
no step raises INVALID_CODE, and the output step always has a symbol. -/
def Obligations.InvalidCodeIsUnreachable : Prop :=
  ∀ s : State, CodecInv s → NodeInv s →
    (∀ t, step s = .next t → NodeInv t)
      ∧ (∀ t, engineStep s = .next t → t.errClass = .invalidCode → s.errClass = .invalidCode)
      ∧ engineStep s ≠ .fault .emitNotLeaf

/-- R172: the pre-refill candidate is always what a lookup after the refill would give, so the late lookup's node is that
of the accumulator. -/
def Obligations.CandidateEqualsLateLookup : Prop :=
  (∀ s t : State, CandInv s → step s = .next t → CandInv t)
    ∧ (∀ s : State, CandInv s → s.estate = .dC →
        ∃ t, engineStep s = .next t ∧ t.dec.node = s.tab.lut[(s.dec.bits.extractLsb' 0 10).toNat])

/-- R34: no step changes the frequency ROM (nor the platform's map), and in every state it passes the check of R7; that no
state holds another ROM is the model's form (assumption 1). -/
def Obligations.RomNeverChanges : Prop :=
  (∀ s : State, FreqWf s.freq)
    ∧ ∀ s t : State, step s = .next t → t.rom = s.rom ∧ t.regions = s.regions

/-- R35, decision D43: RESULT changes only in a step that ends a command, or at reset; a failure leaves 0xFFFFFFFF. -/
def Obligations.ResultChangesOnlyAtFinish : Prop :=
  ∀ s t : State, step s = .next t → t.result ≠ s.result →
    s.inputs.head? = some .reset
      ∨ (t.estate = .idle ∧ t.done = true ∧ (t.err = true → t.result = 0xFFFFFFFF#32)
          ∧ (t.err = false → s.estate = .lutb ∧ t.result = 0#32 ∨ s.estate = .dEmit ∧ t.result = s.dec.outPtr))

/-- R70: in a DECODE a byte of host memory changes only at the place of the next output byte, inside the output buffer,
and the write moves OUT_PTR on by one. -/
def Obligations.EngineWritesOnlyTheNextOutputByte : Prop :=
  ∀ (s t : State) (a : Word), DecoderInv s → engineStep s = .next t → memRead t a ≠ memRead s a →
    s.estate = .dEmit ∧ a = s.dec.lOutBase + s.dec.outPtr ∧ s.dec.outPtr.toNat < s.dec.lOutCap.toNat
      ∧ inOutput s a = true ∧ t.dec.outPtr.toNat = s.dec.outPtr.toNat + 1

/-- R257, R200: a running command never sees the parameter registers: the engine's step is the same with other values in
them, but for those values. -/
def Obligations.ParameterWritesDoNotReachARunningCommand : Prop :=
  ∀ (s : State) (a b c d : Word),
    engineStep (setParams s a b c d) = mapNext (fun t => setParams t a b c d) (engineStep s)

/-! ### The tree builder -/

/-- R103: the sort's result is in descending order, keeps the order of records of equal frequency, and is the only list
that does both. -/
def Obligations.SortIsTheStableDescendingOrder : Prop :=
  ∀ l : List Record,
    (sortDesc l).Pairwise (fun x y => y.freq.toNat ≤ x.freq.toNat)
      ∧ (∀ n : Nat, (sortDesc l).filter (fun r => r.freq.toNat == n) = l.filter (fun r => r.freq.toNat == n))
      ∧ ∀ l' : List Record, l'.Pairwise (fun x y => y.freq.toNat ≤ x.freq.toNat) →
          (∀ n : Nat, l'.filter (fun r => r.freq.toNat == n) = l.filter (fun r => r.freq.toNat == n)) →
          l' = sortDesc l

/-- R104: the source's bubble sort gives the same list. -/
def Obligations.BubbleSortEqualsStableSort : Prop :=
  ∀ l : List Record, bubbleSort l = sortDesc l

/-- R109, R106, R108: under R7 no sum wraps: every pass keeps the exact total weight, the list is one shorter and one node
longer, with as many records dropped as there were passes, and 256 passes leave one record, of node 512. -/
def Obligations.MergeSumsAreExact : Prop :=
  ∀ f : FreqTable, FreqWf f →
    (∀ n ≤ 256, ((mergeLoop n (initBuild f)).wl.map (fun r => r.freq.toNat)).sum = totalWeight f
      ∧ (mergeLoop n (initBuild f)).wl.length = 257 - n ∧ (mergeLoop n (initBuild f)).next = 257 + n
      ∧ (mergeLoop n (initBuild f)).nodes.length = 257 + n ∧ (mergeLoop n (initBuild f)).dropped.length = n)
    ∧ ∃ r, (mergeAll f).wl = [r] ∧ r.id = 512#10

/-- R31, R112: whatever the table, nodes 0..256 are leaves with their index as symbol, and nodes 257..512 are internal
with children below them. -/
def Obligations.TreeNodeKinds : Prop :=
  ∀ (f : FreqTable) (i : Nat) (h : i < 513),
    (i ≤ 256 → ∃ c l, (treeBuild f)[i] = .leaf (BitVec.ofNat 9 i) c l)
      ∧ (257 ≤ i → ∃ c0 c1, (treeBuild f)[i] = .internal c0 c1 ∧ c0.toNat < i ∧ c1.toNat < i)

/-- R32: the invariants of a completed build, while READY = 1. -/
def Obligations.CompletedBuildIsATree : Prop :=
  ∀ s : State, CodecInv s → s.ready = true →
    (∀ (i : Nat) (h : i < 513),
      match s.tab.node[i] with
      | .leaf _ _ len => 1 ≤ len.toNat
      | .internal c0 c1 => c0.toNat < i ∧ c1.toNat < i)
    ∧ ∀ j < 512, ∃! m : Fin 513, ∃ c0 c1, s.tab.node[m] = .internal c0 c1 ∧ (c0.toNat = j ∨ c1.toNat = j)

/-- R91, R110, R111: a leaf's code is its path from the root, bit `d` the slot taken at depth `d`, and its length the
depth; no node on the way is a leaf. -/
def Obligations.CodeIsThePathFromTheRoot : Prop :=
  ∀ f : FreqTable, FreqWf f → ∀ i : Nat, i ≤ 256 →
    ∃ (c : BitVec 24) (l : BitVec 5), nodeAt (treeBuild f) (BitVec.ofNat 10 i) = some (.leaf (BitVec.ofNat 9 i) c l)
      ∧ 1 ≤ l.toNat ∧ l.toNat ≤ maxLen f ∧ l.toNat ≤ 24 ∧ c.toNat < 2 ^ l.toNat
      ∧ pathNode (treeBuild f) (bitsOf l.toNat c.toNat) = BitVec.ofNat 10 i
      ∧ ∀ k < l.toNat, isLeafAt (treeBuild f) (pathNode (treeBuild f) ((bitsOf l.toNat c.toNat).take k)) = false

/-- R114: 257 leaves and 256 internal nodes; no code is a prefix of another; the lengths fill the code space; every
sequence of MAXLEN bits begins with exactly one code. -/
def Obligations.CodesArePrefixFreeAndComplete : Prop :=
  ∀ f : FreqTable, FreqWf f →
    (∀ i : NodeIx, i.toNat ≤ 512 → (isLeafAt (treeBuild f) i = true ↔ i.toNat ≤ 256))
      ∧ (∀ i j : NodeIx, i.toNat ≤ 256 → j.toNat ≤ 256 → i ≠ j →
          ¬ codeBits (treeBuild f) i <+: codeBits (treeBuild f) j)
      ∧ ((List.range 257).map fun i => 2 ^ (24 - (codeBits (treeBuild f) (BitVec.ofNat 10 i)).length)).sum = 2 ^ 24
      ∧ ∀ bits : List Bool, bits.length = maxLen f →
          ∃! i : NodeIx, i.toNat ≤ 256 ∧ codeBits (treeBuild f) i <+: bits

/-- R115: with the other weights below 2^30 together, symbol 0 is child 0 of the root with the code 0x0/1, and every other
code has bit 0 = 1. -/
def Obligations.SymbolZeroGetsTheOneBitCode : Prop :=
  ∀ f : FreqTable, FreqWf f → totalWeight f < 2 ^ 30 + 2 ^ 30 →
    (treeBuild f)[512] = .internal 0#10 511#10 ∧ (treeBuild f)[0] = .leaf 0#9 0#24 1#5
      ∧ ∀ (i : Nat) (h : i < 257), 1 ≤ i → ∃ y c l, (treeBuild f)[i] = .leaf y c l ∧ c.getLsbD 0 = true

/-- R100, R102, R116: the node array depends on `FREQ[0..255]` only. -/
def Obligations.TreeIgnoresTheEosEntry : Prop :=
  ∀ f g : FreqTable, (∀ (i : Nat) (h : i < 256), f[i] = g[i]) → treeBuild f = treeBuild g

/-! ### The lookup table -/

/-- R144: after INIT every LUT entry is a node, the one a walk over the same bits reaches that stops at the first leaf. -/
def Obligations.LutEntryIsTheWalk : Prop :=
  ∀ f : FreqTable, FreqWf f → ∀ (v : Nat) (h : v < 1024),
    (lutBuild (treeBuild f))[v].toNat ≤ 512
      ∧ ∃ k, 1 ≤ k ∧ k ≤ 10 ∧ (lutBuild (treeBuild f))[v] = pathNode (treeBuild f) ((bitsOf 10 v).take k)
          ∧ (∀ j < k, isLeafAt (treeBuild f) (pathNode (treeBuild f) ((bitsOf 10 v).take j)) = false)
          ∧ (isLeafAt (treeBuild f) (lutBuild (treeBuild f))[v] = true ∨ k = 10)

/-- R142, R143: leaf entries and internal entries. -/
def Obligations.LutResolvesShortCodes : Prop :=
  ∀ f : FreqTable, FreqWf f → ∀ (v : Nat) (h : v < 1024),
    (∀ (i : NodeIx) (y : BitVec 9) (c : BitVec 24) (l : BitVec 5), nodeAt (treeBuild f) i = some (.leaf y c l) →
        l.toNat ≤ 10 → codeBits (treeBuild f) i <+: bitsOf 10 v →
        (lutBuild (treeBuild f))[v] = i ∧ v % 2 ^ l.toNat = c.toNat)
      ∧ (isInternalAt (treeBuild f) (lutBuild (treeBuild f))[v] = true
            ∧ (lutBuild (treeBuild f))[v] = pathNode (treeBuild f) (bitsOf 10 v) ↔
          ¬∃ i : NodeIx, isLeafAt (treeBuild f) i = true ∧ (codeBits (treeBuild f) i).length ≤ 10
            ∧ codeBits (treeBuild f) i <+: bitsOf 10 v)
      ∧ (isInternalAt (treeBuild f) (lutBuild (treeBuild f))[v] = true ↔
          ∃ i : NodeIx, isLeafAt (treeBuild f) i = true ∧ 10 < (codeBits (treeBuild f) i).length
            ∧ bitsOf 10 v <+: codeBits (treeBuild f) i)
      ∧ (maxLen f ≤ 10 → isInternalAt (treeBuild f) (lutBuild (treeBuild f))[v] = false)

/-! ### Whole decodes -/

/-- R173: a DECODE that has just started and meets no address that is missing ends, after at most `8 * L_IN_LEN + 1`
passes, each of at most 22 steps: one, four in the refill, two, fourteen in the walk, one. -/
def Obligations.EveryDecodeEnds : Prop :=
  ∀ s : State, CodecInv s → JustStarted s → s.inputs = [] → BuffersGood s →
    ∃ n t, n ≤ 22 * (8 * s.dec.lInLen.toNat + 1) ∧ Runs n s t ∧ t.estate = .idle ∧ t.done = true

/-- R171, R175, R208: a DECODE that has just started, alone and with good buffers, ends as `Decode(in, cap)` does, with
exactly its bytes in the output buffer and every other byte of memory unchanged. -/
def Obligations.DecoderRunsAsTheDecodeFunction : Prop :=
  ∀ s : State, CodecInv s → MemInv s → JustStarted s → s.inputs = [] → BuffersGood s →
    ∃ (n : Nat) (t : State) (e : StreamEnd) (out : List Byte),
      decodeFn s.tab (inputBytes s) s.dec.lOutCap.toNat = some (e, out) ∧ Runs n s t
        ∧ t.estate = .idle ∧ t.done = true
        ∧ (match e with
            | .success k => t.err = false ∧ t.errClass = .none ∧ t.result.toNat = k ∧ k = out.length
            | .error c => t.err = true ∧ t.errClass = c ∧ t.result = 0xFFFFFFFF#32)
        ∧ out.length ≤ s.dec.lOutCap.toNat
        ∧ (∀ (k : Nat) (h : k < out.length), memRead t (s.dec.lOutBase + BitVec.ofNat 32 k) = out[k])
        ∧ (∀ a, inRange s.dec.lOutBase out.length a = false → memRead t a = memRead s a)

/-- R176 (a), (b), R174: decoding a stream gives the symbols back, whatever bytes follow it; with too small a capacity it
overflows after writing that many. -/
def Obligations.DecodeOfAStreamGivesItsSymbols : Prop :=
  ∀ (f : FreqTable) (symbols extra : List Byte) (cap : Nat), FreqWf f →
    (symbols.length ≤ cap →
      decodeFn (builtTables f) (packBytes (streamBits (treeBuild f) symbols) ++ extra) cap
        = some (.success symbols.length, symbols))
    ∧ (cap < symbols.length →
      decodeFn (builtTables f) (packBytes (streamBits (treeBuild f) symbols) ++ extra) cap
        = some (.error .outputOverflow, symbols.take cap))

/-- R176 (c): a strict prefix of a stream's bytes is truncated, or overflows if the capacity is reached first. -/
def Obligations.DecodeOfAStrictPrefixIsTruncated : Prop :=
  ∀ (f : FreqTable) (symbols : List Byte) (cap b : Nat), FreqWf f →
    b < (packBytes (streamBits (treeBuild f) symbols)).length →
    ∃ out, decodeFn (builtTables f) ((packBytes (streamBits (treeBuild f) symbols)).take b) cap
          = some (.error .truncated, out)
      ∨ (decodeFn (builtTables f) ((packBytes (streamBits (treeBuild f) symbols)).take b) cap
          = some (.error .outputOverflow, out) ∧ out.length = cap)

/-! ### Configuration -/

/-- R7: a table is accepted exactly when it meets the four items of the check, and then the machine after reset has it in
its ROM; any other table is refused, and no machine has it in its ROM. The form of the check, a ROM that can hold no other
table, is the model's (assumption 1). -/
def Obligations.IllFormedTableIsRefused : Prop :=
  ∀ f : FreqTable,
    (FreqWf f ↔ f[0] = 0x40000000#32 ∧ (∀ (i : Nat) (h : i < 257), 1 ≤ i → i ≤ 255 → 1 ≤ f[i].toNat)
        ∧ ((List.range 256).map fun i => (f[i]?.getD 0#32).toNat).sum + 1 ≤ 2 ^ 32 - 1 ∧ maxLen f ≤ 24)
      ∧ (FreqWf f → ∃ s, State.configure f = .ok s ∧ s.freq = f ∧ s = { State.reset with rom := s.rom })
      ∧ (¬FreqWf f → State.configure f = .error .freqTable ∧ ∀ s : State, s.freq ≠ f)
end

