-- ==== Sys2Proof/Laws/State.lean ====
section
/-! SUPPORT. One lemma per field for each update of the state, so that no proof unfolds a record update. -/

namespace Sys2Proof.Machine

/-! The ROM (R34) -/

@[simp] theorem freq_eq (s : State) : s.freq = s.rom.table := rfl

/-! Acceptance (R203) -/

@[simp] theorem accept_estate (s : State) : (accept s).estate = s.estate := rfl
@[simp] theorem accept_ready (s : State) : (accept s).ready = s.ready := rfl
@[simp] theorem accept_done (s : State) : (accept s).done = false := rfl
@[simp] theorem accept_err (s : State) : (accept s).err = false := rfl
@[simp] theorem accept_errClass (s : State) : (accept s).errClass = .none := rfl
@[simp] theorem accept_rejected (s : State) : (accept s).rejected = false := rfl
@[simp] theorem accept_inBase (s : State) : (accept s).inBase = s.inBase := rfl
@[simp] theorem accept_inLen (s : State) : (accept s).inLen = s.inLen := rfl
@[simp] theorem accept_outBase (s : State) : (accept s).outBase = s.outBase := rfl
@[simp] theorem accept_outCap (s : State) : (accept s).outCap = s.outCap := rfl
@[simp] theorem accept_result (s : State) : (accept s).result = s.result := rfl
@[simp] theorem accept_rom (s : State) : (accept s).rom = s.rom := rfl
@[simp] theorem accept_tab (s : State) : (accept s).tab = s.tab := rfl
@[simp] theorem accept_bld (s : State) : (accept s).bld = s.bld := rfl
@[simp] theorem accept_dec (s : State) : (accept s).dec = s.dec := rfl
@[simp] theorem accept_mem (s : State) : (accept s).mem = s.mem := rfl
@[simp] theorem accept_regions (s : State) : (accept s).regions = s.regions := rfl
@[simp] theorem accept_inputs (s : State) : (accept s).inputs = s.inputs := rfl
@[simp] theorem accept_trace (s : State) : (accept s).trace = s.trace := rfl
@[simp] theorem accept_turns (s : State) : (accept s).turns = s.turns := rfl
@[simp] theorem accept_draws (s : State) : (accept s).draws = s.draws := rfl

/-! Dropping a command (R202) -/

@[simp] theorem reject_estate (s : State) : (reject s).estate = s.estate := rfl
@[simp] theorem reject_ready (s : State) : (reject s).ready = s.ready := rfl
@[simp] theorem reject_done (s : State) : (reject s).done = s.done := rfl
@[simp] theorem reject_err (s : State) : (reject s).err = s.err := rfl
@[simp] theorem reject_errClass (s : State) : (reject s).errClass = s.errClass := rfl
@[simp] theorem reject_rejected (s : State) : (reject s).rejected = true := rfl
@[simp] theorem reject_inBase (s : State) : (reject s).inBase = s.inBase := rfl
@[simp] theorem reject_inLen (s : State) : (reject s).inLen = s.inLen := rfl
@[simp] theorem reject_outBase (s : State) : (reject s).outBase = s.outBase := rfl
@[simp] theorem reject_outCap (s : State) : (reject s).outCap = s.outCap := rfl
@[simp] theorem reject_result (s : State) : (reject s).result = s.result := rfl
@[simp] theorem reject_rom (s : State) : (reject s).rom = s.rom := rfl
@[simp] theorem reject_tab (s : State) : (reject s).tab = s.tab := rfl
@[simp] theorem reject_bld (s : State) : (reject s).bld = s.bld := rfl
@[simp] theorem reject_dec (s : State) : (reject s).dec = s.dec := rfl
@[simp] theorem reject_mem (s : State) : (reject s).mem = s.mem := rfl
@[simp] theorem reject_regions (s : State) : (reject s).regions = s.regions := rfl
@[simp] theorem reject_inputs (s : State) : (reject s).inputs = s.inputs := rfl
@[simp] theorem reject_trace (s : State) : (reject s).trace = s.trace := rfl
@[simp] theorem reject_turns (s : State) : (reject s).turns = s.turns := rfl
@[simp] theorem reject_draws (s : State) : (reject s).draws = s.draws := rfl

/-! The tree builder's step (R113) -/

@[simp] theorem stepTree_estate (s : State) : (stepTree s).estate = .lutb := rfl
@[simp] theorem stepTree_tab (s : State) : (stepTree s).tab = { s.tab with node := treeBuild s.rom.table } := rfl
@[simp] theorem stepTree_bld (s : State) : (stepTree s).bld = builderAfter s.rom.table s.bld := rfl
@[simp] theorem stepTree_ready (s : State) : (stepTree s).ready = s.ready := rfl
@[simp] theorem stepTree_done (s : State) : (stepTree s).done = s.done := rfl
@[simp] theorem stepTree_err (s : State) : (stepTree s).err = s.err := rfl
@[simp] theorem stepTree_errClass (s : State) : (stepTree s).errClass = s.errClass := rfl
@[simp] theorem stepTree_rejected (s : State) : (stepTree s).rejected = s.rejected := rfl
@[simp] theorem stepTree_inBase (s : State) : (stepTree s).inBase = s.inBase := rfl
@[simp] theorem stepTree_inLen (s : State) : (stepTree s).inLen = s.inLen := rfl
@[simp] theorem stepTree_outBase (s : State) : (stepTree s).outBase = s.outBase := rfl
@[simp] theorem stepTree_outCap (s : State) : (stepTree s).outCap = s.outCap := rfl
@[simp] theorem stepTree_result (s : State) : (stepTree s).result = s.result := rfl
@[simp] theorem stepTree_rom (s : State) : (stepTree s).rom = s.rom := rfl
@[simp] theorem stepTree_dec (s : State) : (stepTree s).dec = s.dec := rfl
@[simp] theorem stepTree_mem (s : State) : (stepTree s).mem = s.mem := rfl
@[simp] theorem stepTree_regions (s : State) : (stepTree s).regions = s.regions := rfl
@[simp] theorem stepTree_inputs (s : State) : (stepTree s).inputs = s.inputs := rfl
@[simp] theorem stepTree_trace (s : State) : (stepTree s).trace = s.trace := rfl
@[simp] theorem stepTree_turns (s : State) : (stepTree s).turns = s.turns := rfl
@[simp] theorem stepTree_draws (s : State) : (stepTree s).draws = s.draws := rfl

/-! `finish` (R234) -/

@[simp] theorem finish_estate (s : State) (k : EndKind) (r : Word) (c : ErrClass) : (finish s k r c).estate = .idle := rfl
@[simp] theorem finish_ready (s : State) (k : EndKind) (r : Word) (c : ErrClass) : (finish s k r c).ready = s.ready := rfl
@[simp] theorem finish_done (s : State) (k : EndKind) (r : Word) (c : ErrClass) : (finish s k r c).done = true := rfl
@[simp] theorem finish_err (s : State) (k : EndKind) (r : Word) (c : ErrClass) : (finish s k r c).err = (match k with | .fail => true | .success => false) := rfl
@[simp] theorem finish_errClass (s : State) (k : EndKind) (r : Word) (c : ErrClass) : (finish s k r c).errClass = c := rfl
@[simp] theorem finish_rejected (s : State) (k : EndKind) (r : Word) (c : ErrClass) : (finish s k r c).rejected = s.rejected := rfl
@[simp] theorem finish_inBase (s : State) (k : EndKind) (r : Word) (c : ErrClass) : (finish s k r c).inBase = s.inBase := rfl
@[simp] theorem finish_inLen (s : State) (k : EndKind) (r : Word) (c : ErrClass) : (finish s k r c).inLen = s.inLen := rfl
@[simp] theorem finish_outBase (s : State) (k : EndKind) (r : Word) (c : ErrClass) : (finish s k r c).outBase = s.outBase := rfl
@[simp] theorem finish_outCap (s : State) (k : EndKind) (r : Word) (c : ErrClass) : (finish s k r c).outCap = s.outCap := rfl
@[simp] theorem finish_result (s : State) (k : EndKind) (r : Word) (c : ErrClass) : (finish s k r c).result = r := rfl
@[simp] theorem finish_rom (s : State) (k : EndKind) (r : Word) (c : ErrClass) : (finish s k r c).rom = s.rom := rfl
@[simp] theorem finish_tab (s : State) (k : EndKind) (r : Word) (c : ErrClass) : (finish s k r c).tab = s.tab := rfl
@[simp] theorem finish_bld (s : State) (k : EndKind) (r : Word) (c : ErrClass) : (finish s k r c).bld = s.bld := rfl
@[simp] theorem finish_dec (s : State) (k : EndKind) (r : Word) (c : ErrClass) : (finish s k r c).dec = s.dec := rfl
@[simp] theorem finish_mem (s : State) (k : EndKind) (r : Word) (c : ErrClass) : (finish s k r c).mem = s.mem := rfl
@[simp] theorem finish_regions (s : State) (k : EndKind) (r : Word) (c : ErrClass) : (finish s k r c).regions = s.regions := rfl
@[simp] theorem finish_inputs (s : State) (k : EndKind) (r : Word) (c : ErrClass) : (finish s k r c).inputs = s.inputs := rfl
@[simp] theorem finish_trace (s : State) (k : EndKind) (r : Word) (c : ErrClass) : (finish s k r c).trace = s.trace := rfl
@[simp] theorem finish_turns (s : State) (k : EndKind) (r : Word) (c : ErrClass) : (finish s k r c).turns = s.turns := rfl
@[simp] theorem finish_draws (s : State) (k : EndKind) (r : Word) (c : ErrClass) : (finish s k r c).draws = s.draws := rfl

/-! `raise` (R230) -/

@[simp] theorem raise_estate (s : State) (c : ErrClass) : (raise s c).estate = .idle := rfl
@[simp] theorem raise_ready (s : State) (c : ErrClass) : (raise s c).ready = s.ready := rfl
@[simp] theorem raise_done (s : State) (c : ErrClass) : (raise s c).done = true := rfl
@[simp] theorem raise_err (s : State) (c : ErrClass) : (raise s c).err = true := rfl
@[simp] theorem raise_errClass (s : State) (c : ErrClass) : (raise s c).errClass = c := rfl
@[simp] theorem raise_rejected (s : State) (c : ErrClass) : (raise s c).rejected = s.rejected := rfl
@[simp] theorem raise_inBase (s : State) (c : ErrClass) : (raise s c).inBase = s.inBase := rfl
@[simp] theorem raise_inLen (s : State) (c : ErrClass) : (raise s c).inLen = s.inLen := rfl
@[simp] theorem raise_outBase (s : State) (c : ErrClass) : (raise s c).outBase = s.outBase := rfl
@[simp] theorem raise_outCap (s : State) (c : ErrClass) : (raise s c).outCap = s.outCap := rfl
@[simp] theorem raise_result (s : State) (c : ErrClass) : (raise s c).result = errorResult := rfl
@[simp] theorem raise_rom (s : State) (c : ErrClass) : (raise s c).rom = s.rom := rfl
@[simp] theorem raise_tab (s : State) (c : ErrClass) : (raise s c).tab = s.tab := rfl
@[simp] theorem raise_bld (s : State) (c : ErrClass) : (raise s c).bld = s.bld := rfl
@[simp] theorem raise_dec (s : State) (c : ErrClass) : (raise s c).dec = s.dec := rfl
@[simp] theorem raise_mem (s : State) (c : ErrClass) : (raise s c).mem = s.mem := rfl
@[simp] theorem raise_regions (s : State) (c : ErrClass) : (raise s c).regions = s.regions := rfl
@[simp] theorem raise_inputs (s : State) (c : ErrClass) : (raise s c).inputs = s.inputs := rfl
@[simp] theorem raise_trace (s : State) (c : ErrClass) : (raise s c).trace = s.trace := rfl
@[simp] theorem raise_turns (s : State) (c : ErrClass) : (raise s c).turns = s.turns := rfl
@[simp] theorem raise_draws (s : State) (c : ErrClass) : (raise s c).draws = s.draws := rfl

/-! The reset event (R250) -/

@[simp] theorem hwReset_estate (s : State) : (hwReset s).estate = .idle := rfl
@[simp] theorem hwReset_ready (s : State) : (hwReset s).ready = false := rfl
@[simp] theorem hwReset_done (s : State) : (hwReset s).done = false := rfl
@[simp] theorem hwReset_err (s : State) : (hwReset s).err = false := rfl
@[simp] theorem hwReset_errClass (s : State) : (hwReset s).errClass = .none := rfl
@[simp] theorem hwReset_rejected (s : State) : (hwReset s).rejected = false := rfl
@[simp] theorem hwReset_inBase (s : State) : (hwReset s).inBase = 0#32 := rfl
@[simp] theorem hwReset_inLen (s : State) : (hwReset s).inLen = 0#32 := rfl
@[simp] theorem hwReset_outBase (s : State) : (hwReset s).outBase = 0#32 := rfl
@[simp] theorem hwReset_outCap (s : State) : (hwReset s).outCap = 0#32 := rfl
@[simp] theorem hwReset_result (s : State) : (hwReset s).result = 0#32 := rfl
@[simp] theorem hwReset_rom (s : State) : (hwReset s).rom = s.rom := rfl
@[simp] theorem hwReset_tab (s : State) : (hwReset s).tab = Config.freeTables s.draws := rfl
@[simp] theorem hwReset_bld (s : State) : (hwReset s).bld = Config.freeBuilder s.draws := rfl
@[simp] theorem hwReset_dec (s : State) : (hwReset s).dec = Config.freeDecoder s.draws := rfl
@[simp] theorem hwReset_mem (s : State) : (hwReset s).mem = s.mem := rfl
@[simp] theorem hwReset_regions (s : State) : (hwReset s).regions = s.regions := rfl
@[simp] theorem hwReset_inputs (s : State) : (hwReset s).inputs = s.inputs := rfl
@[simp] theorem hwReset_trace (s : State) : (hwReset s).trace = s.trace := rfl
@[simp] theorem hwReset_turns (s : State) : (hwReset s).turns = s.turns := rfl
@[simp] theorem hwReset_draws (s : State) : (hwReset s).draws = s.draws + 1 := rfl

/-! Using a turn -/

@[simp] theorem takeTurn_estate (s : State) : (takeTurn s).estate = s.estate := rfl
@[simp] theorem takeTurn_ready (s : State) : (takeTurn s).ready = s.ready := rfl
@[simp] theorem takeTurn_done (s : State) : (takeTurn s).done = s.done := rfl
@[simp] theorem takeTurn_err (s : State) : (takeTurn s).err = s.err := rfl
@[simp] theorem takeTurn_errClass (s : State) : (takeTurn s).errClass = s.errClass := rfl
@[simp] theorem takeTurn_rejected (s : State) : (takeTurn s).rejected = s.rejected := rfl
@[simp] theorem takeTurn_inBase (s : State) : (takeTurn s).inBase = s.inBase := rfl
@[simp] theorem takeTurn_inLen (s : State) : (takeTurn s).inLen = s.inLen := rfl
@[simp] theorem takeTurn_outBase (s : State) : (takeTurn s).outBase = s.outBase := rfl
@[simp] theorem takeTurn_outCap (s : State) : (takeTurn s).outCap = s.outCap := rfl
@[simp] theorem takeTurn_result (s : State) : (takeTurn s).result = s.result := rfl
@[simp] theorem takeTurn_rom (s : State) : (takeTurn s).rom = s.rom := rfl
@[simp] theorem takeTurn_tab (s : State) : (takeTurn s).tab = s.tab := rfl
@[simp] theorem takeTurn_bld (s : State) : (takeTurn s).bld = s.bld := rfl
@[simp] theorem takeTurn_dec (s : State) : (takeTurn s).dec = s.dec := rfl
@[simp] theorem takeTurn_mem (s : State) : (takeTurn s).mem = s.mem := rfl
@[simp] theorem takeTurn_regions (s : State) : (takeTurn s).regions = s.regions := rfl
@[simp] theorem takeTurn_inputs (s : State) : (takeTurn s).inputs = s.inputs := rfl
@[simp] theorem takeTurn_trace (s : State) : (takeTurn s).trace = s.trace := rfl
@[simp] theorem takeTurn_turns (s : State) : (takeTurn s).turns = s.turns.tail := rfl
@[simp] theorem takeTurn_draws (s : State) : (takeTurn s).draws = s.draws := rfl

/-! Noting a transaction -/

@[simp] theorem record_estate (t : Transaction) (s : State) : (record t s).estate = s.estate := rfl
@[simp] theorem record_ready (t : Transaction) (s : State) : (record t s).ready = s.ready := rfl
@[simp] theorem record_done (t : Transaction) (s : State) : (record t s).done = s.done := rfl
@[simp] theorem record_err (t : Transaction) (s : State) : (record t s).err = s.err := rfl
@[simp] theorem record_errClass (t : Transaction) (s : State) : (record t s).errClass = s.errClass := rfl
@[simp] theorem record_rejected (t : Transaction) (s : State) : (record t s).rejected = s.rejected := rfl
@[simp] theorem record_inBase (t : Transaction) (s : State) : (record t s).inBase = s.inBase := rfl
@[simp] theorem record_inLen (t : Transaction) (s : State) : (record t s).inLen = s.inLen := rfl
@[simp] theorem record_outBase (t : Transaction) (s : State) : (record t s).outBase = s.outBase := rfl
@[simp] theorem record_outCap (t : Transaction) (s : State) : (record t s).outCap = s.outCap := rfl
@[simp] theorem record_result (t : Transaction) (s : State) : (record t s).result = s.result := rfl
@[simp] theorem record_rom (t : Transaction) (s : State) : (record t s).rom = s.rom := rfl
@[simp] theorem record_tab (t : Transaction) (s : State) : (record t s).tab = s.tab := rfl
@[simp] theorem record_bld (t : Transaction) (s : State) : (record t s).bld = s.bld := rfl
@[simp] theorem record_dec (t : Transaction) (s : State) : (record t s).dec = s.dec := rfl
@[simp] theorem record_mem (t : Transaction) (s : State) : (record t s).mem = s.mem := rfl
@[simp] theorem record_regions (t : Transaction) (s : State) : (record t s).regions = s.regions := rfl
@[simp] theorem record_inputs (t : Transaction) (s : State) : (record t s).inputs = s.inputs := rfl
@[simp] theorem record_trace (t : Transaction) (s : State) : (record t s).trace = t :: s.trace := rfl
@[simp] theorem record_turns (t : Transaction) (s : State) : (record t s).turns = s.turns := rfl
@[simp] theorem record_draws (t : Transaction) (s : State) : (record t s).draws = s.draws := rfl

/-! `MemWrite` (R63) -/

@[simp] theorem memWrite_estate (s : State) (a : Word) (v : Byte) : (memWrite s a v).estate = s.estate := rfl
@[simp] theorem memWrite_ready (s : State) (a : Word) (v : Byte) : (memWrite s a v).ready = s.ready := rfl
@[simp] theorem memWrite_done (s : State) (a : Word) (v : Byte) : (memWrite s a v).done = s.done := rfl
@[simp] theorem memWrite_err (s : State) (a : Word) (v : Byte) : (memWrite s a v).err = s.err := rfl
@[simp] theorem memWrite_errClass (s : State) (a : Word) (v : Byte) : (memWrite s a v).errClass = s.errClass := rfl
@[simp] theorem memWrite_rejected (s : State) (a : Word) (v : Byte) : (memWrite s a v).rejected = s.rejected := rfl
@[simp] theorem memWrite_inBase (s : State) (a : Word) (v : Byte) : (memWrite s a v).inBase = s.inBase := rfl
@[simp] theorem memWrite_inLen (s : State) (a : Word) (v : Byte) : (memWrite s a v).inLen = s.inLen := rfl
@[simp] theorem memWrite_outBase (s : State) (a : Word) (v : Byte) : (memWrite s a v).outBase = s.outBase := rfl
@[simp] theorem memWrite_outCap (s : State) (a : Word) (v : Byte) : (memWrite s a v).outCap = s.outCap := rfl
@[simp] theorem memWrite_result (s : State) (a : Word) (v : Byte) : (memWrite s a v).result = s.result := rfl
@[simp] theorem memWrite_rom (s : State) (a : Word) (v : Byte) : (memWrite s a v).rom = s.rom := rfl
@[simp] theorem memWrite_tab (s : State) (a : Word) (v : Byte) : (memWrite s a v).tab = s.tab := rfl
@[simp] theorem memWrite_bld (s : State) (a : Word) (v : Byte) : (memWrite s a v).bld = s.bld := rfl
@[simp] theorem memWrite_dec (s : State) (a : Word) (v : Byte) : (memWrite s a v).dec = s.dec := rfl
@[simp] theorem memWrite_mem (s : State) (a : Word) (v : Byte) : (memWrite s a v).mem = Memory.write s.mem a.toNat v := rfl
@[simp] theorem memWrite_regions (s : State) (a : Word) (v : Byte) : (memWrite s a v).regions = s.regions := rfl
@[simp] theorem memWrite_inputs (s : State) (a : Word) (v : Byte) : (memWrite s a v).inputs = s.inputs := rfl
@[simp] theorem memWrite_trace (s : State) (a : Word) (v : Byte) : (memWrite s a v).trace = s.trace := rfl
@[simp] theorem memWrite_turns (s : State) (a : Word) (v : Byte) : (memWrite s a v).turns = s.turns := rfl
@[simp] theorem memWrite_draws (s : State) (a : Word) (v : Byte) : (memWrite s a v).draws = s.draws := rfl

/-! Taking an input byte (R162) -/

@[simp] theorem takeByte_estate (s : State) : (takeByte s).estate = s.estate := rfl
@[simp] theorem takeByte_ready (s : State) : (takeByte s).ready = s.ready := rfl
@[simp] theorem takeByte_done (s : State) : (takeByte s).done = s.done := rfl
@[simp] theorem takeByte_err (s : State) : (takeByte s).err = s.err := rfl
@[simp] theorem takeByte_errClass (s : State) : (takeByte s).errClass = s.errClass := rfl
@[simp] theorem takeByte_rejected (s : State) : (takeByte s).rejected = s.rejected := rfl
@[simp] theorem takeByte_inBase (s : State) : (takeByte s).inBase = s.inBase := rfl
@[simp] theorem takeByte_inLen (s : State) : (takeByte s).inLen = s.inLen := rfl
@[simp] theorem takeByte_outBase (s : State) : (takeByte s).outBase = s.outBase := rfl
@[simp] theorem takeByte_outCap (s : State) : (takeByte s).outCap = s.outCap := rfl
@[simp] theorem takeByte_result (s : State) : (takeByte s).result = s.result := rfl
@[simp] theorem takeByte_rom (s : State) : (takeByte s).rom = s.rom := rfl
@[simp] theorem takeByte_tab (s : State) : (takeByte s).tab = s.tab := rfl
@[simp] theorem takeByte_bld (s : State) : (takeByte s).bld = s.bld := rfl
@[simp] theorem takeByte_mem (s : State) : (takeByte s).mem = s.mem := rfl
@[simp] theorem takeByte_regions (s : State) : (takeByte s).regions = s.regions := rfl
@[simp] theorem takeByte_inputs (s : State) : (takeByte s).inputs = s.inputs := rfl
@[simp] theorem takeByte_trace (s : State) : (takeByte s).trace = s.trace := rfl
@[simp] theorem takeByte_turns (s : State) : (takeByte s).turns = s.turns := rfl
@[simp] theorem takeByte_draws (s : State) : (takeByte s).draws = s.draws := rfl

/-! Writing an output byte (R170) -/

@[simp] theorem putByte_estate (s : State) (b : Byte) : (putByte s b).estate = .dA := rfl
@[simp] theorem putByte_ready (s : State) (b : Byte) : (putByte s b).ready = s.ready := rfl
@[simp] theorem putByte_done (s : State) (b : Byte) : (putByte s b).done = s.done := rfl
@[simp] theorem putByte_err (s : State) (b : Byte) : (putByte s b).err = s.err := rfl
@[simp] theorem putByte_errClass (s : State) (b : Byte) : (putByte s b).errClass = s.errClass := rfl
@[simp] theorem putByte_rejected (s : State) (b : Byte) : (putByte s b).rejected = s.rejected := rfl
@[simp] theorem putByte_inBase (s : State) (b : Byte) : (putByte s b).inBase = s.inBase := rfl
@[simp] theorem putByte_inLen (s : State) (b : Byte) : (putByte s b).inLen = s.inLen := rfl
@[simp] theorem putByte_outBase (s : State) (b : Byte) : (putByte s b).outBase = s.outBase := rfl
@[simp] theorem putByte_outCap (s : State) (b : Byte) : (putByte s b).outCap = s.outCap := rfl
@[simp] theorem putByte_result (s : State) (b : Byte) : (putByte s b).result = s.result := rfl
@[simp] theorem putByte_rom (s : State) (b : Byte) : (putByte s b).rom = s.rom := rfl
@[simp] theorem putByte_tab (s : State) (b : Byte) : (putByte s b).tab = s.tab := rfl
@[simp] theorem putByte_bld (s : State) (b : Byte) : (putByte s b).bld = s.bld := rfl
@[simp] theorem putByte_dec (s : State) (b : Byte) : (putByte s b).dec = { s.dec with outPtr := s.dec.outPtr + 1#32 } := rfl
@[simp] theorem putByte_mem (s : State) (b : Byte) : (putByte s b).mem = Memory.write s.mem (outputAddr s).toNat b := rfl
@[simp] theorem putByte_regions (s : State) (b : Byte) : (putByte s b).regions = s.regions := rfl
@[simp] theorem putByte_inputs (s : State) (b : Byte) : (putByte s b).inputs = s.inputs := rfl
@[simp] theorem putByte_trace (s : State) (b : Byte) : (putByte s b).trace = s.trace := rfl
@[simp] theorem putByte_turns (s : State) (b : Byte) : (putByte s b).turns = s.turns := rfl
@[simp] theorem putByte_draws (s : State) (b : Byte) : (putByte s b).draws = s.draws := rfl

/-! Taking a bit of the walk (R167) -/

@[simp] theorem walkTake_estate (s : State) : (walkTake s).estate = s.estate := rfl
@[simp] theorem walkTake_ready (s : State) : (walkTake s).ready = s.ready := rfl
@[simp] theorem walkTake_done (s : State) : (walkTake s).done = s.done := rfl
@[simp] theorem walkTake_err (s : State) : (walkTake s).err = s.err := rfl
@[simp] theorem walkTake_errClass (s : State) : (walkTake s).errClass = s.errClass := rfl
@[simp] theorem walkTake_rejected (s : State) : (walkTake s).rejected = s.rejected := rfl
@[simp] theorem walkTake_inBase (s : State) : (walkTake s).inBase = s.inBase := rfl
@[simp] theorem walkTake_inLen (s : State) : (walkTake s).inLen = s.inLen := rfl
@[simp] theorem walkTake_outBase (s : State) : (walkTake s).outBase = s.outBase := rfl
@[simp] theorem walkTake_outCap (s : State) : (walkTake s).outCap = s.outCap := rfl
@[simp] theorem walkTake_result (s : State) : (walkTake s).result = s.result := rfl
@[simp] theorem walkTake_rom (s : State) : (walkTake s).rom = s.rom := rfl
@[simp] theorem walkTake_tab (s : State) : (walkTake s).tab = s.tab := rfl
@[simp] theorem walkTake_bld (s : State) : (walkTake s).bld = s.bld := rfl
@[simp] theorem walkTake_dec (s : State) : (walkTake s).dec = { dropBits s.dec 1 with node := walkChild s } := rfl
@[simp] theorem walkTake_mem (s : State) : (walkTake s).mem = s.mem := rfl
@[simp] theorem walkTake_regions (s : State) : (walkTake s).regions = s.regions := rfl
@[simp] theorem walkTake_inputs (s : State) : (walkTake s).inputs = s.inputs := rfl
@[simp] theorem walkTake_trace (s : State) : (walkTake s).trace = s.trace := rfl
@[simp] theorem walkTake_turns (s : State) : (walkTake s).turns = s.turns := rfl
@[simp] theorem walkTake_draws (s : State) : (walkTake s).draws = s.draws := rfl

end Sys2Proof.Machine
end

