-- ==== Sys2Proof/Laws/Memory.lean ====
section
/-! SUPPORT. Laws of host memory: a byte written is the byte read, no other byte changes, and every operation keeps the
canonical form (R62, R63). -/

namespace Sys2Proof.Machine

theorem read_nil (a : Nat) : Memory.read [] a = unlistedByte := rfl

theorem read_cons (k : Nat) (v : Byte) (m : Memory) (a : Nat) :
    Memory.read ((k, v) :: m) a = if k = a then v else Memory.read m a := rfl

/-- Below its least address a canonical memory reads as unlisted. -/
theorem read_below {m : Memory} {low a : Nat} (h : Memory.wfFrom low m = true) (ha : a < low) :
    Memory.read m a = unlistedByte := by
  induction m generalizing low with
  | nil => rfl
  | cons c m ih =>
    obtain ⟨k, v⟩ := c
    simp only [Memory.wfFrom, Bool.and_eq_true, decide_eq_true_eq] at h
    rw [read_cons, if_neg (by omega)]
    exact ih h.2 (by omega)

theorem read_write_other (m : Memory) {a a' : Nat} (b : Byte) (h : a' ≠ a) :
    Memory.read (Memory.write m a b) a' = Memory.read m a' := by
  induction m with
  | nil =>
    simp only [Memory.write]
    split
    · rfl
    · rw [read_cons, if_neg (by omega)]
  | cons c m ih =>
    obtain ⟨k, v⟩ := c
    simp only [Memory.write]
    split
    · split
      · rfl
      · rw [read_cons, if_neg (by omega)]
    · split
      · next hk =>
        subst hk
        split
        · rw [read_cons, if_neg (by omega)]
        · rw [read_cons, read_cons, if_neg (by omega), if_neg (by omega)]
      · rw [read_cons, read_cons, ih]

theorem read_write_same_from {m : Memory} {low : Nat} (a : Nat) (b : Byte) (h : Memory.wfFrom low m = true) :
    Memory.read (Memory.write m a b) a = b := by
  induction m generalizing low with
  | nil =>
    simp only [Memory.write]
    split
    · next hb => rw [read_nil, hb]
    · rw [read_cons, if_pos rfl]
  | cons c m ih =>
    obtain ⟨k, v⟩ := c
    simp only [Memory.wfFrom, Bool.and_eq_true, decide_eq_true_eq] at h
    simp only [Memory.write]
    split
    · split
      · next hlt hb => rw [read_cons, if_neg (by omega), hb]; exact read_below h.2 (by omega)
      · rw [read_cons, if_pos rfl]
    · split
      · next hk =>
        split
        · next hb => rw [hb]; exact read_below h.2 (by omega)
        · rw [read_cons, if_pos rfl]
      · rw [read_cons, if_neg (by omega)]
        exact ih h.2

/-- A canonical memory reads what was last written (R63, R62). -/
theorem read_write_same {m : Memory} (a : Nat) (b : Byte) (h : Memory.wf m = true) :
    Memory.read (Memory.write m a b) a = b := read_write_same_from a b h

theorem wfFrom_mono {m : Memory} {low low' : Nat} (h : Memory.wfFrom low m = true) (hl : low' ≤ low) :
    Memory.wfFrom low' m = true := by
  cases m with
  | nil => rfl
  | cons c m =>
    simp only [Memory.wfFrom, Bool.and_eq_true, decide_eq_true_eq] at h ⊢
    exact ⟨⟨⟨by omega, h.1.1.2⟩, h.1.2⟩, h.2⟩

theorem wfFrom_write {m : Memory} {low a : Nat} (b : Byte) (h : Memory.wfFrom low m = true) (hl : low ≤ a)
    (ha : a < 2 ^ 32) : Memory.wfFrom low (Memory.write m a b) = true := by
  induction m generalizing low with
  | nil =>
    simp only [Memory.write]
    split
    · rfl
    · next hb => simp [Memory.wfFrom, hb, hl]; omega
  | cons c m ih =>
    obtain ⟨k, v⟩ := c
    have h' := h
    simp only [Memory.wfFrom, Bool.and_eq_true, decide_eq_true_eq] at h'
    simp only [Memory.write]
    split
    · split
      · exact h
      · next hlt hb =>
        simp only [Memory.wfFrom, Bool.and_eq_true, decide_eq_true_eq, bne_iff_ne, ne_eq]
        exact ⟨⟨⟨hl, ha⟩, hb⟩, ⟨⟨by omega, h'.1.1.2⟩, by simpa using h'.1.2⟩, h'.2⟩
    · split
      · next hk =>
        split
        · exact wfFrom_mono h'.2 (by omega)
        · next hb =>
          simp only [Memory.wfFrom, Bool.and_eq_true, decide_eq_true_eq, bne_iff_ne, ne_eq]
          exact ⟨⟨⟨hl, ha⟩, hb⟩, hk ▸ h'.2⟩
      · simp only [Memory.wfFrom, Bool.and_eq_true, decide_eq_true_eq]
        exact ⟨h'.1, ih h'.2 (by omega)⟩

/-- The one operation that writes host memory keeps its canonical form. -/
theorem memWrite_wf {s : State} (a : Word) (b : Byte) (h : Memory.wf s.mem = true) :
    Memory.wf (memWrite s a b).mem = true := wfFrom_write b h (Nat.zero_le _) a.isLt

/-- The memory of the state after reset is canonical. -/
theorem reset_memory_wf : Memory.wf State.reset.mem = true := rfl

end Sys2Proof.Machine
end

