-- ==== Sys2Proof/Laws/PerInstr.lean ====
section
/-! SUPPORT. Laws of the commands as syntax, one lemma per constructor (LAWS.json's families). -/

namespace Sys2Proof.Laws.RoundTrip

/-- A command's word leaves the reserved bits 0 and decodes to the command (R81, R82). -/
def Statement (i : Instr) : Prop := cmdReserved (encode i) = 0#28 ∧ decodeCmd (encode i) = .ok i

theorem nop : Statement .nop := ⟨by decide, rfl⟩

theorem init : Statement .init := ⟨by decide, rfl⟩

theorem decode : Statement .decode := ⟨by decide, rfl⟩

end Sys2Proof.Laws.RoundTrip
end

