-- ==== Sys2Proof/Laws/Step.lean ====
section
/-! SUPPORT. What each shared operation can do, said once: the commands, the register accesses, the engine's steps and the
whole step. Later proofs cite these and do not unfold the operations. -/

namespace Sys2Proof.Machine

/-! ### Commands -/

/-- Everything a command can do when it answers a next state. -/
theorem exec_cases {i : Instr} {s t : State} (h : exec i s = .next t) :
    (i = .nop ∧ t = s)
      ∨ (i ≠ .nop ∧ busy s = true ∧ t = reject s)
      ∨ (i = .init ∧ busy s = false ∧ t = { accept s with ready := false, estate := .tree })
      ∨ (i = .decode ∧ busy s = false ∧ s.ready = false ∧ t = raise (accept s) .notReady)
      ∨ (i = .decode ∧ busy s = false ∧ s.ready = true ∧ buffersOverlap s = false ∧ t = decodeStart (accept s)) := by
  cases i with
  | nop => simp [exec, execNop] at h; simp [h]
  | init =>
    simp only [exec, execInit] at h
    split at h <;> simp at h <;> simp_all
  | decode =>
    simp only [exec, execDecode] at h
    split at h
    · simp at h; simp_all
    · split at h
      · simp at h; simp_all
      · split at h
        · simp at h
        · simp at h; simp_all

/-- A command that is refused is a DECODE whose regions overlap. -/
theorem exec_refused {i : Instr} {s : State} {r : Refusal} (h : exec i s = .refused r) :
    i = .decode ∧ busy s = false ∧ s.ready = true ∧ buffersOverlap s = true ∧ r = .bufferOverlap := by
  cases i with
  | nop => simp [exec, execNop] at h
  | init => simp only [exec, execInit] at h; split at h <;> simp at h
  | decode =>
    simp only [exec, execDecode] at h
    split at h
    · simp at h
    · split at h
      · simp at h
      · split at h
        · simp at h; simp_all
        · simp at h

theorem exec_no_fault (i : Instr) (s : State) (f : Fault) : exec i s ≠ .fault f := by
  cases i with
  | nop => simp [exec, execNop]
  | init => simp only [exec, execInit]; split <;> simp
  | decode => simp only [exec, execDecode]; repeat' split <;> try simp

/-! ### Register accesses -/

theorem checkedAccess_ok {offset : Offset} (h : wordAligned offset = true) (k : Host.Outcome State Fault Refusal) :
    checkedAccess .w32 offset k = k := by
  simp [checkedAccess, h]

/-- An input that is not well formed is refused. -/
theorem perform_not_wf {i : Input} (s : State) (h : i.wf = false) :
    perform i s = .refused .busWidth ∨ perform i s = .refused .busAlignment := by
  cases i with
  | busWrite width offset w => cases width <;> simp_all [Input.wf, perform, busWrite, checkedAccess]
  | busRead width offset => cases width <;> simp_all [Input.wf, perform, busRead, checkedAccess]
  | wait => simp [Input.wf] at h
  | memWrite a v => simp [Input.wf] at h
  | memRead a => simp [Input.wf] at h
  | reset => simp [Input.wf] at h

/-- Counting a draw changes nothing but the count. -/
theorem countDraw_eq (r : Reg) (s : State) :
    countDraw r s = { s with draws := (countDraw r s).draws } := by
  unfold countDraw
  split <;> rfl

/-- A read changes nothing but the record of the host and the count of draws. -/
theorem readAt_eq (offset : Offset) (s : State) :
    readAt offset s
      = { s with draws := (readAt offset s).draws
                 trace := .read offset (regRead s (regOf offset)) :: s.trace } := by
  unfold readAt
  rw [countDraw_eq]
  rfl

/-- Everything a register write can do when it answers a next state. -/
theorem regWrite_cases {r : Reg} {w : Word} {s t : State} (h : regWrite r w s = .next t) :
    (r = .cmd ∧ cmdWrite w s = .next t) ∨ (r = .inBase ∧ t = { s with inBase := w })
      ∨ (r = .inLen ∧ t = { s with inLen := w }) ∨ (r = .outBase ∧ t = { s with outBase := w })
      ∨ (r = .outCap ∧ t = { s with outCap := w }) ∨ t = s := by
  cases r <;> simp_all [regWrite]

/-- Everything a CMD write can do when it answers a next state. -/
theorem cmdWrite_cases {w : Word} {s t : State} (h : cmdWrite w s = .next t) :
    (∃ i, decodeCmd w = .ok i ∧ exec i s = .next t) ∨ (∃ e, decodeCmd w = .error e ∧ t = illegalCmd s) := by
  unfold cmdWrite at h
  split at h
  · exact .inl ⟨_, by assumption, h⟩
  · simp at h; exact .inr ⟨_, by assumption, h.symm⟩

/-! ### The engine -/

/-- The engine's step when it answers a next state, by the state it was in. -/
theorem engineStep_cases {s t : State} (h : engineStep s = .next t) :
    (s.estate = .idle ∧ t = s)
      ∨ (s.estate = .tree ∧ t = stepTree s)
      ∨ (s.estate = .lutb ∧ t = stepLutb s)
      ∨ (s.estate = .dA ∧ t = stepDA s)
      ∨ (s.estate = .dB ∧ wantsByte s = true ∧ admits s (inputAddr s) = true ∧ t = takeByte s)
      ∨ (s.estate = .dB ∧ wantsByte s = false ∧ t = { s with estate := .dC })
      ∨ (s.estate = .dC ∧ t = stepDC s)
      ∨ (s.estate = .dD ∧ t = stepDD s)
      ∨ (s.estate = .dWalk ∧ t = stepDWalk s)
      ∨ (s.estate = .dEmit ∧ s.dec.node = eosIx ∧ t = finish s .success s.dec.outPtr .none)
      ∨ (s.estate = .dEmit ∧ s.dec.node ≠ eosIx ∧ s.dec.outPtr = s.dec.lOutCap ∧ t = raise s .outputOverflow)
      ∨ (∃ b, s.estate = .dEmit ∧ s.dec.node ≠ eosIx ∧ s.dec.outPtr ≠ s.dec.lOutCap ∧ emitByte s = some b
          ∧ admits s (outputAddr s) = true ∧ t = putByte s b) := by
  unfold engineStep at h
  split at h <;> rename_i he
  · simp at h; subst h; simp [he]
  · simp at h; simp [he, h]
  · simp at h; simp [he, h]
  · simp at h; simp [he, h]
  · unfold stepDB at h
    split at h
    · split at h <;> simp at h
      simp_all
    · simp at h; simp_all
  · simp at h; simp [he, h]
  · simp at h; simp [he, h]
  · simp at h; simp [he, h]
  · unfold stepDEmit at h
    split at h
    · simp at h; simp_all
    · split at h
      · simp at h; simp_all
      · split at h
        · simp at h
        · split at h <;> simp at h
          simp_all

/-- Everything the `D_D` step can do. -/
theorem stepDD_cases (s : State) :
    (nodeAt s.tab.node s.dec.node = none ∧ stepDD s = raise s .invalidCode)
      ∨ (∃ y c len, nodeAt s.tab.node s.dec.node = some (.leaf y c len) ∧ s.dec.bitcnt.toNat < len.toNat
          ∧ stepDD s = raise s .truncated)
      ∨ (∃ y c len, nodeAt s.tab.node s.dec.node = some (.leaf y c len) ∧ len.toNat ≤ s.dec.bitcnt.toNat
          ∧ stepDD s = { s with dec := dropBits s.dec len.toNat, estate := .dEmit })
      ∨ (∃ c0 c1, nodeAt s.tab.node s.dec.node = some (.internal c0 c1) ∧ s.dec.bitcnt.toNat < 10
          ∧ stepDD s = raise s .truncated)
      ∨ (∃ c0 c1, nodeAt s.tab.node s.dec.node = some (.internal c0 c1) ∧ 10 ≤ s.dec.bitcnt.toNat
          ∧ stepDD s = { s with dec := dropBits s.dec 10, estate := .dWalk }) := by
  unfold stepDD
  split
  · next hn => exact .inl ⟨hn, rfl⟩
  · next y c len hn =>
    split
    · next hlt => exact .inr (.inl ⟨y, c, len, hn, hlt, rfl⟩)
    · next hge => exact .inr (.inr (.inl ⟨y, c, len, hn, by omega, rfl⟩))
  · next c0 c1 hn =>
    split
    · next hlt => exact .inr (.inr (.inr (.inl ⟨c0, c1, hn, hlt, rfl⟩)))
    · next hge => exact .inr (.inr (.inr (.inr ⟨c0, c1, hn, by omega, rfl⟩)))

/-- Everything the `D_WALK` step can do. -/
theorem stepDWalk_cases (s : State) :
    (s.dec.bitcnt = 0#6 ∧ stepDWalk s = raise s .truncated)
      ∨ (s.dec.bitcnt ≠ 0#6 ∧ 512 < (walkChild s).toNat ∧ stepDWalk s = raise s .invalidCode)
      ∨ (s.dec.bitcnt ≠ 0#6 ∧ (walkChild s).toNat ≤ 512 ∧ isLeafAt s.tab.node (walkChild s) = true
          ∧ stepDWalk s = { walkTake s with estate := .dEmit })
      ∨ (s.dec.bitcnt ≠ 0#6 ∧ (walkChild s).toNat ≤ 512 ∧ isLeafAt s.tab.node (walkChild s) = false
          ∧ (walkTake s).dec.bitcnt = 0#6 ∧ stepDWalk s = raise (walkTake s) .truncated)
      ∨ (s.dec.bitcnt ≠ 0#6 ∧ (walkChild s).toNat ≤ 512 ∧ isLeafAt s.tab.node (walkChild s) = false
          ∧ (walkTake s).dec.bitcnt ≠ 0#6 ∧ stepDWalk s = walkTake s) := by
  unfold stepDWalk
  split
  · next h0 => exact .inl ⟨h0, rfl⟩
  · next h0 =>
    split
    · next h1 => exact .inr (.inl ⟨h0, h1, rfl⟩)
    · next h1 =>
      split
      · next h2 => exact .inr (.inr (.inl ⟨h0, by omega, h2, rfl⟩))
      · next h2 =>
        have h2' : isLeafAt s.tab.node (walkChild s) = false := by simpa using h2
        split
        · next h3 => exact .inr (.inr (.inr (.inl ⟨h0, by omega, h2', h3, rfl⟩)))
        · next h3 => exact .inr (.inr (.inr (.inr ⟨h0, by omega, h2', h3, rfl⟩)))

/-- The engine stops with `engineStuck` exactly when it is stuck. -/
theorem engineStuck_iff (s : State) : engineStuck s = true ↔ engineStep s = .fault .engineStuck := by
  unfold engineStuck engineStep
  cases he : s.estate <;> simp
  · unfold stepDB
    by_cases h1 : wantsByte s = true <;> by_cases h2 : admits s (inputAddr s) = true <;> simp_all
  · unfold stepDEmit wantsEmit
    by_cases h1 : s.dec.node = eosIx
    · simp [h1]
    · by_cases h2 : s.dec.outPtr = s.dec.lOutCap
      · simp [h1, h2]
      · cases h3 : emitByte s with
        | none => simp [h1, h2]
        | some b => by_cases h4 : admits s (outputAddr s) = true <;> simp [h1, h2, h4]

/-! ### The whole step -/

/-- Everything a step can be: nothing to do, a step of the engine, or one input performed. -/
theorem step_cases {s t : State} (h : step s = .next t) :
    (s.inputs = [] ∧ s.estate = .idle ∧ t = s)
      ∨ (nextAgent s = some .engine ∧ engineStep (takeTurn s) = .next t)
      ∨ (∃ i rest, nextAgent s = some .host ∧ s.inputs = i :: rest
          ∧ perform i { takeTurn s with inputs := rest } = .next t) := by
  unfold step at h
  split at h
  · next hn =>
    simp at h
    refine .inl ⟨?_, ?_, h.symm⟩
    · unfold nextAgent at hn
      split at hn
      · next he => exact List.isEmpty_iff.1 he
      · split at hn <;> simp at hn
    · unfold nextAgent at hn
      split at hn
      · split at hn
        · simp at hn
        · simp_all [busy]
      · split at hn <;> simp at hn
  · next hn => exact .inr (.inl ⟨hn, h⟩)
  · next hn =>
    unfold hostStep at h
    split at h
    · next hi =>
      exfalso
      have hi' : s.inputs = [] := hi
      unfold nextAgent at hn
      simp [hi'] at hn
    · next i rest hi => exact .inr (.inr ⟨i, rest, hn, hi, h⟩)

/-- With the host to move, a step performs the first input. -/
theorem step_of_host {s : State} {i : Input} {rest : List Input} (ha : nextAgent s = some .host)
    (hi : s.inputs = i :: rest) : step s = perform i { takeTurn s with inputs := rest } := by
  unfold step
  rw [ha]
  simp [hostStep, hi]

/-- With the engine to move, a step is the engine's. -/
theorem step_of_engine {s : State} (ha : nextAgent s = some .engine) : step s = engineStep (takeTurn s) := by
  unfold step
  rw [ha]

/-- With no input, the engine moves while it is busy. -/
theorem nextAgent_no_input {s : State} (h : s.inputs = []) (hb : busy s = true) : nextAgent s = some .engine := by
  simp [nextAgent, h, hb]

/-- A turn of the host's is the host's when it has an input. -/
theorem nextAgent_host_turn {s : State} {i : Input} {rest : List Input} {turns : List Agent}
    (hi : s.inputs = i :: rest) (ht : s.turns = .host :: turns) : nextAgent s = some .host := by
  simp [nextAgent, hi, ht]

/-- While the engine is idle the host moves when it has an input. -/
theorem nextAgent_idle {s : State} {i : Input} {rest : List Input} (hi : s.inputs = i :: rest)
    (hb : busy s = false) : nextAgent s = some .host := by
  simp [nextAgent, hi, hb]

end Sys2Proof.Machine
end

