-- ==== Sys2Proof/Tests/Slice0.lean ====
section
/-! SUPPORT. The model's own tests, and for every statement of the obligations file that has hypotheses a witness that
meets them. The expected values are those of `spec/95_test_vectors.md` (ids in the docstrings) or are worked out by hand
from a rule's table. Each test is about one step. -/

namespace Sys2Proof.Machine

/-! ### Small states -/

/-- The next state of an outcome. -/
def nextOf : Host.Outcome State Fault Refusal → Option State
  | .next t => some t
  | _ => none

/-- The refusal of an outcome. -/
def refusalOf : Host.Outcome State Fault Refusal → Option Refusal
  | .refused r => some r
  | _ => none

/-- The fault of an outcome. -/
def faultOf : Host.Outcome State Fault Refusal → Option Fault
  | .fault f => some f
  | _ => none

/-- The ROM of the spec's test table T1. -/
def romT1 : Rom := { table := flatTable, wf := flatTable_ok }

/-- After reset, with T1 in the ROM and every host address admitted. -/
def base : State := { State.reset with rom := romT1, regions := [{ base := 0#32, size := 2 ^ 32 }] }

/-- Some nodes of the tree of the spec's test table T2: the chain 512 to 500, the leaves on it, 'M' and EOS. -/
def chainNode (i : Nat) : Node :=
  if i = 512 then .internal 0 511
  else if 500 ≤ i then .internal (BitVec.ofNat 10 (576 - i)) (BitVec.ofNat 10 (i - 1))
  else if 257 ≤ i then .internal 0 0
  else if i = 256 then .leaf 256 0xBFFFF 20
  else if i = 77 then .leaf 77 0xF9FFF 21
  else if 65 ≤ i ∧ i ≤ 76 then .leaf (BitVec.ofNat 9 i) (BitVec.ofNat 24 (2 ^ (i - 64) - 1)) (BitVec.ofNat 5 (i - 63))
  else .leaf (BitVec.ofNat 9 i) 0 1

/-- Tables of those nodes, with the LUT entries of T2 that the tests use. -/
def chainTab : Tables :=
  { node := tabulate 513 chainNode
    lut := tabulate 1024 fun v => if v = 0x3FF then 502 else if v = 0x155 then 65 else if v = 0x1FF then 73 else 0 }

/-- One leaf of T1's tree at its place: EOS `0x155/9`, and 'A' `0xAF/9`. -/
def leafTab : Tables :=
  { node := tabulate 513 fun i => if i = 256 then .leaf 256 0x155 9 else if i = 65 then .leaf 65 0xAF 9 else chainNode i
    lut := tabulate 1024 fun v => if v = 0x155 then 256 else if v = 0x0AF ∨ v = 0x2AF then 65 else 0 }

/-- READY = 1 and a successful command before. -/
def readyS : State := { base with ready := true, done := true, tab := builtTables flatTable }

/-- A DECODE of `IN = 0x1000, 2` and `OUT = 0x2000, 4` in a given engine state, working registers fresh. -/
def running (e : EState) : State :=
  { base with estate := e, ready := true, tab := leafTab, mem := [(0x1000, 0x55#8), (0x1001, 0x01#8)]
              dec := { base.dec with lInBase := 0x1000#32, lInLen := 2#32, lOutBase := 0x2000#32, lOutCap := 4#32 } }

/-- That DECODE with the accumulator set. -/
def withBits (e : EState) (bits : Word) (cnt : BitVec 6) : State :=
  { running e with dec := { (running e).dec with bits := bits, bitcnt := cnt } }

/-- That DECODE with the accumulator and the node set, on T2's chain. -/
def atNode (e : EState) (bits : Word) (cnt : BitVec 6) (i : NodeIx) : State :=
  { running e with tab := chainTab, dec := { (running e).dec with bits := bits, bitcnt := cnt, node := i } }

/-! ### Well-formedness: each check refuses an ill-formed term (R61, R217, R7) -/

theorem test_wf_width : (Input.busWrite .w8 0x000#14 1#32).wf = false ∧ (Input.busRead .w64 0x004#14).wf = false
    ∧ perform (.busWrite .w8 0x000#14 1#32) base = .refused .busWidth
    ∧ perform (.busRead .w16 0x004#14) base = .refused .busWidth := by
  refine ⟨by decide, by decide, rfl, rfl⟩

theorem test_wf_alignment : (Input.busWrite .w32 0x002#14 1#32).wf = false ∧ (Input.busRead .w32 0x3FFF#14).wf = false
    ∧ perform (.busWrite .w32 0x002#14 1#32) base = .refused .busAlignment
    ∧ perform (.busRead .w32 0x3FFF#14) base = .refused .busAlignment := by
  refine ⟨by decide, by decide, rfl, rfl⟩

theorem test_wf_accepts : Instr.nop.wf = true ∧ Instr.init.wf = true ∧ Instr.decode.wf = true
    ∧ (Input.busRead .w32 0x3FFC#14).wf = true := by decide

/-- R7 item 1. -/
theorem test_freq_first_weight : freqOk (tabulate 257 fun _ => 1#32) = false := by
  have h : (tabulate 257 fun _ => 1#32 : FreqTable)[0] = 1#32 := rfl
  have h1 : (1#32 == freq0) = false := by decide
  rw [freqOk, h, h1]
  simp

/-- R7 item 2. -/
theorem test_freq_zero_weight :
    freqOk (tabulate 257 fun s => if s = 0 then freq0 else if s = 255 then 0#32 else 1#32) = false := by
  have h : (List.range 256).all (fun s => decide (1 ≤ (weight
      (tabulate 257 fun s => if s = 0 then freq0 else if s = 255 then 0#32 else 1#32) s).toNat)) = false := by
    decide +kernel
  rw [freqOk, h]
  simp

/-- R7 item 3: `2^30 + 2^32 - 1` and more is too much. -/
theorem test_freq_total_weight :
    freqOk (tabulate 257 fun s => if s = 0 then freq0 else if s = 1 then 0xFFFFFFFF#32 else 1#32) = false := by
  have h : decide (totalWeight (tabulate 257 fun s => if s = 0 then freq0 else if s = 1 then 0xFFFFFFFF#32 else 1#32)
      ≤ 2 ^ 32 - 1) = false := by decide +kernel
  rw [freqOk, h]
  simp

/-- R7: a failing table is refused, a passing one is in the ROM. -/
theorem test_configure : State.configure (tabulate 257 fun _ => 1#32) = .error .freqTable
    ∧ ∃ s, State.configure flatTable = .ok s ∧ s.freq = flatTable := by
  refine ⟨?_, { State.reset with rom := romT1 }, ?_, rfl⟩
  · rw [State.configure, Rom.check, dif_neg (by rw [test_freq_first_weight]; decide)]
  · rw [State.configure, Rom.check, dif_pos flatTable_ok]
    rfl

/-- R7 item 4 compares this number with 24. -/
theorem test_freq_max_length :
    maxLenOf [{ leaf := 0, code := 0, len := 3 }, { leaf := 1, code := 1, len := 25 }, { leaf := 2, code := 3, len := 2 }]
      = 25 := by decide

/-! ### Decoding, bit by bit from R81 and R82 -/

theorem test_decode_nop : decodeCmd 0b0000_0000_0000_0000_0000_0000_0000_0000#32 = .ok .nop := by rfl

theorem test_decode_init : decodeCmd 0b0000_0000_0000_0000_0000_0000_0000_0001#32 = .ok .init := by rfl

theorem test_decode_decode : decodeCmd 0b0000_0000_0000_0000_0000_0000_0000_0010#32 = .ok .decode := by rfl

/-- R82, K9: the reserved opcodes and the reserved bits. -/
theorem test_decode_rejects : decodeCmd 0x3#32 = .error .reservedOpcode ∧ decodeCmd 0xF#32 = .error .reservedOpcode
    ∧ decodeCmd 0x11#32 = .error .reservedBits ∧ decodeCmd 0x80000001#32 = .error .reservedBits
    ∧ decodeCmd 0xFFFFFFFF#32 = .error .reservedBits := by
  refine ⟨rfl, rfl, rfl, rfl, rfl⟩

/-! ### Commands -/

/-- The first step after reset runs the command placed. -/
theorem test_first_step :
    step (State.reset.withFetchWord 32 0) = .next (record (.write 0x000#14 0#32) State.reset)
      ∧ (nextOf (step (State.reset.withFetchWord 32 1))).map statusWord = some 0x00000101#32
      ∧ (nextOf (step (State.reset.withFetchWord 32 2))).map statusWord = some 0x0000004C#32 := by
  refine ⟨rfl, rfl, rfl⟩

/-- K2, TREE: STATUS 0x201, and T1's node 385 and symbol 86 (TB4, TB7). -/
theorem test_K2_tree : (nextOf (engineStep { base with estate := .tree })).map statusWord = some 0x00000201#32
    ∧ (mergeAll flatTable).nodes[385]? = some (.internal 383 384)
    ∧ (codePaths flatTable).head? = some { leaf := 86, code := 0x1FF, len := 9 } := by
  refine ⟨?_, ?_, flatTable_firstPath⟩
  · decide +kernel
  · have h := flatTable_tree
    simp only [Bool.and_eq_true, beq_iff_eq] at h
    rw [mergeAll_nodes]
    exact h.1.1.1.1.2

/-- K2, LUTB. -/
theorem test_K2_lutb : statusWord (stepLutb { base with estate := .lutb, result := 7#32 }) = 0x00000006#32
    ∧ (stepLutb { base with estate := .lutb, result := 7#32 }).result = 0#32 := by
  refine ⟨rfl, rfl⟩

/-- K3, K11: a DECODE started over an earlier failure. -/
theorem test_K11 :
    (nextOf (cmdWrite 2#32 { readyS with err := true, errClass := .truncated })).map statusWord
      = some 0x00000303#32 := by rfl

/-- K4, K5. -/
theorem test_K4 : cmdWrite 0#32 readyS = .next readyS ∧ cmdWrite 0#32 (running .dB) = .next (running .dB) := by
  refine ⟨rfl, rfl⟩

/-- K6. -/
theorem test_K6 : (nextOf (cmdWrite 1#32 (running .dB))).map statusWord = some 0x00000383#32
    ∧ statusWord (finish { running .dEmit with rejected := true } .success 0#32 .none) = 0x00000086#32
    ∧ statusWord (raise { running .dD with rejected := true } .truncated) = 0x0000009E#32 := by
  refine ⟨rfl, rfl, rfl⟩

/-- K7, K8, K9. -/
theorem test_K7 : (nextOf (cmdWrite 3#32 readyS)).map statusWord = some 0x0000005E#32
    ∧ (nextOf (cmdWrite 3#32 readyS)).map (·.result) = some 0xFFFFFFFF#32
    ∧ (nextOf (cmdWrite 3#32 base)).map statusWord = some 0x0000005C#32
    ∧ (nextOf (cmdWrite 0x11#32 readyS)).map statusWord = some 0x0000005E#32 := by
  refine ⟨rfl, rfl, rfl, rfl⟩

/-- K10. -/
theorem test_K10 : (nextOf (exec .decode base)).map statusWord = some 0x0000004C#32
    ∧ (nextOf (exec .decode base)).map (·.result) = some 0xFFFFFFFF#32 := by
  refine ⟨rfl, rfl⟩

/-- R72: regions that touch do not overlap, regions that share one byte do, also past 0xFFFFFFFF; an empty one does not. -/
theorem test_overlap : regionsOverlap 0x1000 0x10 0x1010 4 = false ∧ regionsOverlap 0x1000 0x11 0x1010 4 = true
    ∧ regionsOverlap 0xFFFFFFFE 4 0 1 = true ∧ regionsOverlap 0xFFFFFFFE 2 0 1 = false
    ∧ regionsOverlap 0x1000 0x10 0x1004 0 = false := by decide

/-! ### Registers -/

/-- K13: ignored but for the host's record. -/
theorem test_K13 : busWrite .w32 0x3000#14 7#32 readyS = .next (record (.write 0x3000#14 7#32) readyS)
    ∧ busWrite .w32 0x018#14 5#32 readyS = .next (record (.write 0x018#14 5#32) readyS) := by
  refine ⟨rfl, rfl⟩

/-- K14: the reserved offsets read 0. -/
theorem test_K14 : regRead readyS (regOf 0x01C#14) = 0#32 ∧ regRead readyS (regOf 0x804#14) = 0#32
    ∧ regRead readyS (regOf 0x2008#14) = 0#32 ∧ regRead readyS (regOf 0x000#14) = 0#32 := by
  refine ⟨rfl, rfl, rfl, rfl⟩

/-- TB6: `FREQ_W[0]`, `FREQ_W[256]`. -/
theorem test_TB6 : regRead base (regOf 0x400#14) = 0x40000000#32 ∧ regRead base (regOf 0x800#14) = 0x00000001#32 := by
  refine ⟨rfl, rfl⟩

/-- TB5, K15: node words, and the offsets of nodes 65 and 512 and of `LUT_W[0x3FF]`. -/
theorem test_TB5 : (Node.leaf 65 0xAF 9).word0 = 0x841FFFFF#32 ∧ (Node.leaf 65 0xAF 9).word1 = 0x090000AF#32
    ∧ (Node.leaf 256 0xBFFFF 20).word0 = 0x900FFFFF#32 ∧ (Node.leaf 256 0xBFFFF 20).word1 = 0x140BFFFF#32
    ∧ (Node.internal 74 501).word0 = 0x0007D44A#32 ∧ (Node.internal 0 511).word0 = 0x0007FC00#32
    ∧ regOf 0x1208#14 = .nodeW0 65 ∧ regOf 0x120C#14 = .nodeW1 65 ∧ regOf 0x1FB0#14 = .nodeW0 502
    ∧ regOf 0x2000#14 = .nodeW0 512 ∧ regOf 0x2004#14 = .nodeW1 512 ∧ regOf 0x3FFC#14 = .lutW 1023
    ∧ lutWord 502 = 0x000001F6#32 := by decide +kernel

/-- K16: a table read while READY = 0 is a draw. -/
theorem test_K16 : (nextOf (busRead .w32 0x1208#14 base)).map (fun t => (t.trace, t.draws))
    = some ([.read 0x1208#14 (Config.freeWord 0)], 1) := by rfl

/-- K17: the register changes at once, the running DECODE's copy does not. -/
theorem test_K17 : (nextOf (busWrite .w32 0x014#14 0#32 { running .dB with outCap := 4#32 })).map
    (fun t => (t.outCap, t.dec.lOutCap)) = some (0#32, 4#32) := by rfl

/-! ### The tables -/

/-- R103: equal frequencies keep their order. -/
theorem test_sort : (sortDesc [⟨1, 1⟩, ⟨2, 5⟩, ⟨3, 1⟩, ⟨4, 0x80000000⟩, ⟨5, 5⟩]).map (·.id) = [4, 2, 5, 1, 3] := by decide

/-- R104. -/
theorem test_bubble : (bubbleSort [⟨1, 1⟩, ⟨2, 5⟩, ⟨3, 1⟩, ⟨4, 0x80000000⟩, ⟨5, 5⟩]).map (·.id) = [4, 2, 5, 1, 3] := by
  decide

/-- R105, R107: lowest to child 1, second-lowest to child 0, the sum in its place; the lowest stays in `WL[n-1]` (R36). -/
theorem test_merge : mergePass { wl := [⟨0, 8⟩, ⟨1, 2⟩, ⟨2, 3⟩], dropped := [⟨7, 1⟩], next := 257, nodes := [] }
    = some { wl := [⟨0, 8⟩, ⟨257, 5⟩], dropped := [⟨1, 2⟩, ⟨7, 1⟩], next := 258, nodes := [.internal 2 1] } := by decide

/-- R36: the store is the list and then the dropped records. -/
theorem test_store : (Build.store { wl := [⟨512, 9⟩], dropped := [⟨1, 2⟩, ⟨7, 1⟩], next := 513, nodes := [] })[0] = ⟨512, 9⟩
    ∧ (Build.store { wl := [⟨512, 9⟩], dropped := [⟨1, 2⟩, ⟨7, 1⟩], next := 513, nodes := [] })[2] = ⟨7, 1⟩ := by
  decide +kernel

/-- R110: bit `d` is the slot taken at depth `d`. -/
theorem test_assign : assignCodes [.leaf 0 0 0, .leaf 1 0 0, .leaf 2 0 0, .internal 1 2, .internal 0 3] 9 4 0 0
    = [⟨2, 3, 2⟩, ⟨1, 1, 2⟩, ⟨0, 0, 1⟩] := by decide

/-- The LUT samples of T2 on its chain. -/
theorem test_lut : lutEntry chainTab.node 0x000 = 0 ∧ lutEntry chainTab.node 0x155 = 65
    ∧ lutEntry chainTab.node 0x2AF = 68 ∧ lutEntry chainTab.node 0x0FF = 72 ∧ lutEntry chainTab.node 0x1FF = 73
    ∧ lutEntry chainTab.node 0x3FF = 502 := by decide +kernel

/-! ### The decoder -/

/-- DT1 steps 1 to 4. -/
theorem test_DT1_refill : (stepDA (running .dA)).dec.candv = false
    ∧ (takeByte (running .dB)).dec.bits = 0x55#32 ∧ (takeByte (running .dB)).dec.bitcnt = 8#6
    ∧ (takeByte (takeByte (running .dB))).dec.bits = 0x155#32 ∧ (takeByte (takeByte (running .dB))).dec.bitcnt = 16#6
    ∧ wantsByte (takeByte (takeByte (running .dB))) = false := by decide

/-- DT1 steps 5 to 7. -/
theorem test_DT1_end : (stepDC (withBits .dC 0x155#32 16#6)).dec.node = 256#10
    ∧ (stepDD { withBits .dD 0x155#32 16#6 with dec.node := 256#10 }).dec.bitcnt = 7#6
    ∧ (stepDD { withBits .dD 0x155#32 16#6 with dec.node := 256#10 }).dec.bits = 0#32
    ∧ (nextOf (engineStep { withBits .dEmit 0#32 7#6 with dec.node := 256#10 })).map statusWord
        = some 0x00000006#32 := by decide +kernel

/-- V4's end: the EOS leaf of 9 bits with 4 there. -/
theorem test_V4 : statusWord (stepDD { withBits .dD 0x5#32 4#6 with dec.node := 256#10 }) = 0x0000001E#32
    ∧ (stepDD { withBits .dD 0x5#32 4#6 with dec.node := 256#10 }).result = 0xFFFFFFFF#32 := by decide +kernel

/-- V3's end: no byte is written. -/
theorem test_V3 : (nextOf (engineStep { withBits .dEmit 0#32 7#6 with dec.node := 65#10, dec.outPtr := 4#32 })).map
    (fun t => (statusWord t, t.mem)) = some (0x0000003E#32, (running .dEmit).mem) := by decide +kernel

/-- R170: 'A' goes to `OUT_BASE + OUT_PTR`. -/
theorem test_emit : (nextOf (engineStep { withBits .dEmit 0#32 7#6 with dec.node := 65#10, dec.outPtr := 3#32 })).map
    (fun t => (t.mem, t.dec.outPtr)) = some ((running .dEmit).mem ++ [(0x2003, 0x41#8)], 4#32) := by decide +kernel

/-- DT3, DT4: the internal entry consumes ten bits. -/
theorem test_DT3_resolve : (stepDD (atNode .dD 0x00EF9FFF#32 24#6 502)).dec.bits = 0x3BE7#32
    ∧ (stepDD (atNode .dD 0x00EF9FFF#32 24#6 502)).dec.bitcnt = 14#6
    ∧ (stepDD (atNode .dD 0x00FFEFFF#32 24#6 502)).dec.bits = 0x3FFB#32 := by decide +kernel

/-- DT4: the first and the last walk step. -/
theorem test_DT4_walk : (stepDWalk (atNode .dWalk 0x3FFB#32 14#6 502)).dec.node = 501#10
    ∧ (stepDWalk (atNode .dWalk 0x0FFE#32 12#6 500)).dec.node = 76#10
    ∧ (stepDWalk (atNode .dWalk 0x0FFE#32 12#6 500)).dec.bitcnt = 11#6
    ∧ (stepDWalk (atNode .dWalk 0x0FFE#32 12#6 500)).estate = .dEmit := by decide +kernel

/-- V24 and V25: the walk with no bit, and its last bit at an internal node. -/
theorem test_V24 : (stepDWalk (atNode .dWalk 0#32 0#6 502)).errClass = .truncated
    ∧ (stepDWalk (atNode .dWalk 1#32 1#6 502)).errClass = .truncated
    ∧ (stepDWalk (atNode .dWalk 0#32 1#6 502)).estate = .dEmit := by decide +kernel

/-! ### Memory and reset -/

/-- Writing what an unlisted byte reads as removes the entry; entries stay sorted. -/
theorem test_memory : Memory.write [(1, 5#8), (4, 6#8)] 3 9#8 = [(1, 5#8), (3, 9#8), (4, 6#8)]
    ∧ Memory.write [(1, 5#8), (4, 6#8)] 4 0#8 = [(1, 5#8)] ∧ Memory.read [(1, 5#8), (4, 6#8)] 4 = 6#8
    ∧ Memory.wf [(4, 6#8), (1, 5#8)] = false ∧ Memory.wf [(1, 0#8)] = false := by decide

/-- H1, K1: reset while a DECODE runs: STATUS 0, the output bytes stay. -/
theorem test_H1 : (nextOf (step { running .dB with mem := [(0x2000, 0x41#8)], inputs := [.reset], turns := [.host] })).map
    (fun t => (statusWord t, t.result, t.mem)) = some (0x00000000#32, 0#32, [(0x2000, 0x41#8)]) := by rfl

/-! ### Witnesses: the hypotheses of every statement are met -/

theorem flat86 : nodeAt (treeBuild flatTable) 86#10 = some (.leaf 86 0x1FF 9) := by
  obtain ⟨ps, hps⟩ : ∃ ps, codePaths flatTable = { leaf := 86, code := 0x1FF, len := 9 } :: ps := by
    have h := flatTable_firstPath
    cases hp : codePaths flatTable with
    | nil => simp [hp] at h
    | cons p ps => rw [hp] at h; exact ⟨ps, by rw [Option.some.inj h]⟩
  have hn : (mergeAll flatTable).nodes[86]? = some (pendingLeaf 86) := by
    rw [mergeAll_nodes, List.getElem?_append_left (by simp)]
    simp
  have hf : (codePaths flatTable).find? (fun p => p.leaf.toNat == 86) = some { leaf := 86, code := 0x1FF, len := 9 } := by
    rw [hps, List.find?_cons_of_pos (by decide)]
  rw [nodeAt_treeBuild flatTable 86#10 (by decide), show (86#10 : NodeIx).toNat = 86 from rfl, hn, Option.getD_some,
    pendingLeaf, finishNode, hf]
  rfl

theorem flat86_bits : codeBits (treeBuild flatTable) 86#10 = List.replicate 9 true := by
  rw [codeBits, flat86]
  decide

theorem witness_codecInv : CodecInv readyS ∧ readyS.ready = true ∧ busy readyS = false :=
  ⟨⟨fun _ => rfl, by decide, by decide, by decide⟩, rfl, rfl⟩

theorem witness_CmdWordsDecodeAsTheTableSays : decodeCmd 3#32 = .error .reservedOpcode
    ∧ decodeCmd 0x11#32 = .error .reservedBits ∧ busy base = false ∧ busy (running .dA) = true :=
  ⟨rfl, rfl, rfl, rfl⟩

theorem witness_EncodeAndDecodeAgree : Instr.decode.wf = true ∧ decodeCmd (encode .decode) = .ok .decode := ⟨rfl, rfl⟩

theorem witness_StepRunsTheDecodedCommand :
    HostNext { base with inputs := cmd .init } (.busWrite .w32 0x000#14 1#32) [] ∧ decodeCmd 1#32 = .ok .init
      ∧ decodeTableWord 32 2 = some .decode := ⟨⟨rfl, rfl⟩, rfl, rfl⟩

theorem witness_NopHasNoEffect : (1#32 : Word) ≠ 0 ∧ busy (running .dC) = true := ⟨by decide, rfl⟩

theorem witness_InitIsAcceptedWhenIdle : busy readyS = false := rfl

theorem witness_InitBuildsBothTables : busy base = false ∧ base.inputs = [] := ⟨rfl, rfl⟩

theorem witness_CommandWhileBusyIsDropped : busy (running .dWalk) = true ∧ busy { base with estate := .tree } = true :=
  ⟨rfl, rfl⟩

theorem witness_CommandWhileIdle : busy readyS = false ∧ (0x11#32 : Word) ≠ 0 ∧ (0x11#32 : Word) ≠ 1 ∧ (0x11#32 : Word) ≠ 2 :=
  ⟨rfl, by decide, by decide, by decide⟩

theorem witness_DecodeBeforeInitFailsNotReady : busy base = false ∧ base.ready = false := ⟨rfl, rfl⟩

theorem witness_DecodeStartsWhenReady :
    busy readyS = false ∧ readyS.ready = true ∧ buffersOverlap { readyS with inLen := 2, outBase := 2, outCap := 1 } = false :=
  ⟨rfl, rfl, by decide⟩

/-- Both sides of the equivalence: regions that overlap in their first byte. -/
theorem witness_DecodeRefusedIffRegionsShareAByte :
    exec .decode { readyS with inLen := 1#32, outCap := 1#32 } = .refused .bufferOverlap
      ∧ busy readyS = false ∧ readyS.ready = true := ⟨rfl, rfl, rfl⟩

theorem witness_IllegalCommandWord : (3#32 : Word) ≠ 0 ∧ (3#32 : Word) ≠ 1 ∧ (3#32 : Word) ≠ 2 ∧ busy base = false
    ∧ busy (running .dD) = true := ⟨by decide, by decide, by decide, rfl, rfl⟩

/-- Every clause: NOP, a dropped command, INIT, a DECODE that starts and one that fails. -/
theorem witness_CommandFrame :
    exec .nop base = .next base
      ∧ exec .decode (running .dA) = .next (reject (running .dA)) ∧ busy (running .dA) = true
      ∧ (nextOf (exec .init base)).isSome = true
      ∧ (nextOf (exec .decode readyS)).map (·.estate) = some .dA
      ∧ (nextOf (exec .decode base)).map (·.estate) = some .idle := ⟨rfl, rfl, rfl, rfl, rfl, rfl⟩

theorem witness_PreRefillLookup : (running .dA).estate = .dA ∧ ¬10 ≤ (running .dA).dec.bitcnt.toNat
    ∧ 10 ≤ (withBits .dA 0x155#32 10#6).dec.bitcnt.toNat := by decide

/-- Both clauses, at 23 and 24 bits and at the end of the input. -/
theorem witness_RefillTakesOneByteAStep :
    wantsByte (withBits .dB 0#32 23#6) = true
      ∧ admits (withBits .dB 0#32 23#6) ((running .dB).dec.lInBase + (running .dB).dec.inPtr) = true
      ∧ wantsByte (withBits .dB 0#32 24#6) = false
      ∧ wantsByte { running .dB with dec.inPtr := 2#32 } = false := by decide

theorem witness_LateLookup : (running .dC).estate = .dC := rfl

/-- All five cases, at 512 and 513, at 8 and 9 bits, at 9 and 10 bits. -/
theorem witness_ResolveTheLookedUpNode :
    512 < (atNode .dD 0#32 0#6 513).dec.node.toNat
      ∧ nodeAt leafTab.node 256#10 = some (.leaf 256 0x155 9) ∧ (8#6 : BitVec 6).toNat < (9#5 : BitVec 5).toNat
      ∧ (9#5 : BitVec 5).toNat ≤ (9#6 : BitVec 6).toNat
      ∧ nodeAt chainTab.node 512#10 = some (.internal 0 511) ∧ (9#6 : BitVec 6).toNat < 10 ∧ 10 ≤ (10#6 : BitVec 6).toNat := by
  decide +kernel

/-- An internal node with children 511 (internal), 0 (a leaf) and, above the array, `NONE`. -/
theorem witness_WalkTakesOneBitAStep :
    nodeAt chainTab.node 512#10 = some (.internal 0 511) ∧ isLeafAt chainTab.node 0 = true
      ∧ isLeafAt chainTab.node 511 = false
      ∧ (nodeAt (tabulate 513 fun _ => Node.internal noneIx 511) 512#10) = some (.internal noneIx 511)
      ∧ 512 < noneIx.toNat ∧ (0#6 : BitVec 6).toNat = 0 ∧ (1#6 : BitVec 6).toNat = 1 := by decide +kernel

/-- The three cases of the output step. -/
theorem witness_EmitEndsOverflowsOrWrites :
    (atNode .dEmit 0#32 0#6 256).dec.node = 256#10
      ∧ { (running .dEmit).dec with outPtr := 4#32 }.outPtr = (running .dEmit).dec.lOutCap
      ∧ (running .dEmit).dec.outPtr ≠ (running .dEmit).dec.lOutCap
      ∧ nodeAt (running .dEmit).tab.node 65#10 = some (.leaf 65 0xAF 9) ∧ MemInv (running .dEmit)
      ∧ admits (running .dEmit) ((running .dEmit).dec.lOutBase + (running .dEmit).dec.outPtr) = true := by
  decide +kernel

/-- A step in the tree phase, the LUT phase, a decode state, the output step and the idle state. -/
theorem witness_EngineFrame :
    (∃ t, engineStep { base with estate := .tree } = .next t) ∧ (∃ t, engineStep { base with estate := .lutb } = .next t)
      ∧ (∃ t, engineStep (running .dA) = .next t ∧ t.estate ≠ .idle)
      ∧ (∃ t, engineStep (atNode .dEmit 0#32 0#6 256) = .next t ∧ t.estate = .idle)
      ∧ ∃ t, engineStep base = .next t ∧ base.estate.decoding = false := by
  exact ⟨⟨_, rfl⟩, ⟨_, rfl⟩, ⟨_, rfl, by decide⟩, ⟨_, rfl, rfl⟩, ⟨_, rfl, rfl⟩⟩

/-- Both kinds of access, and the host going on in each. -/
theorem witness_UnadmittedAddressSticksTheEngine :
    (wantsByte { running .dB with regions := [] } = true
        ∧ admits { running .dB with regions := [] } (inputAddr (running .dB)) = false)
      ∧ ((atNode .dEmit 0#32 0#6 77).dec.node ≠ eosIx ∧ (running .dEmit).dec.outPtr ≠ (running .dEmit).dec.lOutCap
          ∧ (emitByte (atNode .dEmit 0#32 0#6 77)).isSome = true
          ∧ admits { running .dEmit with regions := [] } (outputAddr (running .dEmit)) = false)
      ∧ (nextOf (step { running .dB with regions := [], inputs := [rd 0x004#14] })).isSome = true := by
  refine ⟨by decide, by decide +kernel, rfl⟩

theorem witness_WindowReads : readyS.ready = true ∧ base.ready = false
    ∧ (∃ i < 513, (0x2004 : Nat) = 0x1000 + 8 * i ∨ (0x2004 : Nat) = 0x1004 + 8 * i)
    ∧ ∃ v < 1024, (0x3FFC : Nat) = 0x3000 + 4 * v := ⟨rfl, rfl, ⟨512, by decide⟩, ⟨1023, by decide⟩⟩

/-- The bounds of the three reserved ranges. -/
theorem witness_RegisterReads :
    ([0x01C#14, 0x3FC#14, 0x804#14, 0xFFC#14, 0x2008#14, 0x2FFC#14] : List Offset).all
      (fun a => wordAligned a && (regOf a == .reserved)) = true := by decide

theorem witness_RegisterWrites :
    ([0x004#14, 0x018#14, 0x3FFC#14] : List Offset).all
      (fun a => wordAligned a && (a.toNat == 0x004 || decide (0x018 ≤ a.toNat))) = true := by decide

theorem witness_RefusedAccesses : BusWidth.w8 ≠ .w32 ∧ (0x3FFF#14 : Offset).toNat % 4 ≠ 0
    ∧ buffersOverlap { readyS with inLen := 1#32, outCap := 1#32 } = true
    ∧ busy (running .dA) = true ∧ (statusWord (running .dA)).extractLsb' 8 2 = 3#2
    ∧ inInput (running .dA) 0x1001#32 = true ∧ inOutput (running .dA) 0x2003#32 = true := by decide

/-- Idle, and outside a running DECODE's buffers: the bytes just after both. -/
theorem witness_HostMemoryAccess : admits (running .dA) 0x2004#32 = true ∧ MemInv (running .dA)
    ∧ inInput (running .dA) 0x1002#32 = false ∧ inOutput (running .dA) 0x1002#32 = false
    ∧ inInput (running .dA) 0x2004#32 = false ∧ inOutput (running .dA) 0x2004#32 = false
    ∧ base.estate.decoding = false := by decide

theorem witness_ResetEvent : HostNext { running .dB with inputs := [.reset], turns := [.host] } .reset [] := ⟨rfl, rfl⟩

theorem witness_ResetStateWaits : readyS.estate = .idle ∧ readyS.inputs = [] := ⟨rfl, rfl⟩

theorem witness_WaitPollsStatus : HostNext { readyS with inputs := [.wait] } .wait [] ∧ busy readyS = false
    ∧ HostNext { running .dB with inputs := [.wait], turns := [.host] } .wait [] ∧ busy (running .dB) = true :=
  ⟨⟨rfl, rfl⟩, rfl, ⟨rfl, rfl⟩, rfl⟩

theorem witness_EngineIsNeverStarved : busy (running .dA) = true ∧ engineStuck (running .dA) = false
    ∧ (running .dA).turns = [] ∧ { running .dA with turns := [.host], inputs := [.wait] }.turns = .host :: [] :=
  ⟨rfl, rfl, rfl, rfl⟩

theorem witness_EveryStepKeepsMemoryCanonical :
    MemInv { running .dEmit with dec.node := 65#10 }
      ∧ (nextOf (step { running .dEmit with dec.node := 65#10 })).isSome = true := ⟨by decide, by decide +kernel⟩

theorem witness_EveryStepKeepsDecoderBounds :
    DecoderInv (running .dB) ∧ (nextOf (step (running .dB))).isSome = true := by
  refine ⟨?_, rfl⟩
  intro _
  decide

/-- READY set, cleared by INIT, and cleared by reset. -/
theorem witness_ReadyMeansTablesBuilt :
    (∃ t, step { base with estate := .lutb } = .next t ∧ t.ready = true)
      ∧ (∃ t, step { readyS with inputs := cmd .init } = .next t ∧ t.ready = false)
      ∧ (∃ t, step { readyS with inputs := [.reset] } = .next t ∧ t.ready = false)
      ∧ CodecInv { base with estate := .lutb, tab := builtTables flatTable } :=
  ⟨⟨_, rfl, rfl⟩, ⟨_, rfl, rfl⟩, ⟨_, rfl, rfl⟩, by decide, fun _ => rfl, by decide, by decide⟩

/-- A started DECODE; a step that ends with INVALID_CODE in STATUS begins with it there. -/
theorem witness_InvalidCodeIsUnreachable :
    CodecInv { readyS with estate := .dA, errClass := .invalidCode }
      ∧ NodeInv { readyS with estate := .dA, errClass := .invalidCode }
      ∧ (nextOf (step { readyS with estate := .dA, errClass := .invalidCode })).isSome = true
      ∧ (nextOf (engineStep { readyS with estate := .dA, errClass := .invalidCode })).map (·.errClass)
          = some .invalidCode :=
  ⟨⟨fun _ => rfl, by decide, by decide, fun _ => rfl⟩, by decide, rfl, rfl⟩

theorem witness_CandidateEqualsLateLookup :
    CandInv { withBits .dB 0x155#32 10#6 with dec.cand := 256#10, dec.candv := true }
      ∧ (nextOf (step { withBits .dB 0x155#32 10#6 with dec.cand := 256#10, dec.candv := true })).isSome = true
      ∧ CandInv { withBits .dC 0x155#32 10#6 with dec.cand := 256#10, dec.candv := true } := by
  refine ⟨?_, rfl, ?_⟩ <;> (intro _ _; decide +kernel)

theorem witness_RomNeverChanges : (nextOf (step (running .dA))).isSome = true := rfl

/-- Reset, the end of INIT, the end of a DECODE, a failed command. -/
theorem witness_ResultChangesOnlyAtFinish :
    (∃ t, step { readyS with result := 5#32, inputs := [.reset] } = .next t ∧ t.result ≠ 5#32)
      ∧ (∃ t, step { base with result := 5#32, estate := .lutb } = .next t ∧ t.result ≠ 5#32)
      ∧ (∃ t, step { atNode .dEmit 0#32 0#6 256 with result := 5#32 } = .next t ∧ t.result ≠ 5#32)
      ∧ ∃ t, step { base with inputs := cmd .decode } = .next t ∧ t.result ≠ base.result :=
  ⟨⟨_, rfl, by decide⟩, ⟨_, rfl, by decide⟩, ⟨_, rfl, by decide⟩, ⟨_, rfl, by decide⟩⟩

theorem witness_EngineWritesOnlyTheNextOutputByte :
    DecoderInv { running .dEmit with dec.node := 65#10 }
      ∧ (nextOf (engineStep { running .dEmit with dec.node := 65#10 })).map (fun t => memRead t 0x2000#32) = some 0x41#8
      ∧ memRead (running .dEmit) 0x2000#32 ≠ 0x41#8 := by
  refine ⟨?_, by decide +kernel, by decide⟩
  intro _
  decide

theorem witness_SortIsTheStableDescendingOrder :
    ([⟨2, 5⟩, ⟨1, 1⟩, ⟨3, 1⟩] : List Record).Pairwise (fun x y => y.freq.toNat ≤ x.freq.toNat)
      ∧ ([⟨2, 5⟩, ⟨1, 1⟩, ⟨3, 1⟩] : List Record).filter (fun r => r.freq.toNat == 1)
          = ([⟨1, 1⟩, ⟨2, 5⟩, ⟨3, 1⟩] : List Record).filter (fun r => r.freq.toNat == 1)
      ∧ sortDesc [⟨1, 1⟩, ⟨2, 5⟩, ⟨3, 1⟩] = ([⟨2, 5⟩, ⟨1, 1⟩, ⟨3, 1⟩] : List Record) := by decide

/-- For MergeSumsAreExact, CodeIsThePathFromTheRoot, CodesArePrefixFreeAndComplete and LutEntryIsTheWalk. -/
theorem witness_FreqWf : FreqWf flatTable ∧ (0 : Nat) ≤ 256 ∧ (256 : Nat) ≤ 256 ∧ (1023 : Nat) < 1024
    ∧ (List.replicate (maxLen flatTable) true).length = maxLen flatTable :=
  ⟨flatTable_ok, by decide, by decide, by decide, List.length_replicate ..⟩

/-- A table that passes and one that fails. -/
theorem witness_IllFormedTableIsRefused : FreqWf flatTable ∧ ¬FreqWf (tabulate 257 fun _ => 1#32) :=
  ⟨flatTable_ok, by rw [FreqWf, test_freq_first_weight]; decide⟩

theorem witness_TreeNodeKinds : (256 : Nat) < 513 ∧ (256 : Nat) ≤ 256 ∧ (257 : Nat) ≤ 257 ∧ (512 : Nat) < 513 := by decide

theorem witness_CompletedBuildIsATree : CodecInv readyS ∧ readyS.ready = true :=
  ⟨witness_codecInv.1, rfl⟩

theorem witness_SymbolZeroGetsTheOneBitCode : FreqWf flatTable ∧ totalWeight flatTable < 2 ^ 30 + 2 ^ 30
    ∧ (1 : Nat) < 257 := ⟨flatTable_ok, by decide +kernel, by decide⟩

/-- Two tables that differ in the EOS entry only. -/
theorem witness_TreeIgnoresTheEosEntry :
    (∀ (i : Nat) (_ : i < 256), flatTable[i] = (flatTable.set 256 7#32)[i]) ∧ flatTable[256] ≠ (flatTable.set 256 7#32)[256] := by
  refine ⟨fun i hi => ?_, ?_⟩
  · rw [Vector.getElem_set_ne _ _ (by omega)]
  · rw [Vector.getElem_set_self]
    decide

/-- The first clause: the code of symbol 86 begins the bits of 0x1FF and of 0x3FF. -/
theorem witness_LutResolvesShortCodes : FreqWf flatTable ∧ nodeAt (treeBuild flatTable) 86#10 = some (.leaf 86 0x1FF 9)
    ∧ (9#5 : BitVec 5).toNat ≤ 10 ∧ codeBits (treeBuild flatTable) 86#10 <+: bitsOf 10 0x1FF
    ∧ codeBits (treeBuild flatTable) 86#10 <+: bitsOf 10 0x3FF ∧ maxLen flatTable ≤ 10 := by
  refine ⟨flatTable_ok, flat86, by decide, ?_, ?_, le_trans flatTable_maxLen (by decide)⟩ <;>
    (rw [flat86_bits, ← List.isPrefixOf_iff_prefix]; decide)

/-- A DECODE just started, with good buffers: one input byte at 0, one output byte at 1. -/
def startedS : State :=
  { readyS with estate := .dA, done := false, dec := { readyS.dec with lInLen := 1#32, lOutBase := 1#32, lOutCap := 1#32 } }

/-- For EveryDecodeEnds and DecoderRunsAsTheDecodeFunction. -/
theorem witness_EveryDecodeEnds : CodecInv startedS ∧ MemInv startedS ∧ JustStarted startedS ∧ startedS.inputs = []
    ∧ BuffersGood startedS := by
  refine ⟨⟨fun _ => rfl, by decide, by decide, fun _ => rfl⟩, by decide, by decide, rfl, ?_, ?_⟩
  · intro a _
    simp only [admits, startedS, readyS, base, List.any_cons, List.any_nil, Bool.or_false, inRange, decide_eq_true_eq]
    exact (a - 0#32).isLt
  · intro a
    rintro ⟨h1, h2⟩
    have h1 : (a - 0#32).toNat < 1 := of_decide_eq_true h1
    have h2 : (a - 1#32).toNat < 1 := of_decide_eq_true h2
    bv_omega

/-- Enough room and too little. -/
theorem witness_DecodeOfAStreamGivesItsSymbols : FreqWf flatTable ∧ ([86#8] : List Byte).length ≤ 1
    ∧ 0 < ([86#8] : List Byte).length := ⟨flatTable_ok, by decide, by decide⟩

/-- A strict prefix of one byte of the stream of symbol 86. -/
theorem witness_DecodeOfAStrictPrefixIsTruncated : FreqWf flatTable
    ∧ 1 < (packBytes (streamBits (treeBuild flatTable) [86#8])).length := by
  refine ⟨flatTable_ok, ?_⟩
  have h : (streamBits (treeBuild flatTable) [86#8]).length
      = 9 + (codeBits (treeBuild flatTable) eosIx).length := by
    have h8 : ((86#8 : Byte).setWidth 10) = 86#10 := by decide
    simp only [streamBits, List.flatMap_cons, List.flatMap_nil, h8, flat86_bits, List.append_nil, List.length_append,
      List.length_replicate]
  simp only [packBytes, List.length_map, List.length_range, h]
  omega

end Sys2Proof.Machine
end

section
/-! The table check of R7 and the configuration: what the check says of a table, and what configuring with it gives. -/

namespace Sys2Proof.Machine

/-! ### The weights -/

@[simp] theorem weight_eos (f : FreqTable) : weight f 256 = 1#32 := if_pos rfl

theorem weight_of_ne_eos (f : FreqTable) {s : Nat} (h : s ≠ 256) : weight f s = f[s]?.getD 0#32 := if_neg h

theorem weight_eq_getElem (f : FreqTable) {i : Nat} (h : i < 257) (hi : i ≠ 256) : weight f i = f[i] := by
  rw [weight_of_ne_eos f hi, Vector.getElem?_eq_getElem h, Option.getD_some]

/-- The EOS leaf weighs 1, whatever its entry of the table holds (R102). -/
theorem totalWeight_eq_sum_add_one (f : FreqTable) :
    totalWeight f = ((List.range 256).map fun i => (f[i]?.getD 0#32).toNat).sum + 1 := by
  have hw : ∀ i ∈ List.range 256, (weight f i).toNat = (f[i]?.getD 0#32).toNat := fun i hi => by
    rw [weight_of_ne_eos f (List.mem_range.1 hi).ne]
  rw [totalWeight, List.range_succ, List.map_append, List.sum_append, List.map_congr_left hw]
  simp

/-- The check compares every weight below EOS with 1; the entry of symbol 0 meets that by its exact value (R7 items 1
and 2). -/
theorem weights_pos_iff {f : FreqTable} (h0 : f[0] = freq0) :
    (∀ s < 256, 1 ≤ (weight f s).toNat)
      ↔ ∀ (i : Nat) (h : i < 257), 1 ≤ i → i ≤ 255 → 1 ≤ f[i].toNat := by
  constructor
  · intro hall i hi _ hle
    rw [← weight_eq_getElem f hi (by omega)]
    exact hall i (by omega)
  · intro hall s hs
    rw [weight_eq_getElem f (by omega) (by omega)]
    rcases Nat.eq_zero_or_pos s with rfl | hpos
    · rw [h0]
      decide
    · exact hall s (by omega) hpos (by omega)

/-! ### The check -/

/-- The check's four items, in the order of R7. -/
theorem freqWf_iff (f : FreqTable) :
    FreqWf f ↔ f[0] = freq0 ∧ (∀ s < 256, 1 ≤ (weight f s).toNat) ∧ totalWeight f ≤ 2 ^ 32 - 1 ∧ maxLen f ≤ 24 := by
  simp only [FreqWf, freqOk, Bool.and_eq_true, beq_iff_eq, List.all_eq_true, List.mem_range, decide_eq_true_eq, and_assoc]

/-- The check in terms of the table's entries alone (R7). -/
theorem freqWf_iff_entries (f : FreqTable) :
    FreqWf f ↔ f[0] = freq0 ∧ (∀ (i : Nat) (h : i < 257), 1 ≤ i → i ≤ 255 → 1 ≤ f[i].toNat)
      ∧ ((List.range 256).map fun i => (f[i]?.getD 0#32).toNat).sum + 1 ≤ 2 ^ 32 - 1 ∧ maxLen f ≤ 24 := by
  rw [freqWf_iff, totalWeight_eq_sum_add_one]
  exact and_congr_right fun h0 => and_congr_left' (weights_pos_iff h0)

/-! ### Configuration -/

/-- Every ROM, and so every state's, has passed the check (R34). -/
theorem freq_wf (s : State) : FreqWf s.freq := s.rom.wf

theorem configure_of_wf {f : FreqTable} (h : FreqWf f) :
    State.configure f = .ok { State.reset with rom := { table := f, wf := h } } := by
  rw [State.configure, Rom.check, dif_pos h]

theorem configure_of_not_wf {f : FreqTable} (h : ¬FreqWf f) : State.configure f = .error .freqTable := by
  rw [State.configure, Rom.check, dif_neg h]

/-- Settles O60: the check is R7's four items, a table that passes is configured, and one that fails is in no ROM. -/
theorem illFormedTableIsRefused : Obligations.IllFormedTableIsRefused := by
  intro f
  refine ⟨freqWf_iff_entries f, fun h => ⟨_, configure_of_wf h, rfl, rfl⟩, fun h => ⟨configure_of_not_wf h, ?_⟩⟩
  rintro s rfl
  exact h (freq_wf s)

end Sys2Proof.Machine
end

section
/-! SUPPORT. What a step of the machine can do to the block: nothing but what the host sees, a step of the engine, a
command accepted, or a reset. The invariants of the block are proved case by case from this. -/

namespace Sys2Proof.Machine

/-! ### What the host's accesses leave alone -/

/-- The block's engine, tables and outcome registers are the same in both states. The parameter registers, REJECTED, host
memory and the model's own record of the host are left open. -/
structure BlockKept (s t : State) : Prop where
  estate : t.estate = s.estate := by rfl
  ready : t.ready = s.ready := by rfl
  done : t.done = s.done := by rfl
  err : t.err = s.err := by rfl
  errClass : t.errClass = s.errClass := by rfl
  result : t.result = s.result := by rfl
  rom : t.rom = s.rom := by rfl
  tab : t.tab = s.tab := by rfl
  bld : t.bld = s.bld := by rfl
  dec : t.dec = s.dec := by rfl
  regions : t.regions = s.regions := by rfl

theorem BlockKept.trans {s u t : State} (h : BlockKept s u) (h' : BlockKept u t) : BlockKept s t where
  estate := h'.estate.trans h.estate
  ready := h'.ready.trans h.ready
  done := h'.done.trans h.done
  err := h'.err.trans h.err
  errClass := h'.errClass.trans h.errClass
  result := h'.result.trans h.result
  rom := h'.rom.trans h.rom
  tab := h'.tab.trans h.tab
  bld := h'.bld.trans h.bld
  dec := h'.dec.trans h.dec
  regions := h'.regions.trans h.regions

theorem readAt_keeps_block (offset : Offset) (s : State) : BlockKept s (readAt offset s) := by
  rw [readAt_eq]
  exact {}

theorem waitPoll_keeps_block (s : State) : BlockKept s (waitPoll s) := by
  unfold waitPoll
  split
  · exact (readAt_keeps_block 0x004#14 s).trans {}
  · exact readAt_keeps_block 0x004#14 s

theorem hostMemWrite_keeps_block {a : Word} {v : Byte} {s t : State} (h : hostMemWrite a v s = .next t) :
    BlockKept s t := by
  unfold hostMemWrite at h
  split at h
  · cases h
  · split at h <;> cases h
    exact {}

theorem hostMemRead_keeps_block {a : Word} {s t : State} (h : hostMemRead a s = .next t) : BlockKept s t := by
  unfold hostMemRead at h
  split at h
  · cases h
  · split at h <;> cases h
    exact {}

/-- A register access that answers a next state is performed. -/
theorem checkedAccess_next {width : BusWidth} {offset : Offset} {k : Host.Outcome State Fault Refusal} {t : State}
    (h : checkedAccess width offset k = .next t) : width = .w32 ∧ wordAligned offset = true ∧ k = .next t := by
  unfold checkedAccess at h
  split at h
  · cases h
  · next hw =>
    split at h
    · cases h
    · next ha => exact ⟨not_not.1 hw, by simpa using ha, h⟩

/-! ### What a step does to the block -/

/-- Everything a step can do to the block. Whatever the host does first (a turn used, an access noted) keeps the block,
so the command or the reset acts on a state `u` with the same block. -/
inductive BlockStep (s : State) : State → Prop where
  | kept {t : State} (hk : BlockKept s t) : BlockStep s t
  | engine {t : State} (he : engineStep (takeTurn s) = .next t) : BlockStep s t
  | init {u : State} (hidle : s.estate = .idle) (hk : BlockKept s u) :
      BlockStep s { accept u with ready := false, estate := .tree }
  | failed {u : State} (cls : ErrClass) (hidle : s.estate = .idle) (hk : BlockKept s u) :
      BlockStep s (raise (accept u) cls)
  | started {u : State} (hidle : s.estate = .idle) (hready : s.ready = true) (hk : BlockKept s u) :
      BlockStep s (decodeStart (accept u))
  | reset {u : State} (hin : s.inputs.head? = some .reset) (hk : BlockKept s u) :
      BlockStep s (record .reset (hwReset u))

theorem not_busy_iff (s : State) : busy s = false ↔ s.estate = .idle := by simp [busy]

section
variable {s u t : State}

theorem exec_blockStep {i : Instr} (hk : BlockKept s u) (h : exec i u = .next t) : BlockStep s t := by
  have hidle (hb : busy u = false) : s.estate = .idle := hk.estate ▸ (not_busy_iff u).1 hb
  obtain ⟨-, rfl⟩ | ⟨-, -, rfl⟩ | ⟨-, hb, rfl⟩ | ⟨-, hb, -, rfl⟩ | ⟨-, hb, hr, -, rfl⟩ := exec_cases h
  · exact .kept hk
  · exact .kept (hk.trans {})
  · exact .init (hidle hb) hk
  · exact .failed _ (hidle hb) hk
  · exact .started (hidle hb) (hk.ready ▸ hr) hk

theorem illegalCmd_blockStep (hk : BlockKept s u) : BlockStep s (illegalCmd u) := by
  unfold illegalCmd
  split
  · exact .kept (hk.trans {})
  · next hb => exact .failed _ (hk.estate ▸ (not_busy_iff u).1 (by simpa using hb)) hk

theorem cmdWrite_blockStep {w : Word} (hk : BlockKept s u) (h : cmdWrite w u = .next t) : BlockStep s t := by
  obtain ⟨i, -, hx⟩ | ⟨e, -, rfl⟩ := cmdWrite_cases h
  · exact exec_blockStep hk hx
  · exact illegalCmd_blockStep hk

theorem regWrite_blockStep {r : Reg} {w : Word} (hk : BlockKept s u) (h : regWrite r w u = .next t) :
    BlockStep s t := by
  obtain ⟨-, hc⟩ | ⟨-, rfl⟩ | ⟨-, rfl⟩ | ⟨-, rfl⟩ | ⟨-, rfl⟩ | rfl := regWrite_cases h
  · exact cmdWrite_blockStep hk hc
  all_goals exact .kept (hk.trans {})

theorem perform_blockStep {i : Input} (hi : s.inputs.head? = some i) (hk : BlockKept s u)
    (h : perform i u = .next t) : BlockStep s t := by
  cases i with
  | busWrite width offset w =>
    obtain ⟨-, -, hw⟩ := checkedAccess_next h
    exact regWrite_blockStep (hk.trans {}) hw
  | busRead width offset =>
    obtain ⟨-, -, hr⟩ := checkedAccess_next h
    cases hr
    exact .kept (hk.trans (readAt_keeps_block offset u))
  | wait =>
    cases h
    exact .kept (hk.trans (waitPoll_keeps_block u))
  | memWrite a v => exact .kept (hk.trans (hostMemWrite_keeps_block h))
  | memRead a => exact .kept (hk.trans (hostMemRead_keeps_block h))
  | reset =>
    cases h
    exact .reset hi hk

end

theorem step_blockStep {s t : State} (h : step s = .next t) : BlockStep s t := by
  obtain ⟨-, -, rfl⟩ | ⟨-, he⟩ | ⟨i, rest, -, hi, hp⟩ := step_cases h
  · exact .kept {}
  · exact .engine he
  · exact perform_blockStep (by rw [hi]; rfl) {} hp

end Sys2Proof.Machine
end

section
/-! READY and the tables it vouches for (R26): what the engine's phases leave alone, what sets and clears READY, and that
every step keeps the codec invariant. -/

namespace Sys2Proof.Machine

/-! ### The phases of the engine -/

theorem decoding_iff (e : EState) : e.decoding = true ↔ e ≠ .idle ∧ e ≠ .tree ∧ e ≠ .lutb := by
  cases e <;> decide

section
variable {s t : State}

/-- A step of a running DECODE keeps READY, the ROM and the tables, and the DECODE goes on or has ended. -/
theorem decodeStep_frame (hd : s.estate.decoding = true) (h : engineStep s = .next t) :
    t.ready = s.ready ∧ t.rom = s.rom ∧ t.tab = s.tab ∧ (t.estate = .idle ∨ t.estate.decoding = true) := by
  obtain ⟨hidle, htree, hlutb⟩ := (decoding_iff _).1 hd
  obtain ⟨he, -⟩ | ⟨he, -⟩ | ⟨he, -⟩ | ⟨-, rfl⟩ | ⟨-, -, -, rfl⟩ | ⟨-, -, rfl⟩ | ⟨-, rfl⟩ | ⟨-, rfl⟩ | ⟨-, rfl⟩
    | ⟨-, -, rfl⟩ | ⟨-, -, -, rfl⟩ | ⟨b, -, -, -, -, -, rfl⟩ := engineStep_cases h
  · exact absurd he hidle
  · exact absurd he htree
  · exact absurd he hlutb
  · unfold stepDA
    split <;> exact ⟨rfl, rfl, rfl, .inr rfl⟩
  · exact ⟨rfl, rfl, rfl, .inr hd⟩
  · exact ⟨rfl, rfl, rfl, .inr rfl⟩
  · exact ⟨rfl, rfl, rfl, .inr rfl⟩
  · obtain ⟨-, hs⟩ | ⟨y, c, len, -, -, hs⟩ | ⟨y, c, len, -, -, hs⟩ | ⟨c0, c1, -, -, hs⟩ | ⟨c0, c1, -, -, hs⟩ :=
      stepDD_cases s <;> rw [hs]
    · exact ⟨rfl, rfl, rfl, .inl rfl⟩
    · exact ⟨rfl, rfl, rfl, .inl rfl⟩
    · exact ⟨rfl, rfl, rfl, .inr rfl⟩
    · exact ⟨rfl, rfl, rfl, .inl rfl⟩
    · exact ⟨rfl, rfl, rfl, .inr rfl⟩
  · obtain ⟨-, hs⟩ | ⟨-, -, hs⟩ | ⟨-, -, -, hs⟩ | ⟨-, -, -, -, hs⟩ | ⟨-, -, -, -, hs⟩ := stepDWalk_cases s <;> rw [hs]
    · exact ⟨rfl, rfl, rfl, .inl rfl⟩
    · exact ⟨rfl, rfl, rfl, .inl rfl⟩
    · exact ⟨rfl, rfl, rfl, .inr rfl⟩
    · exact ⟨rfl, rfl, rfl, .inl rfl⟩
    · exact ⟨rfl, rfl, rfl, .inr hd⟩
  · exact ⟨rfl, rfl, rfl, .inl rfl⟩
  · exact ⟨rfl, rfl, rfl, .inl rfl⟩
  · exact ⟨rfl, rfl, rfl, .inr rfl⟩

/-- The engine's step by phase: nothing while idle, the two builder steps, or a step of a running DECODE. -/
theorem engineStep_phases (h : engineStep s = .next t) :
    (s.estate = .idle ∧ t = s) ∨ (s.estate = .tree ∧ t = stepTree s) ∨ (s.estate = .lutb ∧ t = stepLutb s)
      ∨ s.estate.decoding = true := by
  by_cases hd : s.estate.decoding = true
  · exact .inr (.inr (.inr hd))
  · simp only [decoding_iff, not_and_or, not_not] at hd
    obtain he | he | he := hd <;> simp only [engineStep, he, Host.Outcome.next.injEq] at h
    · exact .inl ⟨he, h.symm⟩
    · exact .inr (.inl ⟨he, h.symm⟩)
    · exact .inr (.inr (.inl ⟨he, h.symm⟩))

end

@[simp] theorem stepLutb_estate (s : State) : (stepLutb s).estate = .idle := rfl
@[simp] theorem stepLutb_ready (s : State) : (stepLutb s).ready = true := rfl
@[simp] theorem stepLutb_rom (s : State) : (stepLutb s).rom = s.rom := rfl
@[simp] theorem stepLutb_tab (s : State) : (stepLutb s).tab = { s.tab with lut := lutBuild s.tab.node } := rfl
@[simp] theorem stepLutb_dec (s : State) : (stepLutb s).dec = s.dec := rfl

/-! ### The codec invariant -/

section
variable {s t : State}

theorem BlockKept.codecInv (hk : BlockKept s t) (h : CodecInv s) : CodecInv t := by
  simpa only [CodecInv, freq_eq, hk.estate, hk.ready, hk.tab, hk.rom] using h

theorem codecInv_of_idle (hidle : t.estate = .idle) (htab : t.ready = true → t.tab = builtTables t.freq) :
    CodecInv t :=
  ⟨htab, by simp [hidle], by simp [hidle], by simp [hidle, decoding_iff]⟩

theorem codecInv_of_decoding (hd : t.estate.decoding = true) (hready : t.ready = true)
    (htab : t.tab = builtTables t.freq) : CodecInv t := by
  obtain ⟨-, htree, hlutb⟩ := (decoding_iff _).1 hd
  exact ⟨fun _ => htab, fun he => absurd he hlutb, fun he => (he.elim htree hlutb).elim, fun _ => hready⟩

/-- The engine keeps the codec invariant: TREE builds the node array, LUTB the LUT from it, and a DECODE changes
neither. -/
theorem engineStep_keeps_codecInv (h : CodecInv s) (hs : engineStep s = .next t) : CodecInv t := by
  obtain ⟨htab, hnode, hbuild, hready⟩ := h
  obtain ⟨-, rfl⟩ | ⟨he, rfl⟩ | ⟨he, rfl⟩ | hd := engineStep_phases hs
  · exact ⟨htab, hnode, hbuild, hready⟩
  · have hr : s.ready = false := hbuild (.inl he)
    exact ⟨by simp [hr], fun _ => rfl, fun _ => hr, by simp [decoding_iff]⟩
  · exact codecInv_of_idle rfl fun _ => by simp [builtTables, hnode he]
  · obtain ⟨hr, hrom, ht, hidle | hd'⟩ := decodeStep_frame hd hs
    · exact codecInv_of_idle hidle fun hr' => by rw [ht, freq_eq, hrom, htab (hr ▸ hr')]
    · exact codecInv_of_decoding hd' (hr ▸ hready hd) (by rw [ht, freq_eq, hrom, htab (hready hd)])

theorem step_keeps_codecInv (h : CodecInv s) (hs : step s = .next t) : CodecInv t := by
  cases step_blockStep hs with
  | kept hk => exact hk.codecInv h
  | engine he => exact engineStep_keeps_codecInv (s := takeTurn s) h he
  | init _ hk => exact ⟨by simp, by simp, fun _ => rfl, by simp [decoding_iff]⟩
  | failed cls _ hk => exact codecInv_of_idle rfl (hk.codecInv h).1
  | started _ hready hk => exact codecInv_of_decoding rfl (hk.ready.trans hready) ((hk.codecInv h).1 (hk.ready.trans hready))
  | reset _ hk => exact codecInv_of_idle rfl (by simp)

/-! ### What sets and clears READY -/

theorem engineStep_ready (h : engineStep s = .next t) : (s.estate = .lutb ∧ t = stepLutb s) ∨ t.ready = s.ready := by
  obtain ⟨-, rfl⟩ | ⟨-, rfl⟩ | hl | hd := engineStep_phases h
  · exact .inr rfl
  · exact .inr rfl
  · exact .inl hl
  · exact .inr (decodeStep_frame hd h).1

/-- What a step does to READY: LUTB sets it, an accepted INIT and a reset clear it, every other step keeps it. -/
theorem step_ready (h : step s = .next t) :
    (s.estate = .lutb ∧ t.estate = .idle ∧ t.ready = true)
      ∨ (s.estate = .idle ∧ t.estate = .tree ∧ t.ready = false)
      ∨ (s.inputs.head? = some .reset ∧ t.ready = false)
      ∨ t.ready = s.ready := by
  cases step_blockStep h with
  | kept hk => exact .inr (.inr (.inr hk.ready))
  | engine he =>
    obtain ⟨hl, rfl⟩ | hr := engineStep_ready he
    · exact .inl ⟨hl, rfl, rfl⟩
    · exact .inr (.inr (.inr hr))
  | init hidle => exact .inr (.inl ⟨hidle, rfl, rfl⟩)
  | failed cls _ hk => exact .inr (.inr (.inr hk.ready))
  | started _ _ hk => exact .inr (.inr (.inr hk.ready))
  | reset hin => exact .inr (.inr (.inl ⟨hin, rfl⟩))

theorem execInit_clears_ready (hb : busy s = false) (h : exec .init s = .next t) : t.ready = false := by
  obtain ⟨hi, -⟩ | ⟨-, hbusy, -⟩ | ⟨-, -, rfl⟩ | ⟨hi, -⟩ | ⟨hi, -⟩ := exec_cases h
  · cases hi
  · simp [hb] at hbusy
  · rfl
  · cases hi
  · cases hi

theorem lutbStep_sets_ready (he : s.estate = .lutb) (h : engineStep s = .next t) : t.ready = true := by
  simp only [engineStep, he] at h
  cases h
  rfl

end

/-- Settles O38, by the codec invariant step by step, and by what a step does to READY. -/
theorem readyMeansTablesBuilt : Obligations.ReadyMeansTablesBuilt := by
  refine ⟨fun s t => step_keeps_codecInv, fun s t h => ?_, fun s t => execInit_clears_ready,
    fun s t => lutbStep_sets_ready, hwReset_ready⟩
  obtain ⟨hl, hidle, hr⟩ | ⟨hidle, htree, hr⟩ | ⟨hin, hr⟩ | hr := step_ready h
  · exact ⟨fun _ _ => ⟨hl, hidle⟩, by simp [hr]⟩
  · exact ⟨by simp [hr], fun _ _ => .inl ⟨hidle, htree⟩⟩
  · exact ⟨by simp [hr], fun _ _ => .inr hin⟩
  · constructor <;> intro hs ht <;> simp [hr, hs] at ht

end Sys2Proof.Machine
end

section
/-! The bounds of the decoder's registers (R39), kept by every step. -/

namespace Sys2Proof.Machine

/-- R39's bounds of the decoder's registers, whatever the engine's state. -/
abbrev DecoderRegs.Bounded (d : DecoderRegs) : Prop :=
  d.bitcnt.toNat ≤ 31 ∧ d.bits.toNat < 2 ^ d.bitcnt.toNat ∧ d.inPtr.toNat ≤ d.lInLen.toNat
    ∧ d.outPtr.toNat ≤ d.lOutCap.toNat

theorem decoderInv_iff (s : State) : DecoderInv s ↔ (s.estate.decoding = true → s.dec.Bounded) := Iff.rfl

/-! ### Consuming and taking bits -/

theorem dropBits_bitcnt_toNat {d : DecoderRegs} {n : Nat} (h : n ≤ d.bitcnt.toNat) :
    (dropBits d n).bitcnt.toNat = d.bitcnt.toNat - n := by
  simp only [dropBits]
  bv_omega

theorem dropBits_bits_toNat (d : DecoderRegs) (n : Nat) : (dropBits d n).bits.toNat = d.bits.toNat / 2 ^ n := by
  rw [dropBits, BitVec.toNat_ushiftRight, Nat.shiftRight_eq_div_pow]

/-- Consuming bits that are there leaves as many bits fewer in as many places fewer. -/
theorem dropBits_bounded {d : DecoderRegs} {n : Nat} (hd : d.Bounded) (hn : n ≤ d.bitcnt.toNat) :
    (dropBits d n).Bounded := by
  obtain ⟨hcnt, hbits, hin, hout⟩ := hd
  refine ⟨?_, ?_, hin, hout⟩
  · rw [dropBits_bitcnt_toNat hn]
    omega
  · rw [dropBits_bitcnt_toNat hn, dropBits_bits_toNat, Nat.div_lt_iff_lt_mul (Nat.two_pow_pos n), ← pow_add,
      Nat.sub_add_cancel hn]
    exact hbits

theorem walkTake_bounded {s : State} (hd : s.dec.Bounded) (h0 : s.dec.bitcnt ≠ 0#6) : (walkTake s).dec.Bounded :=
  dropBits_bounded (d := s.dec) (n := 1) hd (by bv_omega)

theorem wantsByte_iff (s : State) :
    wantsByte s = true ↔ s.dec.bitcnt.toNat < 24 ∧ s.dec.inPtr.toNat < s.dec.lInLen.toNat := by
  simp [wantsByte]

/-- A byte put above `n` bits makes `n + 8` bits of it (R162). -/
theorem byte_above_bits_lt {bits : Word} {n : Nat} (b : Byte) (hbits : bits.toNat < 2 ^ n) :
    (bits ||| (b.setWidth 32 <<< n)).toNat < 2 ^ (n + 8) := by
  rw [BitVec.toNat_or]
  refine Nat.or_lt_two_pow (hbits.trans (Nat.pow_lt_pow_right (by decide) (by omega))) ?_
  calc (b.setWidth 32 <<< n).toNat ≤ b.toNat * 2 ^ n := by
        rw [BitVec.toNat_shiftLeft, Nat.shiftLeft_eq]
        refine (Nat.mod_le _ _).trans (Nat.mul_le_mul_right _ ?_)
        rw [BitVec.toNat_setWidth]
        exact Nat.mod_le _ _
    _ < 2 ^ 8 * 2 ^ n := Nat.mul_lt_mul_of_pos_right b.isLt (Nat.two_pow_pos n)
    _ = 2 ^ (n + 8) := by rw [← pow_add, Nat.add_comm]

/-- The refill takes a byte only with room for it in the accumulator and a byte left in the input. -/
theorem takeByte_bounded {s : State} (hd : s.dec.Bounded) (hw : wantsByte s = true) : (takeByte s).dec.Bounded := by
  obtain ⟨hcnt, hbits, hin, hout⟩ := hd
  obtain ⟨hroom, hleft⟩ := (wantsByte_iff s).1 hw
  have hc : (takeByte s).dec.bitcnt.toNat = s.dec.bitcnt.toNat + 8 := by
    simp only [takeByte]
    bv_omega
  refine ⟨by omega, ?_, ?_, hout⟩
  · rw [hc]
    exact byte_above_bits_lt _ hbits
  · simp only [takeByte]
    bv_omega

theorem putByte_bounded {s : State} (b : Byte) (hd : s.dec.Bounded) (hroom : s.dec.outPtr ≠ s.dec.lOutCap) :
    (putByte s b).dec.Bounded := by
  obtain ⟨hcnt, hbits, hin, hout⟩ := hd
  refine ⟨hcnt, hbits, hin, ?_⟩
  simp only [putByte_dec]
  bv_omega

/-! ### The steps -/

section
variable {s t : State}

theorem stepDD_bounded (hd : s.dec.Bounded) : (stepDD s).dec.Bounded := by
  obtain ⟨-, hs⟩ | ⟨y, c, len, -, -, hs⟩ | ⟨y, c, len, -, hn, hs⟩ | ⟨c0, c1, -, -, hs⟩ | ⟨c0, c1, -, hn, hs⟩ :=
    stepDD_cases s <;> rw [hs]
  · exact hd
  · exact hd
  · exact dropBits_bounded hd hn
  · exact hd
  · exact dropBits_bounded hd hn

theorem stepDWalk_bounded (hd : s.dec.Bounded) : (stepDWalk s).dec.Bounded := by
  obtain ⟨-, hs⟩ | ⟨-, -, hs⟩ | ⟨h0, -, -, hs⟩ | ⟨h0, -, -, -, hs⟩ | ⟨h0, -, -, -, hs⟩ := stepDWalk_cases s <;> rw [hs]
  · exact hd
  · exact hd
  · exact walkTake_bounded hd h0
  · exact walkTake_bounded hd h0
  · exact walkTake_bounded hd h0

/-- Every engine step keeps the bounds, also the one that ends the command. -/
theorem engineStep_bounded (hd : s.dec.Bounded) (h : engineStep s = .next t) : t.dec.Bounded := by
  obtain ⟨-, rfl⟩ | ⟨-, rfl⟩ | ⟨-, rfl⟩ | ⟨-, rfl⟩ | ⟨-, hw, -, rfl⟩ | ⟨-, -, rfl⟩ | ⟨-, rfl⟩ | ⟨-, rfl⟩ | ⟨-, rfl⟩
    | ⟨-, -, rfl⟩ | ⟨-, -, -, rfl⟩ | ⟨b, -, -, hroom, -, -, rfl⟩ := engineStep_cases h
  · exact hd
  · exact hd
  · exact hd
  · unfold stepDA
    split <;> exact hd
  · exact takeByte_bounded hd hw
  · exact hd
  · exact hd
  · exact stepDD_bounded hd
  · exact stepDWalk_bounded hd
  · exact hd
  · exact hd
  · exact putByte_bounded b hd hroom

/-- The engine never starts a DECODE of itself. -/
theorem decoding_of_engineStep (h : engineStep s = .next t) (ht : t.estate.decoding = true) :
    s.estate.decoding = true := by
  obtain ⟨-, rfl⟩ | ⟨-, rfl⟩ | ⟨-, rfl⟩ | hd := engineStep_phases h
  · exact ht
  · cases ht
  · cases ht
  · exact hd

theorem engineStep_keeps_decoderInv (h : DecoderInv s) (hs : engineStep s = .next t) : DecoderInv t :=
  fun ht => engineStep_bounded (h (decoding_of_engineStep hs ht)) hs

/-- A DECODE starts with an empty accumulator and nothing taken or written (R160). -/
theorem decodeStart_bounded (s : State) : (decodeStart s).dec.Bounded := by
  simp [decodeStart, DecoderRegs.Bounded]

end

/-- Settles O37: the engine keeps the bounds, a started DECODE has them, and after any other command or a reset no DECODE
runs. -/
theorem everyStepKeepsDecoderBounds : Obligations.EveryStepKeepsDecoderBounds := by
  intro s t h hs
  cases step_blockStep hs with
  | kept hk => simpa only [DecoderInv, hk.estate, hk.dec] using h
  | engine he => exact engineStep_keeps_decoderInv (s := takeTurn s) h he
  | init => exact fun hd => by cases hd
  | failed cls => exact fun hd => by cases hd
  | started => exact fun _ => decodeStart_bounded _
  | reset => exact fun hd => by cases hd

end Sys2Proof.Machine
end

section
/-! The tree that the merge loop makes (R101, R105 to R108): its nodes and the working list as one partition of the ids
in use. -/

namespace Sys2Proof.Machine

open scoped List

/-! ### Children -/

/-- The children of a node. -/
def Node.children : Node → List Nat
  | .leaf _ _ _ => []
  | .internal c0 c1 => [c0.toNat, c1.toNat]

theorem mem_children {n : Node} {j : Nat} :
    j ∈ n.children ↔ ∃ c0 c1, n = .internal c0 c1 ∧ (c0.toNat = j ∨ c1.toNat = j) := by
  cases n with
  | leaf y c len => simp [Node.children]
  | internal d0 d1 =>
    constructor
    · intro hj
      exact ⟨d0, d1, rfl, by simpa [Node.children, eq_comm] using hj⟩
    · rintro ⟨c0, c1, hc, hj⟩
      cases hc
      simpa [Node.children, eq_comm] using hj

/-- The children of all nodes of an array, in order. -/
def childIds (nodes : List Node) : List Nat := nodes.flatMap Node.children

theorem childIds_append_internal (nodes : List Node) (c0 c1 : NodeIx) :
    childIds (nodes ++ [.internal c0 c1]) = childIds nodes ++ [c0.toNat, c1.toNat] := by
  simp [childIds, Node.children]

theorem childIds_leaves (n : Nat) : childIds ((List.range n).map pendingLeaf) = [] := by
  simp [childIds, pendingLeaf, Node.children]

theorem exists_parent_of_mem_childIds {nodes : List Node} {j : Nat} (h : j ∈ childIds nodes) :
    ∃ (i : Nat) (n : Node), nodes[i]? = some n ∧ j ∈ n.children := by
  obtain ⟨n, hn, hj⟩ := List.mem_flatMap.1 h
  obtain ⟨i, hi⟩ := List.mem_iff_getElem?.1 hn
  exact ⟨i, n, hi, hj⟩

/-- With no id twice among all children, a node has one parent. -/
theorem parent_unique {nodes : List Node} (hnd : (childIds nodes).Nodup) {i k j : Nat} {n m : Node}
    (hn : nodes[i]? = some n) (hm : nodes[k]? = some m) (hjn : j ∈ n.children) (hjm : j ∈ m.children) : i = k := by
  obtain ⟨hi, rfl⟩ := List.getElem?_eq_some_iff.1 hn
  obtain ⟨hk, rfl⟩ := List.getElem?_eq_some_iff.1 hm
  have hdisj := List.pairwise_iff_getElem.1 (List.nodup_flatMap.1 hnd).2
  obtain hlt | heq | hgt := Nat.lt_trichotomy i k
  · exact (hdisj i k hi hk hlt hjn hjm).elim
  · exact heq
  · exact (hdisj k i hk hi hgt hjm hjn).elim

/-! ### A pass of the merge loop -/

theorem insertDesc_perm (x : Record) (l : List Record) : (insertDesc x l).Perm (x :: l) := by
  induction l with
  | nil => exact .refl _
  | cons y ys ih =>
    rw [insertDesc]
    split
    · exact .refl _
    · exact (ih.cons y).trans (.swap x y ys)

theorem sortDesc_perm (l : List Record) : (sortDesc l).Perm l := by
  induction l with
  | nil => exact .refl _
  | cons x l ih => exact (insertDesc_perm x (sortDesc l)).trans (ih.cons x)

theorem exists_append_pair {α : Type} {l : List α} (h : 2 ≤ l.length) : ∃ r x y, l = r ++ [x, y] := by
  obtain ⟨x, y, hxy⟩ : ∃ x y, l.drop (l.length - 2) = [x, y] :=
    List.length_eq_two.1 (by rw [List.length_drop]; omega)
  exact ⟨l.take (l.length - 2), x, y, by rw [← hxy, List.take_append_drop]⟩

/-- A pass with two records left merges the last two of the sorted list (R105 to R107). -/
theorem mergePass_of_two {b : Build} (h : 2 ≤ b.wl.length) :
    ∃ l x y, sortDesc b.wl = l ++ [x, y]
      ∧ mergePass b = some { wl := l ++ [{ id := BitVec.ofNat 10 b.next, freq := x.freq + y.freq }]
                             dropped := y :: b.dropped
                             next := b.next + 1
                             nodes := b.nodes ++ [.internal x.id y.id] } := by
  obtain ⟨l, x, y, hl⟩ := exists_append_pair (l := sortDesc b.wl) (by rwa [sortDesc_length])
  refine ⟨l, x, y, hl, ?_⟩
  simp [mergePass, hl, lastPair_append, mergeTail_append]

/-! ### The invariant of the merge loop -/

/-- A forest under construction: leaves 0..256, then internal nodes with children below them; and every id in use is
either a child of exactly one node or in the working list. -/
structure Forest (b : Build) : Prop where
  length : b.nodes.length = b.next
  size : b.next + b.wl.length = 514
  ids : (childIds b.nodes ++ b.wl.map (·.id.toNat)).Perm (List.range b.next)
  leaf : ∀ i ≤ 256, b.nodes[i]? = some (pendingLeaf i)
  internal : ∀ i, 257 ≤ i → i < b.next →
    ∃ c0 c1, b.nodes[i]? = some (.internal c0 c1) ∧ c0.toNat < i ∧ c1.toNat < i

theorem initBuild_forest (f : FreqTable) : Forest (initBuild f) where
  length := by simp [initBuild]
  size := by simp [initBuild]
  ids := by
    have hid : (initBuild f).wl.map (·.id.toNat) = List.range 257 := by
      rw [initBuild, List.map_map]
      refine (List.map_congr_left fun i hi => ?_).trans (List.map_id _)
      exact Nat.mod_eq_of_lt (by have := List.mem_range.1 hi; omega)
    rw [hid, initBuild, childIds_leaves, List.nil_append]
  leaf := fun i hi => by simp [initBuild, Nat.lt_succ_of_le hi]
  internal := fun i hi hlt => absurd hlt (Nat.not_lt.2 hi)

theorem Forest.id_lt_next {b : Build} (hb : Forest b) {r : Record} (hr : r ∈ b.wl) : r.id.toNat < b.next :=
  List.mem_range.1 (hb.ids.subset (List.mem_append_right _ (List.mem_map_of_mem hr)))

/-- Two ids moved from the working list to the children, and the next id put into the list. -/
theorem mergedIds_perm {children rest : List Nat} {x y n : Nat} (h : (children ++ (rest ++ [x, y])) ~ List.range n) :
    (children ++ [x, y] ++ (rest ++ [n])) ~ List.range (n + 1) := by
  rw [List.range_succ, List.append_assoc]
  calc children ++ ([x, y] ++ (rest ++ [n]))
    _ ~ children ++ (rest ++ ([x, y] ++ [n])) := (List.perm_append_comm_assoc _ _ _).append_left _
    _ = children ++ (rest ++ [x, y]) ++ [n] := by simp only [List.append_assoc]
    _ ~ List.range n ++ [n] := h.append_right _

/-- A merge takes two ids out of the working list and makes them children of the node whose id it puts there. -/
theorem mergePass_forest {b : Build} (hb : Forest b) (h2 : 2 ≤ b.wl.length) :
    ∃ b', mergePass b = some b' ∧ Forest b' ∧ b'.wl.length + 1 = b.wl.length ∧ b'.next = b.next + 1 := by
  obtain ⟨l, x, y, hl, hp⟩ := mergePass_of_two h2
  obtain ⟨hlen, -⟩ := mergePass_lengths hp
  have hperm : (l ++ [x, y]).Perm b.wl := hl ▸ sortDesc_perm b.wl
  have hx := hb.id_lt_next (hperm.subset (by simp : x ∈ l ++ [x, y]))
  have hy := hb.id_lt_next (hperm.subset (by simp : y ∈ l ++ [x, y]))
  have hsize := hb.size
  have hlength := hb.length
  refine ⟨_, hp, ?_, hlen, rfl⟩
  exact
    { length := by simp [hlength]
      size := by simp only at hlen ⊢; omega
      ids := by
        have hold := ((hperm.map (·.id.toNat)).append_left (childIds b.nodes)).trans hb.ids
        have hnext : (BitVec.ofNat 10 b.next).toNat = b.next := Nat.mod_eq_of_lt (by omega)
        rw [List.map_append] at hold
        simp only [childIds_append_internal, List.map_append, List.map_cons, List.map_nil, hnext]
        exact mergedIds_perm hold
      leaf := fun i hi => by
        have hi' := hb.leaf i hi
        obtain ⟨hlt, -⟩ := List.getElem?_eq_some_iff.1 hi'
        rw [List.getElem?_append_left hlt, hi']
      internal := fun i hi hlt => by
        obtain hlt | rfl := Nat.lt_succ_iff_lt_or_eq.1 hlt
        · obtain ⟨c0, c1, hn, hc⟩ := hb.internal i hi hlt
          exact ⟨c0, c1, by rw [List.getElem?_append_left (hlength ▸ hlt), hn], hc⟩
        · exact ⟨x.id, y.id, by rw [← hlength, List.getElem?_concat_length], hx, hy⟩ }

/-- While there are passes left, each one is a merge. -/
theorem mergeLoop_forest {fuel : Nat} {b : Build} (hb : Forest b) (h : fuel < b.wl.length) :
    Forest (mergeLoop fuel b) ∧ (mergeLoop fuel b).wl.length + fuel = b.wl.length
      ∧ (mergeLoop fuel b).next = b.next + fuel := by
  induction fuel generalizing b with
  | zero => exact ⟨hb, rfl, rfl⟩
  | succ fuel ih =>
    obtain ⟨b', hp, hb', hlen, hnext⟩ := mergePass_forest hb (by omega)
    obtain ⟨hf, hl, hn⟩ := ih hb' (by omega)
    simp only [mergeLoop, hp]
    exact ⟨hf, by omega, by omega⟩

/-! ### The merged tree -/

section
variable (f : FreqTable)

theorem mergeAll_forest : Forest (mergeAll f) ∧ (mergeAll f).wl.length = 1 ∧ (mergeAll f).next = 513 := by
  have hlen : (initBuild f).wl.length = 257 := by simp [initBuild]
  obtain ⟨hb, hl, hn⟩ := mergeLoop_forest (fuel := 256) (initBuild_forest f) (by omega)
  exact ⟨hb, by rw [mergeAll]; omega, hn⟩

theorem mergeAll_nodes_length : (mergeAll f).nodes.length = 513 := by
  obtain ⟨hb, -, hn⟩ := mergeAll_forest f
  rw [hb.length, hn]

theorem mergeAll_exists_getElem? {i : Nat} (h : i < 513) : ∃ n, (mergeAll f).nodes[i]? = some n :=
  ⟨_, List.getElem?_eq_getElem (by rwa [mergeAll_nodes_length])⟩

theorem mergeAll_leaf {i : Nat} (h : i ≤ 256) : (mergeAll f).nodes[i]? = some (pendingLeaf i) :=
  (mergeAll_forest f).1.leaf i h

theorem mergeAll_internal {i : Nat} (h : 257 ≤ i) (hi : i < 513) :
    ∃ c0 c1, (mergeAll f).nodes[i]? = some (.internal c0 c1) ∧ c0.toNat < i ∧ c1.toNat < i := by
  obtain ⟨hb, -, hn⟩ := mergeAll_forest f
  exact hb.internal i h (hn ▸ hi)

variable {f} in
theorem lt_of_mergeAll_getElem? {i : Nat} {n : Node} (hn : (mergeAll f).nodes[i]? = some n) : i < 513 := by
  obtain ⟨hi, -⟩ := List.getElem?_eq_some_iff.1 hn
  rwa [mergeAll_nodes_length] at hi

variable {f} in
/-- Every child lies below its parent (R112). -/
theorem mergeAll_child_lt {i j : Nat} {n : Node} (hn : (mergeAll f).nodes[i]? = some n) (hj : j ∈ n.children) :
    j < i := by
  obtain hle | hgt := le_or_gt i 256
  · obtain rfl := Option.some.inj ((mergeAll_leaf f hle).symm.trans hn)
    cases hj
  · obtain ⟨c0, c1, hi, h0, h1⟩ := mergeAll_internal f hgt (lt_of_mergeAll_getElem? hn)
    obtain rfl := Option.some.inj (hi.symm.trans hn)
    obtain ⟨d0, d1, hd, rfl | rfl⟩ := mem_children.1 hj <;> cases hd
    · exact h0
    · exact h1

/-- The children of all nodes are the ids below the root, each one once (R32). -/
theorem mergeAll_childIds_perm : (childIds (mergeAll f).nodes).Perm (List.range 512) := by
  obtain ⟨hb, hl, hn⟩ := mergeAll_forest f
  obtain ⟨r, hr⟩ := List.length_eq_one_iff.1 hl
  have hids := hb.ids
  rw [hr, hn, List.map_singleton] at hids
  have hroot : 512 ∉ childIds (mergeAll f).nodes := fun hmem => by
    obtain ⟨i, n, hn, hj⟩ := exists_parent_of_mem_childIds hmem
    have := mergeAll_child_lt hn hj
    have := lt_of_mergeAll_getElem? hn
    omega
  have hrid : r.id.toNat = 512 := by
    have hmem := hids.symm.subset (List.mem_range.2 (by decide : 512 < 513))
    simpa [hroot, eq_comm] using hmem
  rw [hrid, List.range_succ] at hids
  exact (List.perm_append_right_iff _).1 hids

variable {f} in
theorem mergeAll_exists_parent {j : Nat} (hj : j < 512) :
    ∃ (i : Nat) (n : Node), (mergeAll f).nodes[i]? = some n ∧ j ∈ n.children :=
  exists_parent_of_mem_childIds ((mergeAll_childIds_perm f).symm.subset (List.mem_range.2 hj))

theorem mergeAll_childIds_nodup : (childIds (mergeAll f).nodes).Nodup :=
  (mergeAll_childIds_perm f).nodup_iff.2 List.nodup_range

end

end Sys2Proof.Machine
end

section
/-! The code assignment reaches every leaf of the merged tree (R110), and the finished node array is a tree (R32). -/

namespace Sys2Proof.Machine

/-! ### The depth-first walk -/

/-- A walk at an internal node contains the walk at each of its children, one level down. -/
theorem assignCodes_child_subset {nodes : List Node} {i c : NodeIx} {n : Node} (hn : nodes[i.toNat]? = some n)
    (hc : c.toNat ∈ n.children) (fuel code d : Nat) :
    ∃ code', assignCodes nodes fuel c code' (d + 1) ⊆ assignCodes nodes (fuel + 1) i code d := by
  obtain ⟨c0, c1, rfl, h0 | h1⟩ := mem_children.1 hc
  · obtain rfl := BitVec.eq_of_toNat_eq h0
    exact ⟨code, by simp [assignCodes, hn]⟩
  · obtain rfl := BitVec.eq_of_toNat_eq h1
    exact ⟨code ||| 1 <<< d, by simp [assignCodes, hn]⟩

theorem assignCodes_leaf {nodes : List Node} {i : NodeIx} {y : BitVec 9} {c : BitVec 24} {l : BitVec 5}
    (hn : nodes[i.toNat]? = some (.leaf y c l)) (fuel code d : Nat) :
    assignCodes nodes (fuel + 1) i code d = [{ leaf := i, code := code, len := d }] := by
  simp [assignCodes, hn]

/-- The walk only goes down. -/
theorem le_len_of_mem_assignCodes {nodes : List Node} {fuel : Nat} {i : NodeIx} {code d : Nat} {p : CodePath}
    (hp : p ∈ assignCodes nodes fuel i code d) : d ≤ p.len := by
  induction fuel generalizing i code d with
  | zero => simp [assignCodes] at hp
  | succ fuel ih =>
    rw [assignCodes] at hp
    split at hp
    · obtain hp | hp := List.mem_append.1 hp <;> exact Nat.le_of_succ_le (ih hp)
    · rw [List.mem_singleton.1 hp]
    · cases hp

theorem len_le_maxLenOf {paths : List CodePath} {p : CodePath} (hp : p ∈ paths) : p.len ≤ maxLenOf paths := by
  rw [maxLenOf, List.foldl_max]
  exact (List.le_max?_getD_of_mem (List.mem_map_of_mem hp)).trans (le_max_right _ _)

/-! ### Code paths of the merged tree -/

section
variable {f : FreqTable}

/-- The walk of the whole tree contains, for every node, a walk at it with fuel left: its parent's walk does. -/
theorem exists_assignCodes_subset (i : NodeIx) (hi : i.toNat ≤ 512) :
    ∃ fuel code d, i.toNat < fuel ∧ assignCodes (mergeAll f).nodes fuel i code d ⊆ codePaths f := by
  induction hk : 512 - i.toNat using Nat.strong_induction_on generalizing i with
  | _ k ih =>
    obtain heq | hlt := Nat.eq_or_lt_of_le hi
    · obtain rfl : i = rootIx := BitVec.eq_of_toNat_eq heq
      exact ⟨513, 0, 0, by decide, List.Subset.refl _⟩
    · obtain ⟨m, n, hn, hmem⟩ := mergeAll_exists_parent (f := f) hlt
      have hchild := mergeAll_child_lt hn hmem
      have hm := lt_of_mergeAll_getElem? hn
      have htoNat : (BitVec.ofNat 10 m).toNat = m := Nat.mod_eq_of_lt (by omega)
      obtain ⟨fuel, code, d, hfuel, hsub⟩ := ih (512 - m) (by omega) (BitVec.ofNat 10 m) (by omega) (by rw [htoNat])
      obtain ⟨fuel, rfl⟩ : ∃ n, fuel = n + 1 := ⟨fuel - 1, by omega⟩
      obtain ⟨code', hsub'⟩ := assignCodes_child_subset (nodes := (mergeAll f).nodes) (i := BitVec.ofNat 10 m)
        (by rw [htoNat, hn]) hmem fuel code d
      exact ⟨fuel, code', d + 1, by omega, List.Subset.trans hsub' hsub⟩

/-- Every leaf has a code path. -/
theorem exists_codePath (i : NodeIx) (hi : i.toNat ≤ 256) : ∃ p ∈ codePaths f, p.leaf = i := by
  obtain ⟨fuel, code, d, hfuel, hsub⟩ := exists_assignCodes_subset (f := f) i (by omega)
  obtain ⟨fuel, rfl⟩ : ∃ n, fuel = n + 1 := ⟨fuel - 1, by omega⟩
  rw [assignCodes_leaf (mergeAll_leaf f hi)] at hsub
  exact ⟨_, hsub (List.mem_singleton_self _), rfl⟩

/-- The root is internal, so every code has a bit. -/
theorem codePath_len_pos {p : CodePath} (hp : p ∈ codePaths f) : 1 ≤ p.len := by
  obtain ⟨c0, c1, hroot, -⟩ := mergeAll_internal f (i := rootIx.toNat) (by decide) (by decide)
  rw [codePaths, assignCodes, hroot] at hp
  obtain hp | hp := List.mem_append.1 hp <;> exact le_len_of_mem_assignCodes hp

/-! ### The finished node array -/

theorem treeBuild_getElem {i : Nat} {n : Node} (hn : (mergeAll f).nodes[i]? = some n) (h : i < 513) :
    (treeBuild f)[i] = finishNode (codePaths f) i n := by
  simp only [treeBuild, finishNodes, tabulate_getElem, hn, Option.getD_some]

/-- The code assignment keeps a leaf a leaf and an internal node as it is. -/
theorem children_finishNode (paths : List CodePath) (i : Nat) (n : Node) : (finishNode paths i n).children = n.children := by
  cases n with
  | leaf y c l =>
    rw [finishNode]
    split <;> rfl
  | internal c0 c1 => rfl

theorem children_treeBuild {i : Nat} {n : Node} (hn : (mergeAll f).nodes[i]? = some n) (h : i < 513) :
    (treeBuild f)[i].children = n.children := by
  rw [treeBuild_getElem hn h, children_finishNode]

/-- A leaf of the finished array has the code and length of a code path to it. -/
theorem treeBuild_leaf {i : Nat} (hi : i ≤ 256) :
    ∃ p ∈ codePaths f, p.leaf.toNat = i ∧
      (treeBuild f)[i] = .leaf (BitVec.ofNat 9 i) (BitVec.ofNat 24 p.code) (BitVec.ofNat 5 p.len) := by
  have htoNat : (BitVec.ofNat 10 i).toNat = i := Nat.mod_eq_of_lt (by omega)
  obtain ⟨q, hq, hqi⟩ := exists_codePath (f := f) (BitVec.ofNat 10 i) (by omega)
  obtain ⟨p, hp⟩ := Option.isSome_iff_exists.1 (List.find?_isSome.2 ⟨q, hq, by simp [hqi, htoNat]⟩ :
    ((codePaths f).find? fun p => p.leaf.toNat == i).isSome)
  refine ⟨p, List.mem_of_find?_eq_some hp, by simpa using List.find?_some hp, ?_⟩
  rw [treeBuild_getElem (mergeAll_leaf f hi) (by omega), pendingLeaf, finishNode, hp]

theorem treeBuild_internal {i : Nat} (hi : 257 ≤ i) (h : i < 513) :
    ∃ c0 c1, (treeBuild f)[i] = .internal c0 c1 ∧ c0.toNat < i ∧ c1.toNat < i := by
  obtain ⟨c0, c1, hn, hc⟩ := mergeAll_internal f hi h
  exact ⟨c0, c1, by rw [treeBuild_getElem hn h, finishNode], hc⟩

/-- Under R7 a code's length fits the length field, so the field is the length (R30, R111). -/
theorem codePath_len_toNat (hf : FreqWf f) {p : CodePath} (hp : p ∈ codePaths f) :
    (BitVec.ofNat 5 p.len).toNat = p.len := by
  obtain ⟨-, -, -, hmax⟩ := (freqWf_iff f).1 hf
  have hle : p.len ≤ maxLen f := len_le_maxLenOf hp
  exact Nat.mod_eq_of_lt (by omega)

theorem treeBuild_existsUnique_parent {j : Nat} (hj : j < 512) : ∃! m : Fin 513, j ∈ (treeBuild f)[m].children := by
  obtain ⟨i, n, hn, hmem⟩ := mergeAll_exists_parent (f := f) hj
  have hi := lt_of_mergeAll_getElem? hn
  refine ⟨⟨i, hi⟩, ?_, fun m hm => Fin.ext ?_⟩
  · simpa only [Fin.getElem_fin, children_treeBuild hn hi] using hmem
  · obtain ⟨n', hn'⟩ := mergeAll_exists_getElem? f m.isLt
    simp only [Fin.getElem_fin, children_treeBuild hn' m.isLt] at hm
    exact parent_unique (mergeAll_childIds_nodup f) hn' hn hm hmem

/-- What R32 says of a completed node array. -/
structure IsTree (node : Vector Node 513) : Prop where
  leaf_len_pos : ∀ (i : Nat) (h : i < 513) (y : BitVec 9) (c : BitVec 24) (len : BitVec 5),
    node[i] = .leaf y c len → 1 ≤ len.toNat
  child_lt : ∀ (i : Nat) (h : i < 513), ∀ j ∈ node[i].children, j < i
  existsUnique_parent : ∀ j < 512, ∃! m : Fin 513, j ∈ node[m].children

theorem treeBuild_isTree (hf : FreqWf f) : IsTree (treeBuild f) where
  leaf_len_pos := fun i h y c len hleaf => by
    obtain hle | hgt := le_or_gt i 256
    · obtain ⟨p, hp, -, hn⟩ := treeBuild_leaf (f := f) hle
      cases hleaf.symm.trans hn
      rw [codePath_len_toNat hf hp]
      exact codePath_len_pos hp
    · obtain ⟨c0, c1, hn, -⟩ := treeBuild_internal (f := f) hgt h
      cases hleaf.symm.trans hn
  child_lt := fun i h j hj => by
    obtain ⟨n, hn⟩ := mergeAll_exists_getElem? f h
    exact mergeAll_child_lt hn (children_treeBuild hn h ▸ hj)
  existsUnique_parent := fun j => treeBuild_existsUnique_parent

end

/-- Settles O49: while READY = 1 the node array is the one built from the ROM's table, which is a tree. -/
theorem completedBuildIsATree : Obligations.CompletedBuildIsATree := by
  intro s hs hready
  have htree : IsTree s.tab.node := by
    rw [hs.1 hready]
    exact treeBuild_isTree (freq_wf s)
  refine ⟨fun i h => ?_, fun j hj => ?_⟩
  · have hlt := htree.child_lt i h
    split
    · next hn => exact htree.leaf_len_pos i h _ _ _ hn
    · next hn => simpa [hn, Node.children] using hlt
  · simpa only [mem_children] using htree.existsUnique_parent j hj

end Sys2Proof.Machine
end

section
/-! The accesses and the command that are refused (R61, R71, R72, R217), each refusal said once for the operation that
gives it. -/

namespace Sys2Proof.Machine

/-! ### Register accesses -/

theorem wordAligned_eq_false_iff (offset : Offset) : wordAligned offset = false ↔ offset.toNat % 4 ≠ 0 := by
  simp [wordAligned]

theorem checkedAccess_of_width_ne {width : BusWidth} (h : width ≠ .w32) (offset : Offset)
    (k : Host.Outcome State Fault Refusal) : checkedAccess width offset k = .refused .busWidth :=
  if_pos h

theorem checkedAccess_of_unaligned {offset : Offset} (h : offset.toNat % 4 ≠ 0)
    (k : Host.Outcome State Fault Refusal) : checkedAccess .w32 offset k = .refused .busAlignment := by
  rw [checkedAccess, if_neg (not_not.2 rfl), if_pos ((wordAligned_eq_false_iff offset).2 h)]

/-! ### A DECODE that would start -/

theorem exec_decode_of_overlap {s : State} (hbusy : busy s = false) (hready : s.ready = true)
    (hover : buffersOverlap s = true) : exec .decode s = .refused .bufferOverlap := by
  simp [exec, execDecode, hbusy, hready, hover]

/-! ### A running DECODE's buffers -/

/-- `STATUS.PHASE` is the engine's phase (R83). -/
@[simp] theorem statusWord_phase (s : State) : (statusWord s).extractLsb' 8 2 = s.estate.phase := by
  unfold statusWord packStatus
  repeat rw [BitVec.extractLsb'_append_eq_of_le (by decide)]
  exact BitVec.extractLsb'_append_eq_right

/-- A DECODE is running exactly while STATUS says PHASE = 3 (R22). -/
theorem decoding_iff_statusWord_phase (s : State) :
    s.estate.decoding = true ↔ (statusWord s).extractLsb' 8 2 = 3#2 := by
  rw [statusWord_phase, EState.decoding, beq_iff_eq]

section
variable {s : State} {a : Word}

theorem hostMemWrite_of_decoding (hd : s.estate.decoding = true) (ha : inInput s a = true ∨ inOutput s a = true)
    (v : Byte) : hostMemWrite a v s = .refused .bufferDuty :=
  if_pos (by simpa [hd] using ha)

theorem hostMemRead_of_decoding (hd : s.estate.decoding = true) (ha : inOutput s a = true) :
    hostMemRead a s = .refused .bufferDuty :=
  if_pos (by simp [hd, ha])

end

/-- Settles O29, by the refusal each of the four operations gives; a DECODE runs while PHASE = 3. -/
theorem refusedAccesses : Obligations.RefusedAccesses := by
  refine ⟨fun s width a w hwidth => ?_, fun s a w ha => ?_, fun s => exec_decode_of_overlap,
    fun s a v _ hphase => ?_⟩
  · exact ⟨checkedAccess_of_width_ne hwidth a _, checkedAccess_of_width_ne hwidth a _⟩
  · exact ⟨checkedAccess_of_unaligned ha _, checkedAccess_of_unaligned ha _⟩
  · have hd := (decoding_iff_statusWord_phase s).2 hphase
    exact ⟨fun hin => hostMemWrite_of_decoding hd hin v, hostMemRead_of_decoding hd⟩

end Sys2Proof.Machine
end

section
/-! The CMD word's decoder by its outcomes, and the write of an illegal word (R81, R82, R202, R203, R209). -/

namespace Sys2Proof

/-! ### The two fields of a CMD word -/

theorem cmdReserved_append_cmdOp (w : Word) : cmdReserved w ++ cmdOp w = w :=
  (BitVec.extractLsb'_append_extractLsb'_eq_extractLsb' (Nat.zero_add 4).symm).trans BitVec.extractLsb'_eq_self

theorem eq_encode_iff {w : Word} {i : Instr} : w = encode i ↔ cmdReserved w = 0#28 ∧ cmdOp w = encodeOp i := by
  constructor
  · rintro rfl
    exact ⟨BitVec.extractLsb'_append_eq_left, BitVec.extractLsb'_append_eq_right⟩
  · rintro ⟨hr, hop⟩
    rw [encode, ← hr, ← hop, cmdReserved_append_cmdOp]

/-! ### The outcomes of the decoder -/

@[simp] theorem decodeCmd_encode (i : Instr) : decodeCmd (encode i) = .ok i := by
  cases i with
  | nop => exact Laws.RoundTrip.nop.2
  | init => exact Laws.RoundTrip.init.2
  | decode => exact Laws.RoundTrip.decode.2

theorem decodeCmd_eq_ok_iff {w : Word} {i : Instr} : decodeCmd w = .ok i ↔ w = encode i := by
  refine ⟨fun h => eq_encode_iff.2 ?_, fun h => h ▸ decodeCmd_encode i⟩
  unfold decodeCmd at h
  split_ifs at h with hr h0 h1 h2 <;> cases h
  · exact ⟨not_not.1 hr, h0⟩
  · exact ⟨not_not.1 hr, h1⟩
  · exact ⟨not_not.1 hr, h2⟩

theorem decodeCmd_eq_reservedBits_iff {w : Word} : decodeCmd w = .error .reservedBits ↔ cmdReserved w ≠ 0#28 := by
  unfold decodeCmd
  split_ifs with hr <;> simp [hr]

theorem decodeCmd_eq_reservedOpcode_iff {w : Word} :
    decodeCmd w = .error .reservedOpcode ↔ cmdReserved w = 0#28 ∧ 3 ≤ (cmdOp w).toNat := by
  unfold decodeCmd
  split_ifs with hr h0 h1 h2
  · simp [hr]
  · simp [h0]
  · simp [h1]
  · simp [h2]
  · have hop : 3 ≤ (cmdOp w).toNat := by bv_omega
    simp [not_not.1 hr, hop]

end Sys2Proof

namespace Sys2Proof.Machine

/-! ### The write of an illegal word -/

theorem cmdWrite_of_error {w : Word} {e : DecodeReject} (h : decodeCmd w = .error e) (s : State) :
    cmdWrite w s = .next (illegalCmd s) := by
  simp only [cmdWrite, h]

theorem illegalCmd_of_idle {s : State} (h : busy s = false) : illegalCmd s = raise (accept s) .illegalCmd :=
  if_neg (by simp [h])

theorem illegalCmd_of_busy {s : State} (h : busy s = true) : illegalCmd s = reject s := if_pos h

/-- Settles O1: `encode` gives the three words of the table, the two reserved rows are the decoder's two rejects, and an
illegal word is `illegalCmd`. -/
theorem cmdWordsDecodeAsTheTableSays : Obligations.CmdWordsDecodeAsTheTableSays := by
  refine fun w => ⟨decodeCmd_eq_ok_iff, decodeCmd_eq_ok_iff, decodeCmd_eq_ok_iff, decodeCmd_eq_reservedOpcode_iff,
    decodeCmd_eq_reservedBits_iff, fun e s he => ?_⟩
  rw [cmdWrite_of_error he]
  refine ⟨fun hb => ⟨_, rfl, ?_⟩, fun hb => ?_⟩
  · simp [illegalCmd_of_idle hb]
  · rw [illegalCmd_of_busy hb, reject]

end Sys2Proof.Machine
end

section
/-! The fields of the STATUS word and of the words of the NODE and LUT windows (R83 to R86). -/

namespace Sys2Proof.Machine

/-! ### STATUS -/

section
variable (s : State)

theorem statusWord_flags :
    (statusWord s).getLsbD 0 = busy s ∧ (statusWord s).getLsbD 1 = s.ready ∧ (statusWord s).getLsbD 2 = s.done
      ∧ (statusWord s).getLsbD 3 = s.err ∧ (statusWord s).getLsbD 7 = s.rejected := by
  simp only [statusWord, packStatus, BitVec.getLsbD_append]
  simp

@[simp] theorem statusWord_errClass : (statusWord s).extractLsb' 4 3 = s.errClass.code := by
  simp (disch := decide) only [statusWord, packStatus, BitVec.extractLsb'_append_eq_of_le]
  exact BitVec.extractLsb'_append_eq_right

@[simp] theorem statusWord_reserved : (statusWord s).extractLsb' 10 22 = 0#22 := by
  simp (disch := decide) only [statusWord, packStatus, BitVec.extractLsb'_append_eq_of_le]
  exact BitVec.extractLsb'_eq_self

theorem busy_eq_decide : busy s = decide (s.estate ≠ .idle) := by
  rw [Bool.eq_iff_iff]
  simp [busy]

end

/-- Settles O24, field by field; the phase is `statusWord_phase`. -/
theorem statusWordLayout : Obligations.StatusWordLayout := by
  intro s
  obtain ⟨hbusy, hready, hdone, herr, hrejected⟩ := statusWord_flags s
  refine ⟨hbusy.trans (busy_eq_decide s), hready, hdone, herr, ?_, hrejected, ?_, statusWord_reserved s⟩
  · rw [statusWord_errClass]
    cases s.errClass <;> rfl
  · rw [statusWord_phase]
    cases s.estate <;> rfl

/-! ### NODE_W0, NODE_W1 and LUT_W -/

theorem leaf_word0_fields (y : BitVec 9) (c : BitVec 24) (l : BitVec 5) :
    (Node.leaf y c l).word0.extractLsb' 0 10 = noneIx ∧ (Node.leaf y c l).word0.extractLsb' 10 10 = noneIx
      ∧ (Node.leaf y c l).word0.extractLsb' 20 9 = y ∧ (Node.leaf y c l).word0.extractLsb' 29 2 = 0#2
      ∧ (Node.leaf y c l).word0.getLsbD 31 = true := by
  simp (disch := decide) only [Node.word0, BitVec.extractLsb'_append_eq_of_le, BitVec.getLsbD_append]
  exact ⟨BitVec.extractLsb'_append_eq_right, BitVec.extractLsb'_append_eq_right, BitVec.extractLsb'_append_eq_right,
    BitVec.extractLsb'_append_eq_right, rfl⟩

theorem leaf_word1_fields (y : BitVec 9) (c : BitVec 24) (l : BitVec 5) :
    (Node.leaf y c l).word1.extractLsb' 0 24 = c ∧ (Node.leaf y c l).word1.extractLsb' 24 5 = l
      ∧ (Node.leaf y c l).word1.extractLsb' 29 3 = 0#3 := by
  simp (disch := decide) only [Node.word1, BitVec.extractLsb'_append_eq_of_le]
  exact ⟨BitVec.extractLsb'_append_eq_right, BitVec.extractLsb'_append_eq_right, BitVec.extractLsb'_eq_self⟩

theorem internal_word0_fields (c0 c1 : NodeIx) :
    (Node.internal c0 c1).word0.extractLsb' 0 10 = c0 ∧ (Node.internal c0 c1).word0.extractLsb' 10 10 = c1
      ∧ (Node.internal c0 c1).word0.extractLsb' 20 12 = 0#12 := by
  simp (disch := decide) only [Node.word0, BitVec.extractLsb'_append_eq_of_le]
  exact ⟨BitVec.extractLsb'_append_eq_right, BitVec.extractLsb'_append_eq_right, rfl⟩

theorem lutWord_eq_append (i : NodeIx) : lutWord i = 0#22 ++ i := BitVec.setWidth_eq_append (by decide)

/-- Settles O25, word by word: each is a concatenation of its fields. -/
theorem nodeAndLutWordLayout : Obligations.NodeAndLutWordLayout := by
  refine ⟨fun y c l => ?_, fun c0 c1 => ?_, fun i => ?_⟩
  · obtain ⟨hc0, hc1, hy, hz, hleaf⟩ := leaf_word0_fields y c l
    exact ⟨hc0, hc1, hy, hz, hleaf, leaf_word1_fields y c l⟩
  · obtain ⟨hc0, hc1, hz⟩ := internal_word0_fields c0 c1
    exact ⟨hc0, hc1, hz, rfl⟩
  · rw [lutWord_eq_append]
    exact ⟨BitVec.extractLsb'_append_eq_right, BitVec.extractLsb'_append_eq_left⟩

end Sys2Proof.Machine
end

section
/-! The sort (R103, R104): a list in descending order is known from its records of each frequency in their order, and
both `sortDesc` and the source's bubble sort keep these. -/

namespace Sys2Proof.Machine

/-! ### Lists with the same records of each frequency in the same order -/

/-- The two lists have the same records of each frequency, in the same order (R103 (b)). -/
def StableEq (l l' : List Record) : Prop :=
  ∀ n : Nat, l.filter (fun r => r.freq.toNat == n) = l'.filter (fun r => r.freq.toNat == n)

theorem StableEq.refl (l : List Record) : StableEq l l := fun _ => rfl

theorem StableEq.symm {l l' : List Record} (h : StableEq l l') : StableEq l' l := fun n => (h n).symm

theorem StableEq.trans {l l' l'' : List Record} (h : StableEq l l') (h' : StableEq l' l'') : StableEq l l'' :=
  fun n => (h n).trans (h' n)

theorem StableEq.append_right {l l' : List Record} (h : StableEq l l') (t : List Record) :
    StableEq (l ++ t) (l' ++ t) := fun n => by rw [List.filter_append, h n, List.filter_append]

theorem stableEq_cons_iff (x : Record) {l l' : List Record} : StableEq (x :: l) (x :: l') ↔ StableEq l l' := by
  refine forall_congr' fun n => ?_
  rw [List.filter_cons, List.filter_cons]
  split
  · rw [List.cons_inj_right]
  · rfl

/-- Two neighbours of different frequency may change places. -/
theorem stableEq_swap {x y : Record} (h : x.freq.toNat < y.freq.toNat) (l : List Record) :
    StableEq (y :: x :: l) (x :: y :: l) := fun n => by
  simp only [List.filter_cons, beq_iff_eq]
  split_ifs
  · omega
  all_goals rfl

theorem StableEq.perm {l l' : List Record} (h : StableEq l l') : l.Perm l' := by
  refine List.perm_iff_count.2 fun x => ?_
  have hcount : ∀ k : List Record, (k.filter (fun r => r.freq.toNat == x.freq.toNat)).count x = k.count x :=
    fun k => List.count_filter (beq_self_eq_true _)
  rw [← hcount, h, hcount]

theorem StableEq.mem_iff {l l' : List Record} (h : StableEq l l') {x : Record} : x ∈ l ↔ x ∈ l' := h.perm.mem_iff

theorem Desc.head_ge {x z : Record} {l : List Record} (h : Desc (x :: l)) (hz : z ∈ x :: l) :
    z.freq.toNat ≤ x.freq.toNat := by
  obtain rfl | hz := List.mem_cons.1 hz
  · exact Nat.le_refl _
  · exact List.rel_of_pairwise_cons h hz

/-- A list in descending order is known from its records of each frequency: the first record of each list has the
greatest frequency there is, so both are the first of that frequency. -/
theorem eq_of_desc_of_stableEq {l l' : List Record} (hl : Desc l) (hl' : Desc l') (h : StableEq l l') : l = l' := by
  induction l generalizing l' with
  | nil => exact h.perm.nil_eq
  | cons x l ih =>
    cases l' with
    | nil => exact h.perm.eq_nil
    | cons y l' =>
      have hfreq : y.freq.toNat = x.freq.toNat :=
        Nat.le_antisymm (hl.head_ge (h.mem_iff.2 List.mem_cons_self)) (hl'.head_ge (h.mem_iff.1 List.mem_cons_self))
      have hheads := h x.freq.toNat
      rw [List.filter_cons_of_pos (by simp), List.filter_cons_of_pos (by simpa using hfreq)] at hheads
      obtain rfl := (List.cons.inj hheads).1
      rw [ih hl.of_cons hl'.of_cons ((stableEq_cons_iff x).1 h)]

/-! ### SortDesc -/

theorem insertDesc_stableEq (x : Record) (l : List Record) : StableEq (insertDesc x l) (x :: l) := by
  induction l with
  | nil => exact .refl _
  | cons y ys ih =>
    rw [insertDesc]
    split
    · exact .refl _
    · next hlt => exact ((stableEq_cons_iff y).2 ih).trans (stableEq_swap (Nat.lt_of_not_le hlt) ys)

theorem sortDesc_stableEq (l : List Record) : StableEq (sortDesc l) l := by
  induction l with
  | nil => exact .refl _
  | cons x l ih => exact (insertDesc_stableEq x (sortDesc l)).trans ((stableEq_cons_iff x).2 ih)

theorem eq_sortDesc_of_desc_of_stableEq {l l' : List Record} (hl' : Desc l') (h : StableEq l' l) : l' = sortDesc l :=
  eq_of_desc_of_stableEq hl' (sortDesc_desc l) (h.trans (sortDesc_stableEq l).symm)

/-- Settles O45: both properties are kept by every insertion, and together they determine the list. -/
theorem sortIsTheStableDescendingOrder : Obligations.SortIsTheStableDescendingOrder :=
  fun l => ⟨sortDesc_desc l, sortDesc_stableEq l, fun _ => eq_sortDesc_of_desc_of_stableEq⟩

/-! ### The source's bubble sort -/

theorem bubblePass_swap {x y : Record} (h : x.freq.toNat < y.freq.toNat) (size : Nat) (l : List Record) :
    bubblePass (size + 2) (x :: y :: l) = (y :: (bubblePass (size + 1) (x :: l)).1, true) := by
  rw [bubblePass, if_pos h]

theorem bubblePass_keep {x y : Record} (h : y.freq.toNat ≤ x.freq.toNat) (size : Nat) (l : List Record) :
    bubblePass (size + 2) (x :: y :: l)
      = (x :: (bubblePass (size + 1) (y :: l)).1, (bubblePass (size + 1) (y :: l)).2) := by
  rw [bubblePass, if_neg (Nat.not_lt.2 h)]

/-- A pass that swapped nothing has found its records in order. -/
theorem bubblePass_unswapped (x : Record) (l t : List Record)
    (h : (bubblePass (l.length + 1) (x :: (l ++ t))).2 = false) :
    (bubblePass (l.length + 1) (x :: (l ++ t))).1 = x :: (l ++ t) ∧ Desc (x :: l) := by
  induction l generalizing x with
  | nil => exact ⟨rfl, List.pairwise_singleton _ _⟩
  | cons y l ih =>
    obtain hlt | hle := Nat.lt_or_ge x.freq.toNat y.freq.toNat
    · rw [List.length_cons, List.cons_append, bubblePass_swap hlt] at h
      cases h
    · rw [List.length_cons, List.cons_append, bubblePass_keep hle] at h ⊢
      obtain ⟨hsame, hdesc⟩ := ih y h
      exact ⟨congrArg (x :: ·) hsame, List.pairwise_cons.2 ⟨fun z hz => (hdesc.head_ge hz).trans hle, hdesc⟩⟩

/-- A pass carries a record of the least frequency to the end of its records, leaves those after them alone, and keeps
the order of records of equal frequency. -/
theorem bubblePass_last (x : Record) (l t : List Record) :
    ∃ r m, (bubblePass (l.length + 1) (x :: (l ++ t))).1 = r ++ m :: t ∧ StableEq (r ++ [m]) (x :: l)
      ∧ ∀ z ∈ x :: l, m.freq.toNat ≤ z.freq.toNat := by
  induction l generalizing x with
  | nil => exact ⟨[], x, rfl, .refl _, by simp⟩
  | cons y l ih =>
    obtain hlt | hle := Nat.lt_or_ge x.freq.toNat y.freq.toNat
    · obtain ⟨r, m, hpass, hstable, hleast⟩ := ih x
      rw [List.length_cons, List.cons_append, bubblePass_swap hlt]
      refine ⟨y :: r, m, congrArg (y :: ·) hpass, ((stableEq_cons_iff y).2 hstable).trans (stableEq_swap hlt l), ?_⟩
      simp only [List.forall_mem_cons] at hleast ⊢
      exact ⟨hleast.1, hleast.1.trans hlt.le, hleast.2⟩
    · obtain ⟨r, m, hpass, hstable, hleast⟩ := ih y
      rw [List.length_cons, List.cons_append, bubblePass_keep hle]
      refine ⟨x :: r, m, congrArg (x :: ·) hpass, (stableEq_cons_iff x).2 hstable, List.forall_mem_cons.2 ⟨?_, hleast⟩⟩
      exact (hleast y List.mem_cons_self).trans hle

/-- The outer loop, with the records after the first `l.length` already in place. -/
theorem bubbleLoop_eq_sortDesc {fuel : Nat} {l t : List Record} (hfuel : l.length < fuel) (ht : Desc t)
    (hlt : ∀ x ∈ l, ∀ y ∈ t, y.freq.toNat ≤ x.freq.toNat) : bubbleLoop fuel l.length (l ++ t) = sortDesc (l ++ t) := by
  induction fuel generalizing l t with
  | zero => exact absurd hfuel (Nat.not_lt_zero _)
  | succ fuel ih =>
    cases l with
    | nil => exact (sortDesc_of_desc ht).symm
    | cons x l =>
      rw [bubbleLoop, List.length_cons, List.cons_append]
      split
      · obtain ⟨r, m, hpass, hstable, hleast⟩ := bubblePass_last x l t
        have hlen : r.length = l.length := by simpa using hstable.perm.length_eq
        have hmem : ∀ z ∈ r, z ∈ x :: l := fun z hz => hstable.mem_iff.1 (List.mem_append_left _ hz)
        have hm : m ∈ x :: l := hstable.mem_iff.1 (List.mem_append_right _ (List.mem_singleton_self m))
        have hplaced : ∀ z ∈ r, ∀ y ∈ m :: t, y.freq.toNat ≤ z.freq.toNat := fun z hz =>
          List.forall_mem_cons.2 ⟨hleast z (hmem z hz), hlt z (hmem z hz)⟩
        have hfuel' : r.length < fuel := hlen ▸ Nat.lt_of_succ_lt_succ hfuel
        rw [hpass, Nat.add_sub_cancel, ← hlen, ih hfuel' (List.pairwise_cons.2 ⟨hlt m hm, ht⟩) hplaced]
        refine eq_sortDesc_of_desc_of_stableEq (sortDesc_desc _) ((sortDesc_stableEq _).trans ?_)
        simpa using hstable.append_right t
      · next hunswapped =>
        obtain ⟨hsame, hdesc⟩ := bubblePass_unswapped x l t (Bool.eq_false_of_not_eq_true hunswapped)
        rw [hsame]
        exact (sortDesc_of_desc (List.pairwise_append.2 ⟨hdesc, ht, hlt⟩)).symm

/-- Settles O46: the loop begins with no record in place. -/
theorem bubbleSortEqualsStableSort : Obligations.BubbleSortEqualsStableSort := by
  intro l
  have h := bubbleLoop_eq_sortDesc (Nat.lt_succ_self l.length) List.Pairwise.nil (by simp)
  rwa [List.append_nil] at h

end Sys2Proof.Machine
end

section
/-! The paths of bits from a node of the merged tree down to the leaves below it: what the shape of a binary tree says of
them, and that the walk of the code assignment (R110) takes them in order. -/

namespace Sys2Proof.Machine

/-! ### Numbers and their bits -/

theorem testBit_bitsToNat (l : List Bool) (k : Nat) : (bitsToNat l).testBit k = l[k]?.getD false := by
  induction l generalizing k with
  | nil => simp [bitsToNat]
  | cons b l ih =>
    rw [bitsToNat, Nat.add_comm, ← Nat.bit_val]
    cases k with
    | zero => simp
    | succ k => rw [Nat.testBit_bit_succ, ih, List.getElem?_cons_succ]

@[simp] theorem bitsOf_bitsToNat (l : List Bool) : bitsOf l.length (bitsToNat l) = l := by
  refine List.ext_getElem (by simp [bitsOf]) fun k _ hk => ?_
  simp [bitsOf, testBit_bitsToNat, hk]

theorem bitsToNat_lt (l : List Bool) : bitsToNat l < 2 ^ l.length := by
  refine Nat.lt_pow_two_of_testBit _ fun k hk => ?_
  rw [testBit_bitsToNat, List.getElem?_eq_none hk, Option.getD_none]

/-- One bit more is the bit above the number. -/
theorem bitsToNat_concat (l : List Bool) (b : Bool) : bitsToNat (l ++ [b]) = bitsToNat l ||| b.toNat <<< l.length := by
  refine Nat.eq_of_testBit_eq fun k => ?_
  rw [Nat.testBit_or, Nat.testBit_shiftLeft, testBit_bitsToNat, testBit_bitsToNat]
  obtain hlt | hle := Nat.lt_or_ge k l.length
  · simp [List.getElem?_append_left hlt, Nat.not_le.2 hlt]
  · rw [List.getElem?_append_right hle, List.getElem?_eq_none hle, Nat.testBit_bool_toNat]
    cases k - l.length <;> simp [hle]

/-! ### The paths below a node -/

/-- A path one bit longer at its beginning. -/
def consBit (b : Bool) (p : List Bool × NodeIx) : List Bool × NodeIx := (b :: p.1, p.2)

theorem consBit_injective (b : Bool) : Function.Injective (consBit b) := by
  rintro ⟨bs, j⟩ ⟨bs', j'⟩ h
  simpa [consBit] using h

/-- The paths below an internal node from those below the child in each slot, slot 1 first as in R110. -/
def joinPaths (ps : Bool → List (List Bool × NodeIx)) : List (List Bool × NodeIx) :=
  (ps true).map (consBit true) ++ (ps false).map (consBit false)

theorem mem_joinPaths {ps : Bool → List (List Bool × NodeIx)} {p : List Bool × NodeIx} :
    p ∈ joinPaths ps ↔ ∃ b, ∃ q ∈ ps b, consBit b q = p := by
  simp [joinPaths, or_comm]

/-- `ps` lists the paths of bits from node `i` down to the leaves below it, each with its leaf, in the order in which the
walk of R110 takes them. -/
inductive PathsBelow (nodes : List Node) : NodeIx → List (List Bool × NodeIx) → Prop
  | leaf {i : NodeIx} {y : BitVec 9} {c : BitVec 24} {l : BitVec 5} (hn : nodes[i.toNat]? = some (.leaf y c l)) :
      PathsBelow nodes i [([], i)]
  | internal {i c0 c1 : NodeIx} {ps : Bool → List (List Bool × NodeIx)}
      (hn : nodes[i.toNat]? = some (.internal c0 c1)) (hps : ∀ b, PathsBelow nodes (if b then c1 else c0) (ps b)) :
      PathsBelow nodes i (joinPaths ps)

namespace PathsBelow

variable {nodes : List Node} {i : NodeIx} {ps : List (List Bool × NodeIx)} {p q : List Bool × NodeIx}

theorem exists_mem (h : PathsBelow nodes i ps) : ∃ p, p ∈ ps := by
  induction h with
  | leaf hn => exact ⟨_, List.mem_singleton_self _⟩
  | internal hn hps ih =>
    obtain ⟨p, hp⟩ := ih true
    exact ⟨_, mem_joinPaths.2 ⟨true, p, hp, rfl⟩⟩

theorem nodup (h : PathsBelow nodes i ps) : ps.Nodup := by
  induction h with
  | leaf hn => exact List.nodup_singleton _
  | internal hn hps ih =>
    refine List.nodup_append'.2 ⟨(ih true).map (consBit_injective _), (ih false).map (consBit_injective _), ?_⟩
    intro p hp1 hp0
    obtain ⟨q, -, rfl⟩ := List.mem_map.1 hp1
    obtain ⟨q', -, hq'⟩ := List.mem_map.1 hp0
    simp [consBit] at hq'

/-- Every path ends at a leaf. -/
theorem isLeaf (h : PathsBelow nodes i ps) (hp : p ∈ ps) : ∃ y c l, nodes[p.2.toNat]? = some (.leaf y c l) := by
  induction h generalizing p with
  | leaf hn =>
    obtain rfl := List.mem_singleton.1 hp
    exact ⟨_, _, _, hn⟩
  | internal hn hps ih =>
    obtain ⟨b, q, hq, rfl⟩ := mem_joinPaths.1 hp
    exact ih b (p := q) hq

/-- No path is the beginning of another one. -/
theorem eq_of_isPrefix (h : PathsBelow nodes i ps) (hp : p ∈ ps) (hq : q ∈ ps) (hpq : p.1 <+: q.1) : p = q := by
  induction h generalizing p q with
  | leaf hn => rw [List.mem_singleton.1 hp, List.mem_singleton.1 hq]
  | internal hn hps ih =>
    obtain ⟨b, p, hp', rfl⟩ := mem_joinPaths.1 hp
    obtain ⟨b', q, hq', rfl⟩ := mem_joinPaths.1 hq
    obtain ⟨rfl, hpq'⟩ := List.cons_prefix_cons.1 hpq
    rw [ih b hp' hq' hpq']

/-- A bound on the paths below an internal node is 1 or more, and bounds the paths below its children by one less. -/
theorem joinPaths_length_le {ps : Bool → List (List Bool × NodeIx)} {c : Bool → NodeIx} {n : Nat}
    (hps : ∀ b, PathsBelow nodes (c b) (ps b)) (hlen : ∀ p ∈ joinPaths ps, p.1.length ≤ n) :
    ∃ m, n = m + 1 ∧ ∀ b, ∀ p ∈ ps b, p.1.length ≤ m := by
  have hcons : ∀ b, ∀ p ∈ ps b, p.1.length + 1 ≤ n := fun b p hp => hlen _ (mem_joinPaths.2 ⟨b, p, hp, rfl⟩)
  obtain ⟨p, hp⟩ := (hps true).exists_mem
  obtain ⟨m, rfl⟩ : ∃ m, n = m + 1 := ⟨n - 1, by have := hcons true p hp; omega⟩
  exact ⟨m, rfl, fun b p hp => Nat.le_of_succ_le_succ (hcons b p hp)⟩

/-- Every sequence of bits long enough begins with a path. -/
theorem exists_isPrefix (h : PathsBelow nodes i ps) {bits : List Bool} (hlen : ∀ p ∈ ps, p.1.length ≤ bits.length) :
    ∃ p ∈ ps, p.1 <+: bits := by
  induction h generalizing bits with
  | leaf hn => exact ⟨_, List.mem_singleton_self _, List.nil_prefix⟩
  | internal hn hps ih =>
    obtain ⟨m, hm, hlen⟩ := joinPaths_length_le hps hlen
    obtain ⟨b, bits, rfl⟩ := List.exists_cons_of_length_eq_add_one hm
    obtain rfl : bits.length = m := by simpa using hm
    obtain ⟨p, hp, hpre⟩ := ih b (hlen b)
    exact ⟨_, mem_joinPaths.2 ⟨b, p, hp, rfl⟩, List.cons_prefix_cons.2 ⟨rfl, hpre⟩⟩

/-- The paths fill the code space (Kraft's sum is 1), counted in sequences of `n` bits. -/
theorem sum_two_pow (h : PathsBelow nodes i ps) {n : Nat} (hlen : ∀ p ∈ ps, p.1.length ≤ n) :
    (ps.map fun p => 2 ^ (n - p.1.length)).sum = 2 ^ n := by
  induction h generalizing n with
  | leaf hn => simp
  | internal hn hps ih =>
    obtain ⟨m, rfl, hlen'⟩ := joinPaths_length_le hps hlen
    simp only [joinPaths, List.map_append, List.map_map, List.sum_append, Function.comp_def, consBit, List.length_cons,
      Nat.add_sub_add_right, ih true (hlen' true), ih false (hlen' false)]
    rw [Nat.pow_succ, Nat.mul_two]

end PathsBelow

/-! ### The walk of the code assignment -/

/-- The code path of a path that goes on from a node reached by `pre`: the bits are the code, their number the length. -/
def codePathOf (pre : List Bool) (p : List Bool × NodeIx) : CodePath :=
  { leaf := p.2, code := bitsToNat (pre ++ p.1), len := (pre ++ p.1).length }

theorem codePathOf_comp_consBit (pre : List Bool) (b : Bool) : codePathOf pre ∘ consBit b = codePathOf (pre ++ [b]) := by
  funext p
  simp [codePathOf, consBit]

/-- The walk at an internal node is the walk at each child, with the slot's bit put behind the bits so far (R110). -/
theorem assignCodes_internal {nodes : List Node} {i c0 c1 : NodeIx}
    (hn : nodes[i.toNat]? = some (.internal c0 c1)) (fuel : Nat) (pre : List Bool) :
    assignCodes nodes (fuel + 1) i (bitsToNat pre) pre.length
      = assignCodes nodes fuel c1 (bitsToNat (pre ++ [true])) (pre ++ [true]).length
        ++ assignCodes nodes fuel c0 (bitsToNat (pre ++ [false])) (pre ++ [false]).length := by
  simp [assignCodes, hn, bitsToNat_concat]

/-- The walk of R110 from a node gives each leaf below it the bits of its path as code and their number as length. -/
theorem exists_pathsBelow (f : FreqTable) {fuel : Nat} {i : NodeIx} (hi : i.toNat ≤ 512) (hfuel : i.toNat < fuel) :
    ∃ ps, PathsBelow (mergeAll f).nodes i ps
      ∧ ∀ pre, assignCodes (mergeAll f).nodes fuel i (bitsToNat pre) pre.length = ps.map (codePathOf pre) := by
  induction fuel generalizing i with
  | zero => exact absurd hfuel (Nat.not_lt_zero _)
  | succ fuel ih =>
    obtain hle | hgt := le_or_gt i.toNat 256
    · have hn := mergeAll_leaf f hle
      exact ⟨_, .leaf hn, fun pre => by simp [assignCodes_leaf hn, codePathOf]⟩
    · obtain ⟨c0, c1, hn, hlt0, hlt1⟩ := mergeAll_internal f hgt (by omega)
      have hchild : ∀ b : Bool, (if b then c1 else c0).toNat < i.toNat := by simp [hlt0, hlt1]
      choose ps hps hwalk using fun b => ih (i := if b then c1 else c0)
        ((hchild b).le.trans hi) ((hchild b).trans_le (Nat.le_of_lt_succ hfuel))
      refine ⟨_, .internal hn hps, fun pre => ?_⟩
      rw [assignCodes_internal hn, joinPaths, List.map_append, List.map_map, List.map_map, codePathOf_comp_consBit,
        codePathOf_comp_consBit]
      exact congrArg₂ (· ++ ·) (hwalk true _) (hwalk false _)

end Sys2Proof.Machine
end

section
/-! The codes of the finished node array (R91, R114): each leaf's code is its one path from the root. -/

namespace Sys2Proof.Machine

/-! ### Nodes and their child slots -/

section
variable (f : FreqTable)

theorem nodeAt_of_lt (node : Vector Node 513) {i : NodeIx} (h : i.toNat < 513) : nodeAt node i = some node[i.toNat] :=
  Vector.getElem?_eq_getElem h

theorem isLeafAt_treeBuild_iff {i : NodeIx} (hi : i.toNat ≤ 512) : isLeafAt (treeBuild f) i = true ↔ i.toNat ≤ 256 := by
  rw [isLeafAt, nodeAt_of_lt _ (Nat.lt_succ_of_le hi)]
  obtain hle | hgt := le_or_gt i.toNat 256
  · obtain ⟨p, -, -, hn⟩ := treeBuild_leaf (f := f) hle
    simp [hn, hle]
  · obtain ⟨c0, c1, hn, -⟩ := treeBuild_internal (f := f) hgt (Nat.lt_succ_of_le hi)
    simp [hn, Nat.not_le.2 hgt]

variable {f}

theorem childAt_treeBuild {i c0 c1 : NodeIx} (hn : (mergeAll f).nodes[i.toNat]? = some (.internal c0 c1)) (b : Bool) :
    childAt (treeBuild f) i b = if b then c1 else c0 := by
  have hi := lt_of_mergeAll_getElem? hn
  rw [childAt, nodeAt_of_lt _ hi, treeBuild_getElem hn hi, finishNode]

/-- Only an internal node has something in a child slot. -/
theorem exists_internal_of_childAt_le {i : NodeIx} {b : Bool} (h : (childAt (treeBuild f) i b).toNat ≤ 512) :
    ∃ c0 c1, (mergeAll f).nodes[i.toNat]? = some (.internal c0 c1) := by
  have hne : childAt (treeBuild f) i b ≠ noneIx := fun hnone => by
    rw [hnone] at h
    exact absurd h (by decide)
  obtain hi | hge := Nat.lt_or_ge i.toNat 513
  · obtain hle | hgt := le_or_gt i.toNat 256
    · obtain ⟨p, -, -, hn⟩ := treeBuild_leaf (f := f) hle
      exact absurd (by rw [childAt, nodeAt_of_lt _ hi, hn]) hne
    · obtain ⟨c0, c1, hn, -⟩ := mergeAll_internal f hgt hi
      exact ⟨c0, c1, hn⟩
  · exact absurd (by rw [childAt, nodeAt, Vector.getElem?_eq_none hge]) hne

theorem childAt_mem_children {i c0 c1 : NodeIx} (hn : (mergeAll f).nodes[i.toNat]? = some (.internal c0 c1)) (b : Bool) :
    (childAt (treeBuild f) i b).toNat ∈ (Node.internal c0 c1).children := by
  rw [childAt_treeBuild hn]
  cases b <;> simp [Node.children]

/-- The two children of a node differ: no id is a child twice (R32). -/
theorem mergeAll_children_ne {i : Nat} {c0 c1 : NodeIx} (hn : (mergeAll f).nodes[i]? = some (.internal c0 c1)) :
    c0 ≠ c1 := by
  have hnd := (List.nodup_flatMap.1 (mergeAll_childIds_nodup f)).1 _ (List.mem_of_getElem? hn)
  rintro rfl
  simp [Node.children] at hnd

/-- A node stands in one child slot only. -/
theorem childAt_inj {i i' : NodeIx} {b b' : Bool} (h : (childAt (treeBuild f) i b).toNat ≤ 512)
    (heq : childAt (treeBuild f) i b = childAt (treeBuild f) i' b') : i = i' ∧ b = b' := by
  obtain ⟨c0, c1, hn⟩ := exists_internal_of_childAt_le h
  obtain ⟨d0, d1, hn'⟩ := exists_internal_of_childAt_le (heq ▸ h)
  obtain rfl : i = i' := BitVec.eq_of_toNat_eq <| parent_unique (mergeAll_childIds_nodup f) hn hn'
    (childAt_mem_children hn b) (heq ▸ childAt_mem_children hn' b')
  have hinj : Function.Injective fun b : Bool => if b then c1 else c0 := Bool.injective_iff.2 (mergeAll_children_ne hn)
  rw [childAt_treeBuild hn, childAt_treeBuild hn] at heq
  exact ⟨rfl, hinj heq⟩

theorem childAt_ne_root (i : NodeIx) (b : Bool) : childAt (treeBuild f) i b ≠ rootIx := by
  intro h
  obtain ⟨c0, c1, hn⟩ := exists_internal_of_childAt_le (f := f) (i := i) (b := b) (by rw [h]; decide)
  have hlt := mergeAll_child_lt hn (childAt_mem_children hn b)
  have hi := lt_of_mergeAll_getElem? hn
  rw [h, show rootIx.toNat = 512 from rfl] at hlt
  omega

/-! ### Paths from the root -/

theorem pathNode_concat (node : Vector Node 513) (bs : List Bool) (b : Bool) :
    pathNode node (bs ++ [b]) = childAt node (pathNode node bs) b := by
  simp [pathNode]

/-- Every node has one path from the root. -/
theorem pathNode_inj {bs bs' : List Bool} (h : (pathNode (treeBuild f) bs).toNat ≤ 512)
    (heq : pathNode (treeBuild f) bs = pathNode (treeBuild f) bs') : bs = bs' := by
  induction bs using List.reverseRecOn generalizing bs' with
  | nil =>
    obtain rfl | ⟨bs', b', rfl⟩ := List.eq_nil_or_concat' bs'
    · rfl
    · exact absurd (heq.trans (pathNode_concat _ bs' b')).symm (childAt_ne_root _ _)
  | append_singleton bs b ih =>
    rw [pathNode_concat] at h heq
    obtain rfl | ⟨bs', b', rfl⟩ := List.eq_nil_or_concat' bs'
    · exact absurd heq (childAt_ne_root _ _)
    · rw [pathNode_concat] at heq
      obtain ⟨hparent, rfl⟩ := childAt_inj h heq
      obtain ⟨c0, c1, hn⟩ := exists_internal_of_childAt_le h
      rw [ih (Nat.le_of_lt_succ (lt_of_mergeAll_getElem? hn)) hparent]

/-- A path below a node leads to its leaf. -/
theorem PathsBelow.foldl_childAt {i : NodeIx} {ps : List (List Bool × NodeIx)} {p : List Bool × NodeIx}
    (h : PathsBelow (mergeAll f).nodes i ps) (hp : p ∈ ps) : p.1.foldl (childAt (treeBuild f)) i = p.2 := by
  induction h generalizing p with
  | leaf hn =>
    obtain rfl := List.mem_singleton.1 hp
    rfl
  | internal hn hps ih =>
    obtain ⟨b, q, hq, rfl⟩ := mem_joinPaths.1 hp
    rw [consBit, List.foldl_cons, childAt_treeBuild hn, ih b hq]

/-! ### The codes -/

/-- `ps` lists the paths from the root to the leaves, and the code assignment makes its codes of them (R110). -/
structure RootPaths (f : FreqTable) (ps : List (List Bool × NodeIx)) : Prop where
  below : PathsBelow (mergeAll f).nodes rootIx ps
  codePaths_eq : codePaths f = ps.map (codePathOf [])

theorem exists_rootPaths (f : FreqTable) : ∃ ps, RootPaths f ps := by
  obtain ⟨ps, hps, hwalk⟩ := exists_pathsBelow f (i := rootIx) (fuel := 513) (by decide) (by decide)
  exact ⟨ps, hps, hwalk []⟩

namespace RootPaths

variable {ps : List (List Bool × NodeIx)} {p q : List Bool × NodeIx}

theorem length_le_maxLen (h : RootPaths f ps) (hp : p ∈ ps) : p.1.length ≤ maxLen f :=
  len_le_maxLenOf (h.codePaths_eq ▸ List.mem_map_of_mem hp : codePathOf [] p ∈ codePaths f)

/-- Every path ends at one of the leaves 0 to 256. -/
theorem leaf_le (h : RootPaths f ps) (hp : p ∈ ps) : p.2.toNat ≤ 256 := by
  obtain ⟨y, c, l, hn⟩ := h.below.isLeaf hp
  by_contra hgt
  obtain ⟨c0, c1, hn', -⟩ := mergeAll_internal f (Nat.lt_of_not_le hgt) (lt_of_mergeAll_getElem? hn)
  cases hn.symm.trans hn'

/-- The path to a leaf is the leaf's code, bit by bit (R91). -/
theorem codeBits_mem (h : RootPaths f ps) (hf : FreqWf f) {i : NodeIx} (hi : i.toNat ≤ 256) :
    (codeBits (treeBuild f) i, i) ∈ ps := by
  obtain ⟨_, hp, hpi, hn⟩ := treeBuild_leaf (f := f) hi
  have hlen := codePath_len_toNat hf hp
  rw [h.codePaths_eq] at hp
  obtain ⟨⟨bs, j⟩, hq, rfl⟩ := List.mem_map.1 hp
  obtain rfl : j = i := BitVec.eq_of_toNat_eq hpi
  obtain ⟨-, -, -, hmax⟩ := (freqWf_iff f).1 hf
  have hcode : bitsToNat bs < 2 ^ 24 :=
    (bitsToNat_lt bs).trans_le (Nat.pow_le_pow_right (by decide) ((h.length_le_maxLen hq).trans hmax))
  have hbits : codeBits (treeBuild f) j = bs := by
    rw [codeBits, nodeAt_of_lt _ (by omega), hn]
    simp only [codePathOf, List.nil_append] at hlen ⊢
    rw [hlen, BitVec.toNat_ofNat, Nat.mod_eq_of_lt hcode, bitsOf_bitsToNat]
  rwa [hbits]

/-- There is one path to each leaf. -/
theorem eq_codeBits (h : RootPaths f ps) (hf : FreqWf f) (hp : p ∈ ps) : p.1 = codeBits (treeBuild f) p.2 := by
  have hle := h.leaf_le hp
  refine pathNode_inj (f := f) ?_ ((h.below.foldl_childAt hp).trans (h.below.foldl_childAt (h.codeBits_mem hf hle)).symm)
  rw [pathNode, h.below.foldl_childAt hp]
  omega

/-- The leaves with their codes are the paths from the root, each once. -/
theorem perm_range (h : RootPaths f ps) (hf : FreqWf f) :
    ((List.range 257).map fun i => (codeBits (treeBuild f) (BitVec.ofNat 10 i), BitVec.ofNat 10 i)).Perm ps := by
  have htoNat : ∀ i ∈ List.range 257, (BitVec.ofNat 10 i).toNat = i := fun i hi =>
    Nat.mod_eq_of_lt (by have := List.mem_range.1 hi; omega)
  have hnd : ((List.range 257).map fun i => (codeBits (treeBuild f) (BitVec.ofNat 10 i), BitVec.ofNat 10 i)).Nodup :=
    List.nodup_range.map_on fun i hi j hj hij => by
      rw [← htoNat i hi, ← htoNat j hj, (Prod.mk.inj hij).2]
  refine (List.perm_ext_iff_of_nodup hnd h.below.nodup).2 fun p => ⟨fun hp => ?_, fun hp => ?_⟩
  · obtain ⟨i, hi, rfl⟩ := List.mem_map.1 hp
    exact h.codeBits_mem hf (by rw [htoNat i hi]; exact Nat.le_of_lt_succ (List.mem_range.1 hi))
  · refine List.mem_map.2 ⟨p.2.toNat, List.mem_range.2 (Nat.lt_succ_of_le (h.leaf_le hp)), ?_⟩
    rw [BitVec.ofNat_toNat, BitVec.setWidth_eq, ← h.eq_codeBits hf hp]

end RootPaths

end

/-- Settles O51: the codes are the paths from the root, of which none begins another, which fill the code space, and one
of which begins every sequence of bits long enough. -/
theorem codesArePrefixFreeAndComplete : Obligations.CodesArePrefixFreeAndComplete := by
  intro f hf
  obtain ⟨ps, h⟩ := exists_rootPaths f
  obtain ⟨-, -, -, hmax⟩ := (freqWf_iff f).1 hf
  refine ⟨fun i => isLeafAt_treeBuild_iff f, fun i j hi hj hne hpre => hne ?_, ?_, fun bits hbits => ?_⟩
  · exact congrArg Prod.snd (h.below.eq_of_isPrefix (h.codeBits_mem hf hi) (h.codeBits_mem hf hj) hpre)
  · have hsum := h.below.sum_two_pow fun p hp => (h.length_le_maxLen hp).trans hmax
    rw [← ((h.perm_range hf).map _).sum_eq, List.map_map] at hsum
    exact hsum
  · obtain ⟨p, hp, hpre⟩ := h.below.exists_isPrefix fun p hp => hbits ▸ h.length_le_maxLen hp
    refine ⟨p.2, ⟨h.leaf_le hp, h.eq_codeBits hf hp ▸ hpre⟩, fun j ⟨hj, hjpre⟩ => ?_⟩
    obtain hle | hle := List.prefix_or_prefix_of_prefix hpre hjpre
    · exact congrArg Prod.snd (h.below.eq_of_isPrefix hp (h.codeBits_mem hf hj) hle).symm
    · exact congrArg Prod.snd (h.below.eq_of_isPrefix (h.codeBits_mem hf hj) hp hle)

end Sys2Proof.Machine
end

section
/-! The entries of the lookup table (R140 to R144): where the walk stops, and the codes that the bits of the index
begin with or begin. -/

namespace Sys2Proof.Machine

/-! ### Bits of an index -/

@[simp] theorem length_bitsOf (n v : Nat) : (bitsOf n v).length = n := by simp [bitsOf]

theorem take_bitsOf {k n : Nat} (h : k ≤ n) (v : Nat) : (bitsOf n v).take k = bitsOf k v := by
  rw [bitsOf, ← List.map_take, List.take_range, Nat.min_eq_left h, bitsOf]

/-- The low bits are the remainder. -/
theorem mod_eq_of_bitsOf_eq {n v w : Nat} (h : bitsOf n v = bitsOf n w) : v % 2 ^ n = w % 2 ^ n := by
  refine Nat.eq_of_testBit_eq fun k => ?_
  rw [Nat.testBit_mod_two_pow, Nat.testBit_mod_two_pow]
  obtain hk | hk := Nat.lt_or_ge k n
  · rw [List.map_inj_left.1 h k (List.mem_range.2 hk)]
  · rw [decide_eq_false (Nat.not_lt.2 hk), Bool.false_and, Bool.false_and]

/-! ### Leaves and internal nodes -/

theorem isLeafAt_iff {node : Vector Node 513} {i : NodeIx} :
    isLeafAt node i = true ↔ ∃ y c l, nodeAt node i = some (.leaf y c l) := by
  rw [isLeafAt]
  split <;> simp_all

theorem isInternalAt_eq_not_isLeafAt (node : Vector Node 513) {i : NodeIx} (hi : i.toNat ≤ 512) :
    isInternalAt node i = !isLeafAt node i := by
  rw [isInternalAt, isLeafAt, nodeAt_of_lt _ (Nat.lt_succ_of_le hi)]
  cases node[i.toNat] <;> rfl

section
variable {f : FreqTable}

theorem le_of_isLeafAt {i : NodeIx} (h : isLeafAt (treeBuild f) i = true) : i.toNat ≤ 256 := by
  obtain ⟨y, c, l, hn⟩ := isLeafAt_iff.1 h
  obtain ⟨hlt, -⟩ := Vector.getElem?_eq_some_iff.1 hn
  exact (isLeafAt_treeBuild_iff f (Nat.le_of_lt_succ hlt)).1 h

theorem childAt_le_of_not_leaf {i : NodeIx} (hi : i.toNat ≤ 512) (hleaf : isLeafAt (treeBuild f) i = false) (b : Bool) :
    (childAt (treeBuild f) i b).toNat ≤ 512 := by
  have hgt : 256 < i.toNat := Nat.lt_of_not_le fun hle => by simp [(isLeafAt_treeBuild_iff f hi).2 hle] at hleaf
  obtain ⟨c0, c1, hn, -⟩ := mergeAll_internal f hgt (Nat.lt_succ_of_le hi)
  have hlt := mergeAll_child_lt hn (childAt_mem_children hn b)
  omega

theorem isLeafAt_root : isLeafAt (treeBuild f) rootIx = false :=
  Bool.eq_false_iff.2 fun h => absurd (le_of_isLeafAt h) (by decide)

/-! ### The walk -/

/-- The walk from `i` over `bits` that stops at the first leaf takes `k` bits: no node before is a leaf, and the one it
reaches is a leaf or no bit is left (R144). -/
structure WalkTakes (node : Vector Node 513) (i : NodeIx) (bits : List Bool) (k : Nat) : Prop where
  le_length : k ≤ bits.length
  descend_eq : descend node bits i = (bits.take k).foldl (childAt node) i
  not_leaf_before : ∀ j < k, isLeafAt node ((bits.take j).foldl (childAt node) i) = false
  stop : isLeafAt node (descend node bits i) = true ∨ k = bits.length

theorem exists_walkTakes {node : Vector Node 513} {i : NodeIx} (hi : isLeafAt node i = false) (bits : List Bool) :
    ∃ k, WalkTakes node i bits k := by
  induction bits generalizing i with
  | nil => exact ⟨0, le_rfl, rfl, fun j hj => absurd hj (Nat.not_lt_zero j), .inr rfl⟩
  | cons b bs ih =>
    cases hc : isLeafAt node (childAt node i b) with
    | true =>
      have hd : descend node (b :: bs) i = childAt node i b := if_pos hc
      refine ⟨1, by simp, by simp [hd], fun j hj => ?_, .inl (hd ▸ hc)⟩
      obtain rfl : j = 0 := by omega
      exact hi
    | false =>
      have hd : descend node (b :: bs) i = descend node bs (childAt node i b) := if_neg (by simp [hc])
      obtain ⟨k, hle, heq, hbefore, hstop⟩ := ih hc
      refine ⟨k + 1, Nat.succ_le_succ hle, hd.trans heq, fun j hj => ?_, hd ▸ hstop.imp_right (congrArg (· + 1))⟩
      cases j with
      | zero => exact hi
      | succ j => exact hbefore j (Nat.lt_of_succ_lt_succ hj)

/-- The walk in a finished array stays among its nodes. -/
theorem descend_le {i : NodeIx} (hi : i.toNat ≤ 512) (hleaf : isLeafAt (treeBuild f) i = false) (bits : List Bool) :
    (descend (treeBuild f) bits i).toNat ≤ 512 := by
  induction bits generalizing i with
  | nil => exact hi
  | cons b bs ih =>
    have hc := childAt_le_of_not_leaf hi hleaf b
    rw [descend]
    split
    next => exact hc
    next hn => exact ih hc (Bool.eq_false_iff.2 hn)

theorem lutBuild_getElem (node : Vector Node 513) {v : Nat} (h : v < 1024) :
    (lutBuild node)[v] = descend node (bitsOf 10 v) rootIx :=
  tabulate_getElem 1024 (lutEntry node) v h

theorem lutBuild_le {v : Nat} (h : v < 1024) : (lutBuild (treeBuild f))[v].toNat ≤ 512 := by
  rw [lutBuild_getElem _ h]
  exact descend_le (by decide) isLeafAt_root _

end

/-- Settles O54: the walk starts on the root, which is no leaf, and so takes at least one bit. -/
theorem lutEntryIsTheWalk : Obligations.LutEntryIsTheWalk := by
  intro f _ v h
  obtain ⟨k, hle, heq, hbefore, hstop⟩ := exists_walkTakes (isLeafAt_root (f := f)) (bitsOf 10 v)
  rw [length_bitsOf] at hle hstop
  have hpos : k ≠ 0 := by
    rintro rfl
    rw [heq] at hstop
    simp [isLeafAt_root] at hstop
  refine ⟨lutBuild_le h, k, Nat.one_le_iff_ne_zero.2 hpos, hle, ?_⟩
  rw [lutBuild_getElem _ h]
  exact ⟨heq, hbefore, hstop⟩

/-! ### Entries and codes -/

section
variable {f : FreqTable} {i j : NodeIx} {bits : List Bool}

/-- A leaf's code leads from the root to it (R91). -/
theorem pathNode_codeBits (hf : FreqWf f) (hi : isLeafAt (treeBuild f) i = true) :
    pathNode (treeBuild f) (codeBits (treeBuild f) i) = i := by
  obtain ⟨ps, h⟩ := exists_rootPaths f
  exact h.below.foldl_childAt (h.codeBits_mem hf (le_of_isLeafAt hi))

/-- Bits that lead to a leaf are its code. -/
theorem codeBits_pathNode (hf : FreqWf f) (hleaf : isLeafAt (treeBuild f) (pathNode (treeBuild f) bits) = true) :
    codeBits (treeBuild f) (pathNode (treeBuild f) bits) = bits := by
  have heq := pathNode_codeBits hf hleaf
  have hle := le_of_isLeafAt hleaf
  exact pathNode_inj (by rw [heq]; omega) heq

theorem eq_of_codeBits_isPrefix (hf : FreqWf f) (hi : isLeafAt (treeBuild f) i = true)
    (hj : isLeafAt (treeBuild f) j = true) (h : codeBits (treeBuild f) i <+: codeBits (treeBuild f) j) : i = j := by
  obtain ⟨-, hprefix, -⟩ := codesArePrefixFreeAndComplete f hf
  by_contra hne
  exact hprefix i j (le_of_isLeafAt hi) (le_of_isLeafAt hj) hne h

/-- The bits begin with one code at most. -/
theorem codeBits_isPrefix_unique (hf : FreqWf f) (hi : isLeafAt (treeBuild f) i = true)
    (hj : isLeafAt (treeBuild f) j = true) (hib : codeBits (treeBuild f) i <+: bits)
    (hjb : codeBits (treeBuild f) j <+: bits) : i = j := by
  obtain h | h := List.prefix_or_prefix_of_prefix hib hjb
  · exact eq_of_codeBits_isPrefix hf hi hj h
  · exact (eq_of_codeBits_isPrefix hf hj hi h).symm

theorem codeBits_length_le_maxLen (hf : FreqWf f) (hi : isLeafAt (treeBuild f) i = true) :
    (codeBits (treeBuild f) i).length ≤ maxLen f := by
  obtain ⟨ps, h⟩ := exists_rootPaths f
  exact h.length_le_maxLen (h.codeBits_mem hf (le_of_isLeafAt hi))

/-- Bits that begin with no code begin a longer one: with enough bits behind them they begin with a code (R114). -/
theorem exists_codeBits_of_no_prefix (hf : FreqWf f)
    (hno : ∀ i, isLeafAt (treeBuild f) i = true → ¬codeBits (treeBuild f) i <+: bits) :
    ∃ i, isLeafAt (treeBuild f) i = true ∧ bits.length < (codeBits (treeBuild f) i).length
      ∧ bits <+: codeBits (treeBuild f) i := by
  obtain ⟨ps, h⟩ := exists_rootPaths f
  obtain ⟨p, hp, hpre⟩ := h.below.exists_isPrefix (bits := bits ++ List.replicate (maxLen f) false) fun p hp => by
    have := h.length_le_maxLen hp
    simp only [List.length_append, List.length_replicate]
    omega
  have hle := h.leaf_le hp
  have hleaf := (isLeafAt_treeBuild_iff f (i := p.2) (by omega)).2 hle
  rw [h.eq_codeBits hf hp] at hpre
  have hbits : bits <+: codeBits (treeBuild f) p.2 :=
    (List.prefix_or_prefix_of_prefix hpre (List.prefix_append _ _)).resolve_left (hno _ hleaf)
  refine ⟨p.2, hleaf, lt_of_le_of_ne hbits.length_le fun hlen => hno _ hleaf ?_, hbits⟩
  exact hbits.eq_of_length hlen ▸ List.prefix_rfl

/-- A leaf's code has no bit above its length (R30). -/
theorem leaf_code_lt (hf : FreqWf f) {y : BitVec 9} {c : BitVec 24} {l : BitVec 5}
    (hn : nodeAt (treeBuild f) i = some (.leaf y c l)) : c.toNat < 2 ^ l.toNat := by
  have hi := le_of_isLeafAt (isLeafAt_iff.2 ⟨y, c, l, hn⟩)
  obtain ⟨ps, h⟩ := exists_rootPaths f
  obtain ⟨p, hp, -, hp'⟩ := treeBuild_leaf (f := f) hi
  rw [nodeAt_of_lt _ (by omega), hp'] at hn
  cases hn
  rw [codePath_len_toNat hf hp]
  rw [h.codePaths_eq] at hp
  obtain ⟨q, -, rfl⟩ := List.mem_map.1 hp
  exact (BitVec.toNat_ofNat _ 24 ▸ Nat.mod_le _ _).trans_lt (bitsToNat_lt _)

/-- The two kinds of LUT entry: a leaf whose code the bits begin with, or the internal node on their path, when they
begin with no code (R142, R143). -/
theorem lutBuild_leaf_or_internal (hf : FreqWf f) {v : Nat} (h : v < 1024) :
    (isLeafAt (treeBuild f) (lutBuild (treeBuild f))[v] = true
        ∧ codeBits (treeBuild f) (lutBuild (treeBuild f))[v] <+: bitsOf 10 v)
      ∨ (isLeafAt (treeBuild f) (lutBuild (treeBuild f))[v] = false
        ∧ (lutBuild (treeBuild f))[v] = pathNode (treeBuild f) (bitsOf 10 v)
        ∧ ∀ i, isLeafAt (treeBuild f) i = true → ¬codeBits (treeBuild f) i <+: bitsOf 10 v) := by
  obtain ⟨-, k, -, hk, heq, hbefore, hstop⟩ := lutEntryIsTheWalk f hf v h
  cases hleaf : isLeafAt (treeBuild f) (lutBuild (treeBuild f))[v] with
  | true =>
    rw [heq] at hleaf ⊢
    exact .inl ⟨rfl, (codeBits_pathNode hf hleaf).symm ▸ List.take_prefix k _⟩
  | false =>
    obtain rfl : k = 10 := hstop.resolve_left (by simp [hleaf])
    rw [List.take_of_length_le (length_bitsOf 10 v).le] at heq
    refine .inr ⟨rfl, heq, fun i hi hpre => ?_⟩
    have hpath := pathNode_codeBits hf hi
    rw [List.prefix_iff_eq_take.1 hpre] at hpath
    obtain hlt | hge := Nat.lt_or_ge (codeBits (treeBuild f) i).length 10
    · simpa [hpath, hi] using hbefore _ hlt
    · rw [List.take_of_length_le (by simpa using hge), ← heq] at hpath
      simp [hpath, hi] at hleaf

end

/-- Settles O55: of the two kinds of entry the leaves have the codes the bits begin with, and the bits of the others
begin a longer code. -/
theorem lutResolvesShortCodes : Obligations.LutResolvesShortCodes := by
  intro f hf v h
  have hkind := isInternalAt_eq_not_isLeafAt (treeBuild f) (lutBuild_le (f := f) h)
  have hcases := lutBuild_leaf_or_internal hf h
  have hlonger : isInternalAt (treeBuild f) (lutBuild (treeBuild f))[v] = true ↔
      ∃ i : NodeIx, isLeafAt (treeBuild f) i = true ∧ 10 < (codeBits (treeBuild f) i).length
        ∧ bitsOf 10 v <+: codeBits (treeBuild f) i := by
    obtain ⟨hleaf, hpre⟩ | ⟨hleaf, -, hno⟩ := hcases
    · refine iff_of_false (by simp [hkind, hleaf]) fun ⟨i, hi, hlen, hbits⟩ => ?_
      obtain rfl := eq_of_codeBits_isPrefix hf hleaf hi (hpre.trans hbits)
      exact absurd hpre.length_le (by simpa using hlen)
    · exact iff_of_true (by simp [hkind, hleaf]) (by simpa using exists_codeBits_of_no_prefix hf hno)
  refine ⟨fun i y c l hn hl hpre => ⟨?_, ?_⟩, ?_, hlonger, fun hmax => ?_⟩
  · have hi := isLeafAt_iff.2 ⟨y, c, l, hn⟩
    obtain ⟨hleaf, hpre'⟩ | ⟨-, -, hno⟩ := hcases
    · exact codeBits_isPrefix_unique hf hleaf hi hpre' hpre
    · exact absurd hpre (hno i hi)
  · rw [codeBits, hn, List.prefix_iff_eq_take, length_bitsOf, take_bitsOf hl] at hpre
    rw [← mod_eq_of_bitsOf_eq hpre, Nat.mod_eq_of_lt (leaf_code_lt hf hn)]
  · obtain ⟨hleaf, hpre⟩ | ⟨hleaf, hpath, hno⟩ := hcases
    · exact iff_of_false (by simp [hkind, hleaf]) fun hno =>
        hno ⟨_, hleaf, by simpa using hpre.length_le, hpre⟩
    · exact iff_of_true ⟨by simp [hkind, hleaf], hpath⟩ fun ⟨i, hi, _, hpre⟩ => hno i hi hpre
  · refine Bool.eq_false_iff.2 fun hint => ?_
    obtain ⟨i, hi, hlen, -⟩ := hlonger.1 hint
    exact absurd (codeBits_length_le_maxLen hf hi) (by omega)

end Sys2Proof.Machine
end

section
/-! The candidate of the lookup before the refill (R161, R172): the bytes that the refill takes go in above the ten bits
that were looked up, so the candidate stays what a lookup would give. -/

namespace Sys2Proof.Machine

/-! ### The refill and the lookup -/

/-- Bits put in at place 10 or above leave the low ten bits alone. -/
theorem low_ten_bits_or_shiftLeft {n : Nat} (bits b : Word) (h : 10 ≤ n) :
    (bits ||| b <<< n).extractLsb' 0 10 = bits.extractLsb' 0 10 := by
  ext i hi
  have hin : i < n := by omega
  simp [hin]

theorem lutLookup_takeByte {s : State} (h : 10 ≤ s.dec.bitcnt.toNat) : lutLookup (takeByte s) = lutLookup s := by
  simp only [lutLookup, lutIndex, takeByte, low_ten_bits_or_shiftLeft _ _ h]

theorem takeByte_bitcnt_toNat {s : State} (h : wantsByte s = true) :
    (takeByte s).dec.bitcnt.toNat = s.dec.bitcnt.toNat + 8 := by
  obtain ⟨hroom, -⟩ := (wantsByte_iff s).1 h
  simp only [takeByte]
  bv_omega

/-! ### The states that hold a candidate -/

theorem stepDD_estate (s : State) :
    (stepDD s).estate = .idle ∨ (stepDD s).estate = .dEmit ∨ (stepDD s).estate = .dWalk := by
  obtain ⟨-, hs⟩ | ⟨y, c, len, -, -, hs⟩ | ⟨y, c, len, -, -, hs⟩ | ⟨c0, c1, -, -, hs⟩ | ⟨c0, c1, -, -, hs⟩ :=
    stepDD_cases s <;> rw [hs]
  · exact .inl rfl
  · exact .inl rfl
  · exact .inr (.inl rfl)
  · exact .inl rfl
  · exact .inr (.inr rfl)

theorem stepDWalk_estate (s : State) :
    (stepDWalk s).estate = .idle ∨ (stepDWalk s).estate = .dEmit ∨ (stepDWalk s).estate = s.estate := by
  obtain ⟨-, hs⟩ | ⟨-, -, hs⟩ | ⟨-, -, -, hs⟩ | ⟨-, -, -, -, hs⟩ | ⟨-, -, -, -, hs⟩ := stepDWalk_cases s <;> rw [hs]
  · exact .inl rfl
  · exact .inl rfl
  · exact .inr (.inl rfl)
  · exact .inl rfl
  · exact .inr (.inr rfl)

section
variable {s t : State}

/-- The engine comes to D_B or D_C by the early lookup, by taking a byte, or when the refill is over. -/
theorem engineStep_to_refill (h : engineStep s = .next t) (ht : t.estate = .dB ∨ t.estate = .dC) :
    (s.estate = .dA ∧ t = stepDA s) ∨ (s.estate = .dB ∧ wantsByte s = true ∧ t = takeByte s)
      ∨ (s.estate = .dB ∧ t = { s with estate := .dC }) := by
  obtain ⟨he, rfl⟩ | ⟨-, rfl⟩ | ⟨-, rfl⟩ | ⟨he, rfl⟩ | ⟨he, hw, -, rfl⟩ | ⟨he, -, rfl⟩ | ⟨-, rfl⟩ | ⟨-, rfl⟩ | ⟨he, rfl⟩
    | ⟨-, -, rfl⟩ | ⟨-, -, -, rfl⟩ | ⟨b, -, -, -, -, -, rfl⟩ := engineStep_cases h
  · simp [he] at ht
  · simp [stepTree] at ht
  · simp at ht
  · exact .inl ⟨he, rfl⟩
  · exact .inr (.inl ⟨he, hw, rfl⟩)
  · exact .inr (.inr ⟨he, rfl⟩)
  · simp [stepDC] at ht
  · obtain hd | hd | hd := stepDD_estate s <;> simp [hd] at ht
  · obtain hd | hd | hd := stepDWalk_estate s <;> simp [hd, he] at ht
  · simp at ht
  · simp at ht
  · simp at ht

/-! ### The invariant of the candidate -/

theorem candInv_of_elsewhere (hB : t.estate ≠ .dB) (hC : t.estate ≠ .dC) : CandInv t :=
  fun ht => (ht.elim hB hC).elim

theorem BlockKept.candInv (hk : BlockKept s t) (h : CandInv s) : CandInv t := by
  simpa only [CandInv, lutLookup, lutIndex, hk.estate, hk.dec, hk.tab] using h

/-- D_A takes a candidate only with ten bits there, and takes the one the lookup gives. -/
theorem stepDA_candInv (s : State) : CandInv (stepDA s) := by
  intro _ hv
  unfold stepDA at hv ⊢
  split at hv
  · next hten =>
    rw [if_pos hten]
    exact ⟨hten, rfl⟩
  · cases hv

theorem takeByte_keeps_candInv (he : s.estate = .dB) (hw : wantsByte s = true) (h : CandInv s) :
    CandInv (takeByte s) := by
  intro _ hv
  obtain ⟨hten, hcand⟩ := h (.inl he) hv
  refine ⟨?_, hcand.trans (lutLookup_takeByte hten).symm⟩
  rw [takeByte_bitcnt_toNat hw]
  omega

theorem engineStep_keeps_candInv (h : CandInv s) (hs : engineStep s = .next t) : CandInv t := by
  intro ht
  obtain ⟨-, rfl⟩ | ⟨he, hw, rfl⟩ | ⟨he, rfl⟩ := engineStep_to_refill hs ht
  · exact stepDA_candInv s ht
  · exact takeByte_keeps_candInv he hw h ht
  · exact h (.inl he)

theorem step_keeps_candInv (h : CandInv s) (hs : step s = .next t) : CandInv t := by
  cases step_blockStep hs with
  | kept hk => exact hk.candInv h
  | engine he => exact engineStep_keeps_candInv (s := takeTurn s) h he
  | init => exact candInv_of_elsewhere nofun nofun
  | failed cls => exact candInv_of_elsewhere nofun nofun
  | started => exact candInv_of_elsewhere nofun nofun
  | reset => exact candInv_of_elsewhere nofun nofun

/-- Under the invariant D_C's choice between candidate and lookup makes no difference (R172). -/
theorem stepDC_node (h : CandInv s) (he : s.estate = .dC) : (stepDC s).dec.node = lutLookup s := by
  unfold stepDC
  split_ifs with hv
  · exact (h (.inr he) hv).2
  · rfl

end

/-- Settles O40, by the invariant step by step: the early lookup makes it hold and the refill keeps the bits looked up. -/
theorem candidateEqualsLateLookup : Obligations.CandidateEqualsLateLookup :=
  ⟨fun _ _ => step_keeps_candInv, fun s h he => ⟨stepDC s, by simp only [engineStep, he], stepDC_node h he⟩⟩

end Sys2Proof.Machine
end

section
/-! The start of a DECODE (R160, R203, R207). -/

namespace Sys2Proof.Machine

theorem exec_decode_of_disjoint {s : State} (hbusy : busy s = false) (hready : s.ready = true)
    (hover : buffersOverlap s = false) : exec .decode s = .next (decodeStart (accept s)) := by
  simp [exec, execDecode, hbusy, hready, hover]

/-- A DECODE just accepted shows BUSY, READY and PHASE = 3, and no outcome of an earlier command. -/
theorem statusWord_decodeStart {s : State} (hready : s.ready = true) :
    statusWord (decodeStart (accept s)) = 0x00000303#32 := by
  change packStatus 3#2 false 0#3 false false s.ready true = _
  rw [hready]
  rfl

/-- Settles O11: DECODE starts, and the start step leaves all but the engine's state and the decoder's registers. -/
theorem decodeStartsWhenReady : Obligations.DecodeStartsWhenReady :=
  fun s hbusy hready hover => ⟨decodeStart (accept s), exec_decode_of_disjoint hbusy hready hover, rfl,
    statusWord_decodeStart hready, rfl, rfl, rfl, rfl⟩

end Sys2Proof.Machine
end

section
/-! CMD writes by the word written (R202 to R205, R209, R237). -/

namespace Sys2Proof.Machine

/-! ### What a word does -/

section
variable {s : State} {w : Word}

/-- The write of a command's word carries the command out. -/
theorem cmdWrite_encode (i : Instr) (s : State) : cmdWrite (encode i) s = exec i s := by
  simp only [cmdWrite, decodeCmd_encode]

/-- A word that is the word of no command is illegal. -/
theorem cmdWrite_of_no_command (h0 : w ≠ 0x00000000#32) (h1 : w ≠ 0x00000001#32) (h2 : w ≠ 0x00000002#32)
    (s : State) : cmdWrite w s = .next (illegalCmd s) := by
  cases hw : decodeCmd w with
  | error e => exact cmdWrite_of_error hw s
  | ok i =>
    have hi : w = encode i := decodeCmd_eq_ok_iff.1 hw
    cases i with
    | nop => exact absurd hi h0
    | init => exact absurd hi h1
    | decode => exact absurd hi h2

theorem cmdWrite_zero (s : State) : cmdWrite 0x00000000#32 s = .next s := cmdWrite_encode .nop s

/-! ### While busy -/

theorem exec_of_busy (hb : busy s = true) {i : Instr} (hi : i ≠ .nop) : exec i s = .next (reject s) := by
  cases i with
  | nop => exact absurd rfl hi
  | init => exact if_pos hb
  | decode => exact if_pos hb

/-- While busy, a word other than 0 is dropped, whether it is a command's or illegal. -/
theorem cmdWrite_of_busy (hb : busy s = true) (h0 : w ≠ 0x00000000#32) : cmdWrite w s = .next (reject s) := by
  cases hw : decodeCmd w with
  | error e => rw [cmdWrite_of_error hw, illegalCmd_of_busy hb]
  | ok i =>
    obtain rfl : w = encode i := decodeCmd_eq_ok_iff.1 hw
    have hi : i ≠ .nop := fun h => h0 (h ▸ rfl)
    rw [cmdWrite_encode, exec_of_busy hb hi]

/-! ### While idle -/

theorem exec_init_of_idle (hb : busy s = false) :
    exec .init s = .next { accept s with ready := false, estate := .tree } :=
  if_neg (by simp [hb])

/-- While idle, a DECODE is carried out as on the accepted state: acceptance keeps READY and the parameters. -/
theorem exec_decode_accept (hb : busy s = false) : exec .decode (accept s) = exec .decode s := by
  have hb' : busy (accept s) = false := hb
  simp only [exec, execDecode, hb, hb']
  rfl

theorem cmdWrite_of_no_command_of_idle (hb : busy s = false) (h0 : w ≠ 0x00000000#32) (h1 : w ≠ 0x00000001#32)
    (h2 : w ≠ 0x00000002#32) : cmdWrite w s = .next (raise (accept s) .illegalCmd) := by
  rw [cmdWrite_of_no_command h0 h1 h2, illegalCmd_of_idle hb]

end

/-! ### The statements -/

/-- Settles O5: a word other than 0 is dropped while busy, and dropping sets REJECTED. -/
theorem nopHasNoEffect : Obligations.NopHasNoEffect :=
  fun s => ⟨rfl, cmdWrite_zero s, fun _ h0 hb => ⟨reject s, cmdWrite_of_busy hb h0, rfl⟩⟩

/-- Settles O8, by the word being 0 or not. -/
theorem commandWhileBusyIsDropped : Obligations.CommandWhileBusyIsDropped := by
  intro s w hb
  split
  · next h0 => rw [h0, cmdWrite_zero]
  · next h0 => exact cmdWrite_of_busy hb h0

/-- Settles O9: the three words are those of the commands, and any other word is illegal. -/
theorem commandWhileIdle : Obligations.CommandWhileIdle := by
  refine fun s w hb => ⟨?_, ?_, ?_, cmdWrite_of_no_command_of_idle hb⟩ <;> rintro rfl
  · exact cmdWrite_zero s
  · exact (cmdWrite_encode .init s).trans (exec_init_of_idle hb)
  · exact (cmdWrite_encode .decode s).trans (exec_decode_accept hb).symm

/-- Settles O13: an illegal word is accepted and failed while idle, and dropped like any other while busy. -/
theorem illegalCommandWord : Obligations.IllegalCommandWord :=
  fun _ _ h0 h1 h2 => ⟨fun hb => cmdWrite_of_no_command_of_idle hb h0 h1 h2, fun hb => cmdWrite_of_busy hb h0⟩

end Sys2Proof.Machine
end

section
/-! A whole INIT with no host access in between (R113, R145, R206). -/

namespace Sys2Proof.Machine

section
variable {s : State}

theorem step_of_tree (hin : s.inputs = []) (he : s.estate = .tree) : step s = .next (stepTree (takeTurn s)) := by
  have hb : busy s = true := by simp [busy, he]
  simp [step_of_engine (nextAgent_no_input hin hb), engineStep, he]

theorem step_of_lutb (hin : s.inputs = []) (he : s.estate = .lutb) : step s = .next (stepLutb (takeTurn s)) := by
  have hb : busy s = true := by simp [busy, he]
  simp [step_of_engine (nextAgent_no_input hin hb), engineStep, he]

end

/-- The state after an INIT is accepted (R205). -/
def initAccepted (s : State) : State := { accept s with ready := false, estate := .tree }

/-- The state after the step TREE of that INIT (R113). -/
def initTreeBuilt (s : State) : State := stepTree (takeTurn (initAccepted s))

/-- The state after its step LUTB: INIT has ended (R145). -/
def initDone (s : State) : State := stepLutb (takeTurn (initTreeBuilt s))

/-! ### STATUS on the way, its fields in R83's order -/

theorem statusWord_initAccepted (s : State) : statusWord (initAccepted s) = 0x00000101#32 := by
  change packStatus 1#2 false 0#3 false false false true = _
  rfl

theorem statusWord_initTreeBuilt (s : State) : statusWord (initTreeBuilt s) = 0x00000201#32 := by
  change packStatus 2#2 false 0#3 false false false true = _
  rfl

theorem statusWord_initDone (s : State) : statusWord (initDone s) = 0x00000006#32 := by
  change packStatus 0#2 false 0#3 false true true false = _
  rfl

/-! ### The statement -/

/-- Settles O7: INIT is the two engine steps, TREE and then LUTB, and what it leaves is read off the state reached. -/
theorem initBuildsBothTables : Obligations.InitBuildsBothTables :=
  fun s hb hin => ⟨initAccepted s, initTreeBuilt s, initDone s, exec_init_of_idle hb, step_of_tree hin rfl,
    step_of_lutb hin rfl, statusWord_initAccepted s, rfl, rfl, statusWord_initTreeBuilt s, rfl, statusWord_initDone s,
    rfl, rfl, rfl, rfl⟩

end Sys2Proof.Machine
end

section
/-! Reads of the FREQ, NODE and LUT windows, and writes of the register window (R89, R200, R201, R210, R212 to R214). -/

namespace Sys2Proof.Machine

/-! ### The offsets of the windows (R80) -/

theorem wordAligned_ofNat {a : Nat} (h : a % 4 = 0) : wordAligned (BitVec.ofNat 14 a) = true := by
  rw [wordAligned, beq_iff_eq, BitVec.toNat_ofNat]
  omega

theorem toNat_offset {a : Nat} (h : a < 0x4000) : (BitVec.ofNat 14 a : Offset).toNat = a := by
  rw [BitVec.toNat_ofNat]
  exact Nat.mod_eq_of_lt h

theorem regOf_freqW {i : Nat} (h : i < 257) : regOf (BitVec.ofNat 14 (0x400 + 4 * i)) = .freqW ⟨i, h⟩ := by
  simp only [regOf, toNat_offset (show 0x400 + 4 * i < 0x4000 by omega)]
  repeat rw [if_neg (by omega)]
  rw [dif_pos (by omega)]
  congr 2
  omega

theorem regOf_nodeW0 {i : Nat} (h : i < 513) : regOf (BitVec.ofNat 14 (0x1000 + 8 * i)) = .nodeW0 ⟨i, h⟩ := by
  simp only [regOf, toNat_offset (show 0x1000 + 8 * i < 0x4000 by omega)]
  repeat rw [if_neg (by omega)]
  rw [dif_neg (by omega), dif_pos (by omega), if_pos (by omega)]
  congr 2
  omega

theorem regOf_nodeW1 {i : Nat} (h : i < 513) : regOf (BitVec.ofNat 14 (0x1004 + 8 * i)) = .nodeW1 ⟨i, h⟩ := by
  simp only [regOf, toNat_offset (show 0x1004 + 8 * i < 0x4000 by omega)]
  repeat rw [if_neg (by omega)]
  rw [dif_neg (by omega), dif_pos (by omega), if_neg (by omega)]
  congr 2
  omega

theorem regOf_lutW {v : Nat} (h : v < 1024) : regOf (BitVec.ofNat 14 (0x3000 + 4 * v)) = .lutW ⟨v, h⟩ := by
  simp only [regOf, toNat_offset (show 0x3000 + 4 * v < 0x4000 by omega)]
  repeat rw [if_neg (by omega)]
  rw [dif_neg (by omega), dif_neg (by omega), dif_pos (by omega)]
  congr 2
  omega

/-! ### Reads -/

/-- A read at an aligned offset answers: the value of the word there is noted, and a draw is counted if it was one. -/
theorem busRead_answers {a : Nat} {r : Reg} (ha : a % 4 = 0) (hr : regOf (BitVec.ofNat 14 a) = r) (s : State) :
    ∃ t, busRead .w32 (BitVec.ofNat 14 a) s = .next t ∧ t.trace = .read (BitVec.ofNat 14 a) (regRead s r) :: s.trace
      ∧ t.draws = (countDraw r s).draws := by
  subst hr
  exact ⟨_, checkedAccess_ok (wordAligned_ofNat ha) _, by rw [readAt_eq], rfl⟩

theorem busRead_trace {a : Nat} {r : Reg} (ha : a % 4 = 0) (hr : regOf (BitVec.ofNat 14 a) = r) {s : State} {v : Word}
    (hv : regRead s r = v) :
    ∃ t, busRead .w32 (BitVec.ofNat 14 a) s = .next t ∧ t.trace = .read (BitVec.ofNat 14 a) v :: s.trace := by
  obtain ⟨t, ht, htrace, -⟩ := busRead_answers ha hr s
  exact ⟨t, ht, hv ▸ htrace⟩

section
variable {r : Reg} {s : State}

theorem regRead_table_of_not_ready (hr : r.isTable = true) (h : s.ready = false) :
    regRead s r = Config.freeWord s.draws := by
  have hfree {w : Word} : (if s.ready then w else Config.freeWord s.draws) = Config.freeWord s.draws :=
    if_neg (by simp [h])
  cases r with
  | nodeW0 i => exact hfree
  | nodeW1 i => exact hfree
  | lutW v => exact hfree
  | _ => cases hr

theorem countDraw_table_of_not_ready (hr : r.isTable = true) (h : s.ready = false) :
    countDraw r s = { s with draws := s.draws + 1 } := by
  simp [countDraw, hr, h]

end

/-- Each offset of the NODE and LUT windows is a multiple of 4 and holds a word of a table. -/
theorem table_offset {a : Nat}
    (h : (∃ i < 513, a = 0x1000 + 8 * i ∨ a = 0x1004 + 8 * i) ∨ ∃ v < 1024, a = 0x3000 + 4 * v) :
    a % 4 = 0 ∧ (regOf (BitVec.ofNat 14 a)).isTable = true := by
  obtain ⟨i, hi, rfl | rfl⟩ | ⟨v, hv, rfl⟩ := h
  · exact ⟨by omega, by rw [regOf_nodeW0 hi]; rfl⟩
  · exact ⟨by omega, by rw [regOf_nodeW1 hi]; rfl⟩
  · exact ⟨by omega, by rw [regOf_lutW hv]; rfl⟩

/-- Settles O26, window by window: where the offset points, and what a read of that word returns. -/
theorem windowReads : Obligations.WindowReads := by
  refine ⟨fun s i h => ?_, fun s i h hready => ⟨?_, ?_⟩, fun s v h hready => ?_, fun s a hready ha => ?_⟩
  · exact busRead_answers (by omega) (regOf_freqW h) s
  · exact busRead_trace (by omega) (regOf_nodeW0 h) (if_pos hready)
  · exact busRead_trace (by omega) (regOf_nodeW1 h) (if_pos hready)
  · exact busRead_trace (by omega) (regOf_lutW h) (if_pos hready)
  · obtain ⟨halign, htable⟩ := table_offset ha
    obtain ⟨t, ht, htrace, hdraws⟩ := busRead_answers halign rfl s
    rw [regRead_table_of_not_ready htable hready] at htrace
    rw [countDraw_table_of_not_ready htable hready] at hdraws
    exact ⟨t, ht, htrace, hdraws⟩

/-! ### Writes -/

/-- The words of the window that a write does not reach. -/
def Reg.ignoresWrites : Reg → Bool
  | .cmd | .inBase | .inLen | .outBase | .outCap => false
  | _ => true

theorem regWrite_of_ignoresWrites {r : Reg} (h : r.ignoresWrites = true) (w : Word) (s : State) :
    regWrite r w s = .next s := by
  cases r with
  | cmd | inBase | inLen | outBase | outCap => cases h
  | _ => rfl

/-- STATUS, and every word above the parameter registers, ignores writes. -/
theorem regOf_ignoresWrites {a : Offset} (h : a.toNat = 0x004 ∨ 0x018 ≤ a.toNat) : (regOf a).ignoresWrites = true := by
  have hcmd : a.toNat ≠ 0x000 := by omega
  have hinBase : a.toNat ≠ 0x008 := by omega
  have hinLen : a.toNat ≠ 0x00C := by omega
  have houtBase : a.toNat ≠ 0x010 := by omega
  have houtCap : a.toNat ≠ 0x014 := by omega
  simp only [regOf, hcmd, hinBase, hinLen, houtBase, houtCap, if_false]
  split_ifs <;> rfl

/-- Settles O28: the five offsets that a write reaches, and every other one. -/
theorem registerWrites : Obligations.RegisterWrites := by
  refine fun s w => ⟨rfl, rfl, rfl, rfl, rfl, fun a halign ha => ?_⟩
  rw [busWrite, checkedAccess_ok halign, regWrite_of_ignoresWrites (regOf_ignoresWrites ha), record]

end Sys2Proof.Machine
end

section
/-! How a command ends (R234), and the DECODE that ends as it is accepted (R207, R236). -/

namespace Sys2Proof.Machine

/-! ### `finish` -/

theorem finish_eq (s : State) (k : EndKind) (r : Word) (c : ErrClass) :
    finish s k r c
      = { s with estate := .idle, done := true, err := decide (k = .fail), errClass := c, result := r } := by
  cases k <;> rfl

theorem engineStep_of_idle {s : State} (h : s.estate = .idle) : engineStep s = .next s := by
  simp only [engineStep, h]

/-- Settles O21: `finish` leaves the engine idle, and an idle engine shows PHASE = 0 and has no step to take. -/
theorem finishWritesStatusAndResult : Obligations.FinishWritesStatusAndResult := by
  intro s k r c
  have hidle : (finish s k r c).estate = .idle := finish_estate s k r c
  have hphase : (statusWord (finish s k r c)).extractLsb' 8 2 = 0#2 := by
    rw [statusWord_phase, hidle]
    rfl
  exact ⟨finish_eq s k r c, (not_busy_iff _).2 hidle, hphase, engineStep_of_idle hidle⟩

/-! ### A DECODE before INIT -/

/-- READY is tested before the regions, so what they are makes no difference. -/
theorem exec_decode_of_not_ready {s : State} (hbusy : busy s = false) (hready : s.ready = false) :
    exec .decode s = .next (raise (accept s) .notReady) := by
  simp [exec, execDecode, hbusy, hready]

/-- Settles O10: the command is accepted and failed at once, and `finish` writes over all that acceptance cleared but
REJECTED. -/
theorem decodeBeforeInitFailsNotReady : Obligations.DecodeBeforeInitFailsNotReady := by
  intro s hbusy hready
  rw [exec_decode_of_not_ready hbusy hready, raise, finish_eq]
  rfl

end Sys2Proof.Machine
end

section
/-! The reset event as the host's next move (R250, R251). -/

namespace Sys2Proof.Machine

theorem step_of_reset {s : State} {rest : List Input} (h : HostNext s .reset rest) :
    step s = .next (record .reset (hwReset (taken s rest))) :=
  step_of_host h.1 h.2

/-- R40 gives a value to every register that STATUS shows, so the event leaves the word of the state after reset. -/
@[simp] theorem statusWord_hwReset (s : State) : statusWord (hwReset s) = 0x00000000#32 :=
  calc statusWord (hwReset s)
    _ = statusWord State.reset := rfl
    _ = 0x00000000#32 := by decide

@[simp] theorem statusWord_record (i : Transaction) (s : State) : statusWord (record i s) = statusWord s := rfl

/-- Settles O31: the step is `hwReset` on the state with the move taken off, which differs from `s` in nothing that the
reset keeps or draws from. -/
theorem resetEvent : Obligations.ResetEvent := by
  intro s rest h
  refine ⟨_, step_of_reset h, ?_⟩
  simp [takeTurn]

end Sys2Proof.Machine
end

section
/-! What a step of a running DECODE does to the state, and what a step does to host memory (R60, R63, R70). -/

namespace Sys2Proof.Machine

/-- The byte `k` above the base lies in a run of more than `k` bytes (R64). -/
@[simp] theorem inRange_add (base k : Word) (n : Nat) : inRange base n (base + k) = decide (k.toNat < n) := by
  rw [inRange, BitVec.add_comm, BitVec.add_sub_cancel]

/-! ### The steps of a running DECODE -/

/-- Everything a step of a running DECODE can do: go on with other decoder registers, write an output byte, end with
success, or fail. -/
inductive DecodeStep (s : State) : State → Prop where
  | moved (e : EState) (d : DecoderRegs) (he : e.decoding = true) : DecodeStep s { s with estate := e, dec := d }
  | wrote (b : Byte) (he : s.estate = .dEmit) (hroom : s.dec.outPtr ≠ s.dec.lOutCap) : DecodeStep s (putByte s b)
  | ended (he : s.estate = .dEmit) : DecodeStep s (finish s .success s.dec.outPtr .none)
  | failed (d : DecoderRegs) (cls : ErrClass) : DecodeStep s (raise { s with dec := d } cls)

section
variable {s t : State}

theorem stepDD_decodeStep (s : State) : DecodeStep s (stepDD s) := by
  obtain ⟨-, hs⟩ | ⟨y, c, len, -, -, hs⟩ | ⟨y, c, len, -, -, hs⟩ | ⟨c0, c1, -, -, hs⟩ | ⟨c0, c1, -, -, hs⟩ :=
    stepDD_cases s <;> rw [hs]
  · exact .failed s.dec _
  · exact .failed s.dec _
  · exact .moved .dEmit _ rfl
  · exact .failed s.dec _
  · exact .moved .dWalk _ rfl

theorem stepDWalk_decodeStep (he : s.estate = .dWalk) : DecodeStep s (stepDWalk s) := by
  obtain ⟨-, hs⟩ | ⟨-, -, hs⟩ | ⟨-, -, -, hs⟩ | ⟨-, -, -, -, hs⟩ | ⟨-, -, -, -, hs⟩ := stepDWalk_cases s <;> rw [hs]
  · exact .failed s.dec _
  · exact .failed s.dec _
  · exact .moved .dEmit _ rfl
  · exact .failed (walkTake s).dec _
  · exact .moved s.estate _ (he ▸ rfl)

theorem engineStep_decodeStep (hd : s.estate.decoding = true) (h : engineStep s = .next t) : DecodeStep s t := by
  obtain ⟨hidle, htree, hlutb⟩ := (decoding_iff _).1 hd
  obtain ⟨he, -⟩ | ⟨he, -⟩ | ⟨he, -⟩ | ⟨-, rfl⟩ | ⟨-, -, -, rfl⟩ | ⟨-, -, rfl⟩ | ⟨-, rfl⟩ | ⟨-, rfl⟩ | ⟨he, rfl⟩
    | ⟨he, -, rfl⟩ | ⟨-, -, -, rfl⟩ | ⟨b, he, -, hroom, -, -, rfl⟩ := engineStep_cases h
  · exact absurd he hidle
  · exact absurd he htree
  · exact absurd he hlutb
  · unfold stepDA
    split <;> exact .moved .dB _ rfl
  · exact .moved s.estate _ hd
  · exact .moved .dC s.dec rfl
  · exact .moved .dD _ rfl
  · exact stepDD_decodeStep s
  · exact stepDWalk_decodeStep he
  · exact .ended he
  · exact .failed s.dec _
  · exact .wrote b he hroom

/-- The engine's step by phase, a step of a running DECODE by what it does. -/
theorem engineStep_shapes (h : engineStep s = .next t) :
    (s.estate = .idle ∧ t = s) ∨ (s.estate = .tree ∧ t = stepTree s) ∨ (s.estate = .lutb ∧ t = stepLutb s)
      ∨ (s.estate.decoding = true ∧ DecodeStep s t) := by
  obtain hs | hs | hs | hd := engineStep_phases h
  · exact .inl hs
  · exact .inr (.inl hs)
  · exact .inr (.inr (.inl hs))
  · exact .inr (.inr (.inr ⟨hd, engineStep_decodeStep hd h⟩))

/-! ### Host memory -/

theorem memRead_congr {s t : State} (h : t.mem = s.mem) (a : Word) : memRead t a = memRead s a := by
  rw [memRead, memRead, h]

theorem memRead_memWrite_same {s : State} (h : MemInv s) (a : Word) (v : Byte) : memRead (memWrite s a v) a = v :=
  read_write_same _ v h

theorem memRead_memWrite_other (s : State) {a a' : Word} (v : Byte) (h : a' ≠ a) :
    memRead (memWrite s a v) a' = memRead s a' :=
  read_write_other _ v fun heq => h (BitVec.eq_of_toNat_eq heq)

theorem memRead_putByte_other (s : State) (b : Byte) {a : Word} (h : a ≠ outputAddr s) :
    memRead (putByte s b) a = memRead s a := memRead_memWrite_other s b h

/-- The engine changes host memory only by the output step's write of one byte, with room for it. -/
theorem engineStep_mem (h : engineStep s = .next t) :
    t.mem = s.mem ∨ ∃ b, s.estate = .dEmit ∧ s.dec.outPtr ≠ s.dec.lOutCap ∧ t = putByte s b := by
  obtain ⟨-, rfl⟩ | ⟨-, rfl⟩ | ⟨-, rfl⟩ | ⟨-, hd⟩ := engineStep_shapes h
  · exact .inl rfl
  · exact .inl rfl
  · exact .inl rfl
  · cases hd with
    | moved e d => exact .inl rfl
    | wrote b he hroom => exact .inr ⟨b, he, hroom, rfl⟩
    | ended => exact .inl rfl
    | failed d cls => exact .inl rfl

theorem exec_mem {i : Instr} (h : exec i s = .next t) : t.mem = s.mem := by
  obtain ⟨-, rfl⟩ | ⟨-, -, rfl⟩ | ⟨-, -, rfl⟩ | ⟨-, -, -, rfl⟩ | ⟨-, -, -, -, rfl⟩ := exec_cases h <;> rfl

theorem illegalCmd_mem (s : State) : (illegalCmd s).mem = s.mem := by
  unfold illegalCmd
  split <;> rfl

theorem regWrite_mem {r : Reg} {w : Word} (h : regWrite r w s = .next t) : t.mem = s.mem := by
  obtain ⟨-, hc⟩ | ⟨-, rfl⟩ | ⟨-, rfl⟩ | ⟨-, rfl⟩ | ⟨-, rfl⟩ | rfl := regWrite_cases h
  · obtain ⟨i, -, hx⟩ | ⟨e, -, rfl⟩ := cmdWrite_cases hc
    · exact exec_mem hx
    · exact illegalCmd_mem s
  all_goals rfl

theorem readAt_mem (offset : Offset) (s : State) : (readAt offset s).mem = s.mem := by rw [readAt_eq]

theorem waitPoll_mem (s : State) : (waitPoll s).mem = s.mem := by
  unfold waitPoll
  split <;> exact readAt_mem _ s

/-- A host memory write that is performed writes its one byte. -/
theorem hostMemWrite_next {a : Word} {v : Byte} (h : hostMemWrite a v s = .next t) :
    t = record (.memWrite a v) (memWrite s a v) := by
  unfold hostMemWrite at h
  split at h
  · cases h
  · split at h <;> cases h
    rfl

theorem hostMemRead_next {a : Word} (h : hostMemRead a s = .next t) : t = record (.memRead a (memRead s a)) s := by
  unfold hostMemRead at h
  split at h
  · cases h
  · split at h <;> cases h
    rfl

/-- The host changes host memory only by its own writes. -/
theorem perform_mem {i : Input} (h : perform i s = .next t) :
    t.mem = s.mem ∨ ∃ a v, i = .memWrite a v ∧ t.mem = (memWrite s a v).mem := by
  cases i with
  | busWrite width offset w =>
    obtain ⟨-, -, hw⟩ := checkedAccess_next h
    exact .inl (regWrite_mem (s := record (.write offset w) s) hw)
  | busRead width offset =>
    obtain ⟨-, -, hr⟩ := checkedAccess_next h
    cases hr
    exact .inl (readAt_mem offset s)
  | wait =>
    cases h
    exact .inl (waitPoll_mem s)
  | memWrite a v =>
    obtain rfl := hostMemWrite_next h
    exact .inr ⟨a, v, rfl, rfl⟩
  | memRead a =>
    obtain rfl := hostMemRead_next h
    exact .inl rfl
  | reset =>
    cases h
    exact .inl rfl

/-- A step of the machine leaves host memory as it is or writes one byte of it. -/
theorem step_mem (h : step s = .next t) : t.mem = s.mem ∨ ∃ a v, t.mem = (memWrite s a v).mem := by
  obtain ⟨-, -, rfl⟩ | ⟨-, he⟩ | ⟨i, rest, -, -, hp⟩ := step_cases h
  · exact .inl rfl
  · obtain hm | ⟨b, -, -, rfl⟩ := engineStep_mem he
    · exact .inl hm
    · exact .inr ⟨outputAddr s, b, rfl⟩
  · obtain hm | ⟨a, v, -, hm⟩ := perform_mem hp
    · exact .inl hm
    · exact .inr ⟨a, v, hm⟩

end

/-- Settles O36: the one operation that changes host memory keeps its form. -/
theorem everyStepKeepsMemoryCanonical : Obligations.EveryStepKeepsMemoryCanonical := by
  intro s t hs h
  obtain hm | ⟨a, v, hm⟩ := step_mem h
  · rwa [MemInv, hm]
  · rw [MemInv, hm]
    exact memWrite_wf a v hs

/-- Settles O22, by the engine's phase and what a step of a running DECODE does. -/
theorem engineFrame : Obligations.EngineFrame := by
  intro s t h
  obtain ⟨he, rfl⟩ | ⟨he, rfl⟩ | ⟨he, rfl⟩ | ⟨hd, hstep⟩ := engineStep_shapes h
  · simp
  · simp [he]
  · simp [he, stepLutb, EState.decoding, EState.phase]
  · cases hstep with
    | moved e d he =>
      simp [hd, memRead]
    | wrote b he hroom => simp +contextual [he, memRead_putByte_other, EState.decoding, EState.phase]
    | ended he => simp [he, memRead]
    | failed d cls => simp [hd, memRead]

/-- Settles O43: only the output step writes, and the bounds of R39 put its byte in the buffer. -/
theorem engineWritesOnlyTheNextOutputByte : Obligations.EngineWritesOnlyTheNextOutputByte := by
  intro s t a hinv h hne
  obtain hm | ⟨b, he, hroom, rfl⟩ := engineStep_mem h
  · exact absurd (memRead_congr hm a) hne
  · obtain rfl : a = outputAddr s := by
      by_contra ha
      exact hne (memRead_putByte_other s b ha)
    obtain ⟨-, -, -, hout⟩ := hinv (he ▸ rfl)
    have hlt : s.dec.outPtr.toNat < s.dec.lOutCap.toNat := by bv_omega
    refine ⟨he, rfl, hlt, by simp [inOutput, outputAddr, hlt], ?_⟩
    rw [putByte_dec]
    bv_omega

end Sys2Proof.Machine
end

section
/-! What no step changes (R34), and when RESULT changes (R35). -/

namespace Sys2Proof.Machine

section
variable {s t : State}

theorem engineStep_rom_regions (h : engineStep s = .next t) : t.rom = s.rom ∧ t.regions = s.regions := by
  obtain ⟨-, -, -, -, hrom, hregions, -⟩ := engineFrame s t h
  exact ⟨hrom, hregions⟩

/-- What RESULT is after an engine step: what it was, or what the step that ends the command leaves in it (R234). -/
theorem engineStep_result (h : engineStep s = .next t) :
    t.result = s.result ∨ (s.estate = .lutb ∧ t = stepLutb s)
      ∨ (s.estate = .dEmit ∧ t = finish s .success s.dec.outPtr .none)
      ∨ ∃ d cls, t = raise { s with dec := d } cls := by
  obtain ⟨-, rfl⟩ | ⟨-, rfl⟩ | hl | ⟨-, hd⟩ := engineStep_shapes h
  · exact .inl rfl
  · exact .inl rfl
  · exact .inr (.inl hl)
  · cases hd with
    | moved e d => exact .inl rfl
    | wrote b => exact .inl rfl
    | ended he => exact .inr (.inr (.inl ⟨he, rfl⟩))
    | failed d cls => exact .inr (.inr (.inr ⟨d, cls, rfl⟩))

end

/-- Settles O41: a ROM holds only a table that passes, and neither the engine nor the host writes it or the map. -/
theorem romNeverChanges : Obligations.RomNeverChanges := by
  refine ⟨freq_wf, fun s t h => ?_⟩
  cases step_blockStep h with
  | kept hk => exact ⟨hk.rom, hk.regions⟩
  | engine he => exact engineStep_rom_regions (s := takeTurn s) he
  | init _ hk => exact ⟨hk.rom, hk.regions⟩
  | failed cls _ hk => exact ⟨hk.rom, hk.regions⟩
  | started _ _ hk => exact ⟨hk.rom, hk.regions⟩
  | reset _ hk => exact ⟨hk.rom, hk.regions⟩

/-- Settles O42: of the steps that end a command, only LUTB and the output step at EOS end it with success. -/
theorem resultChangesOnlyAtFinish : Obligations.ResultChangesOnlyAtFinish := by
  intro s t h hne
  cases step_blockStep h with
  | kept hk => exact absurd hk.result hne
  | engine he =>
    obtain hr | ⟨hl, rfl⟩ | ⟨hl, rfl⟩ | ⟨d, cls, rfl⟩ := engineStep_result he
    · exact absurd hr hne
    · exact .inr ⟨rfl, rfl, nofun, fun _ => .inl ⟨hl, rfl⟩⟩
    · exact .inr ⟨rfl, rfl, nofun, fun _ => .inr ⟨hl, rfl⟩⟩
    · exact .inr ⟨rfl, rfl, fun _ => rfl, nofun⟩
  | init _ hk => exact absurd hk.result hne
  | failed cls => exact .inr ⟨rfl, rfl, fun _ => rfl, nofun⟩
  | started _ _ hk => exact absurd hk.result hne
  | reset hin => exact .inl hin

end Sys2Proof.Machine
end

section
/-! An engine at an address that the platform does not admit (R68). -/

namespace Sys2Proof.Machine

section
variable {s t : State}

theorem engineStep_of_stuck (h : engineStuck s = true) : engineStep s = .fault .engineStuck :=
  (engineStuck_iff s).1 h

theorem busy_of_stuck (h : engineStuck s = true) : busy s = true := by
  by_contra hb
  have hidle : s.estate = .idle := (not_busy_iff s).1 (by simpa using hb)
  simp [engineStuck, hidle] at h

/-- The refill step with a byte to read, and the output step with a byte to write, are stuck at an address that does not
exist. -/
theorem engineStuck_of_unadmitted
    (h : (s.estate = .dB ∧ wantsByte s = true ∧ admits s (inputAddr s) = false)
      ∨ (s.estate = .dEmit ∧ s.dec.node ≠ eosIx ∧ s.dec.outPtr ≠ s.dec.lOutCap ∧ (emitByte s).isSome = true
          ∧ admits s (outputAddr s) = false)) : engineStuck s = true := by
  obtain ⟨he, hw, ha⟩ | ⟨he, hn, hroom, hb, ha⟩ := h
  · simp [engineStuck, he, hw, ha]
  · simp [engineStuck, wantsEmit, he, hn, hroom, hb, ha]

/-- While the engine is stuck a step that answers a next state is the host's, and short of a reset it keeps the block:
no command is accepted while busy. -/
theorem step_of_stuck (h : engineStuck s = true) (hs : step s = .next t) (hin : s.inputs.head? ≠ some .reset) :
    BlockKept s t := by
  have hbusy : s.estate ≠ .idle := fun he => by simpa [(not_busy_iff s).2 he] using busy_of_stuck h
  cases step_blockStep hs with
  | kept hk => exact hk
  | engine he =>
    have hstuck : engineStep (takeTurn s) = .fault .engineStuck := engineStep_of_stuck h
    cases hstuck.symm.trans he
  | init hidle => exact absurd hidle hbusy
  | failed cls hidle => exact absurd hidle hbusy
  | started hidle => exact absurd hidle hbusy
  | reset hr => exact absurd hr hin

end

/-- Settles O23: both cases are the engine stuck, and a busy block is left alone by all the host can do but a reset. -/
theorem unadmittedAddressSticksTheEngine : Obligations.UnadmittedAddressSticksTheEngine := by
  intro s hs
  have hstuck := engineStuck_of_unadmitted hs
  have hbusy := busy_of_stuck hstuck
  refine ⟨engineStep_of_stuck hstuck, hbusy, fun hin => ?_, fun t ht hin => ?_⟩
  · rw [step_of_engine (nextAgent_no_input hin hbusy)]
    exact engineStep_of_stuck (s := takeTurn s) hstuck
  · have hk := step_of_stuck hstuck ht hin
    exact ⟨hk.estate, hk.dec, by rw [busy, hk.estate]; exact hbusy, hk.result⟩

end Sys2Proof.Machine
end

section
/-! The decoder's steps one by one (R161 to R170): an equation for each thing that a step can find. -/

namespace Sys2Proof.Machine

section
variable {s : State}

/-! ### The step of each state -/

theorem engineStep_of_dA (he : s.estate = .dA) : engineStep s = .next (stepDA s) := by simp only [engineStep, he]

theorem engineStep_of_dB (he : s.estate = .dB) : engineStep s = stepDB s := by simp only [engineStep, he]

theorem engineStep_of_dC (he : s.estate = .dC) : engineStep s = .next (stepDC s) := by simp only [engineStep, he]

theorem engineStep_of_dD (he : s.estate = .dD) : engineStep s = .next (stepDD s) := by simp only [engineStep, he]

theorem engineStep_of_dWalk (he : s.estate = .dWalk) : engineStep s = .next (stepDWalk s) := by
  simp only [engineStep, he]

theorem engineStep_of_dEmit (he : s.estate = .dEmit) : engineStep s = stepDEmit s := by simp only [engineStep, he]

/-! ### D_B -/

theorem stepDB_of_wantsByte (hw : wantsByte s = true) (ha : admits s (inputAddr s) = true) :
    stepDB s = .next (takeByte s) := by
  rw [stepDB, if_pos hw, if_pos ha]

theorem stepDB_of_done (hw : wantsByte s = false) : stepDB s = .next { s with estate := .dC } := by
  rw [stepDB, if_neg (by simp [hw])]

/-! ### D_D -/

theorem stepDD_of_none (hn : nodeAt s.tab.node s.dec.node = none) : stepDD s = raise s .invalidCode := by
  simp only [stepDD, hn]

theorem stepDD_of_leaf {y : BitVec 9} {c : BitVec 24} {len : BitVec 5}
    (hn : nodeAt s.tab.node s.dec.node = some (.leaf y c len)) :
    stepDD s = if s.dec.bitcnt.toNat < len.toNat then raise s .truncated
      else { s with dec := dropBits s.dec len.toNat, estate := .dEmit } := by
  simp only [stepDD, hn]

theorem stepDD_of_internal {c0 c1 : NodeIx} (hn : nodeAt s.tab.node s.dec.node = some (.internal c0 c1)) :
    stepDD s = if s.dec.bitcnt.toNat < 10 then raise s .truncated
      else { s with dec := dropBits s.dec 10, estate := .dWalk } := by
  simp only [stepDD, hn]

/-! ### D_WALK -/

theorem stepDWalk_of_no_bit (h0 : s.dec.bitcnt = 0#6) : stepDWalk s = raise s .truncated := if_pos h0

theorem stepDWalk_of_none (h0 : s.dec.bitcnt ≠ 0#6) (hc : 512 < (walkChild s).toNat) :
    stepDWalk s = raise s .invalidCode := by
  rw [stepDWalk, if_neg h0, if_pos hc]

theorem stepDWalk_of_leaf (h0 : s.dec.bitcnt ≠ 0#6) (hc : (walkChild s).toNat ≤ 512)
    (hleaf : isLeafAt s.tab.node (walkChild s) = true) : stepDWalk s = { walkTake s with estate := .dEmit } := by
  rw [stepDWalk, if_neg h0, if_neg (Nat.not_lt.2 hc), if_pos hleaf]

theorem stepDWalk_of_internal (h0 : s.dec.bitcnt ≠ 0#6) (hc : (walkChild s).toNat ≤ 512)
    (hleaf : isLeafAt s.tab.node (walkChild s) = false) :
    stepDWalk s = if (walkTake s).dec.bitcnt = 0#6 then raise (walkTake s) .truncated else walkTake s := by
  rw [stepDWalk, if_neg h0, if_neg (Nat.not_lt.2 hc), if_neg (by simp [hleaf])]

theorem walkTake_bitcnt_toNat (h0 : s.dec.bitcnt ≠ 0#6) :
    (walkTake s).dec.bitcnt.toNat = s.dec.bitcnt.toNat - 1 := by
  have hpos : 1 ≤ s.dec.bitcnt.toNat := by bv_omega
  exact dropBits_bitcnt_toNat hpos

theorem walkTake_bits_toNat (s : State) : (walkTake s).dec.bits.toNat = s.dec.bits.toNat / 2 :=
  dropBits_bits_toNat s.dec 1

/-! ### D_EMIT -/

theorem stepDEmit_of_eos (hn : s.dec.node = eosIx) : stepDEmit s = .next (finish s .success s.dec.outPtr .none) :=
  if_pos hn

theorem stepDEmit_of_full (hn : s.dec.node ≠ eosIx) (hfull : s.dec.outPtr = s.dec.lOutCap) :
    stepDEmit s = .next (raise s .outputOverflow) := by
  rw [stepDEmit, if_neg hn, if_pos hfull]

theorem emitByte_of_leaf {y : BitVec 9} {c : BitVec 24} {len : BitVec 5}
    (hleaf : nodeAt s.tab.node s.dec.node = some (.leaf y c len)) : emitByte s = some (y.setWidth 8) := by
  simp only [emitByte, hleaf]

theorem stepDEmit_of_room {b : Byte} (hn : s.dec.node ≠ eosIx) (hroom : s.dec.outPtr ≠ s.dec.lOutCap)
    (hb : emitByte s = some b) (ha : admits s (outputAddr s) = true) : stepDEmit s = .next (putByte s b) := by
  simp only [stepDEmit, if_neg hn, if_neg hroom, hb, if_pos ha]

end

/-! ### The statements -/

/-- Settles O15, by whether ten bits are there. -/
theorem preRefillLookup : Obligations.PreRefillLookup := by
  intro s he
  rw [engineStep_of_dA he, stepDA]
  split <;> rfl

/-- Settles O16: `wantsByte` is the refill's condition. -/
theorem refillTakesOneByteAStep : Obligations.RefillTakesOneByteAStep := by
  intro s he
  rw [engineStep_of_dB he]
  refine ⟨fun hcnt hin ha => stepDB_of_wantsByte ((wantsByte_iff s).2 ⟨hcnt, hin⟩) ha, fun hdone => ?_⟩
  exact stepDB_of_done (Bool.eq_false_iff.2 fun hw => hdone ((wantsByte_iff s).1 hw))

/-- Settles O17: D_C is one assignment. -/
theorem lateLookup : Obligations.LateLookup := fun _ he => engineStep_of_dC he

/-- Settles O18, by the node looked up and whether the accumulator holds the bits it takes. -/
theorem resolveTheLookedUpNode : Obligations.ResolveTheLookedUpNode := by
  intro s he
  rw [engineStep_of_dD he]
  refine ⟨fun hgt => ?_, fun y c len hn => ⟨fun hlt => ?_, fun hle => ?_⟩,
    fun c0 c1 hn => ⟨fun hlt => ?_, fun hle => ?_⟩⟩
  · rw [stepDD_of_none (Vector.getElem?_eq_none hgt)]
  · rw [stepDD_of_leaf hn, if_pos hlt]
  · rw [stepDD_of_leaf hn, if_neg (Nat.not_lt.2 hle)]
    exact ⟨_, rfl, rfl, rfl, dropBits_bits_toNat _ _, dropBits_bitcnt_toNat hle⟩
  · rw [stepDD_of_internal hn, if_pos hlt]
  · rw [stepDD_of_internal hn, if_neg (Nat.not_lt.2 hle)]
    exact ⟨_, rfl, rfl, rfl, dropBits_bits_toNat _ _, dropBits_bitcnt_toNat hle⟩

/-- Settles O19, check by check; the child is the one in the slot of the next bit. -/
theorem walkTakesOneBitAStep : Obligations.WalkTakesOneBitAStep := by
  intro s c0 c1 he hn
  rw [engineStep_of_dWalk he]
  refine ⟨fun h0 => ?_, fun h0 c hc => ?_⟩
  · rw [stepDWalk_of_no_bit (by bv_omega)]
  have h0' : s.dec.bitcnt ≠ 0#6 := by bv_omega
  obtain rfl : c = walkChild s := by rw [hc, walkChild, childAt, hn]
  refine ⟨fun hgt => by rw [stepDWalk_of_none h0' hgt], fun hle => ?_⟩
  have hcnt := walkTake_bitcnt_toNat h0'
  cases hleaf : isLeafAt s.tab.node (walkChild s) with
  | true =>
    rw [stepDWalk_of_leaf h0' hle hleaf]
    exact ⟨_, rfl, rfl, walkTake_bits_toNat s, hcnt, fun _ => rfl, nofun, nofun⟩
  | false =>
    rw [stepDWalk_of_internal h0' hle hleaf]
    split
    · next hlast =>
      refine ⟨_, rfl, rfl, walkTake_bits_toNat s, hcnt, nofun, fun _ hmore => ?_, fun _ _ => ⟨rfl, rfl, rfl, rfl, rfl⟩⟩
      rw [hlast] at hcnt
      exact absurd hcnt.symm (Nat.sub_ne_zero_of_lt hmore)
    · next hmore =>
      refine ⟨_, rfl, rfl, walkTake_bits_toNat s, hcnt, nofun, fun _ _ => he, fun _ hone => ?_⟩
      exact absurd (BitVec.eq_of_toNat_eq (by rw [hcnt, hone]; rfl)) hmore

/-- Settles O20, in the order of the output step's tests. -/
theorem emitEndsOverflowsOrWrites : Obligations.EmitEndsOverflowsOrWrites := by
  intro s he
  rw [engineStep_of_dEmit he]
  refine ⟨stepDEmit_of_eos, stepDEmit_of_full, fun y c l hn hroom hleaf hmem ha => ?_⟩
  exact ⟨_, stepDEmit_of_room hn hroom (emitByte_of_leaf hleaf) ha, rfl, rfl, memRead_memWrite_same hmem _ _,
    fun _ => memRead_putByte_other s _⟩

end Sys2Proof.Machine
end

section
/-! What no engine step reads: the parameter registers (R257) and whose turn is next (R12). -/

namespace Sys2Proof.Machine

/-- The state with other values in what no engine step reads. -/
def setUnread (inBase inLen outBase outCap : Word) (turns : List Agent) (s : State) : State :=
  { s with inBase := inBase, inLen := inLen, outBase := outBase, outCap := outCap, turns := turns }

section
variable (a b c d : Word) (turns : List Agent) (s : State)

theorem stepDA_setUnread : stepDA (setUnread a b c d turns s) = setUnread a b c d turns (stepDA s) := by
  unfold stepDA
  rw [apply_ite (setUnread a b c d turns)]
  rfl

theorem stepDB_setUnread : stepDB (setUnread a b c d turns s) = mapNext (setUnread a b c d turns) (stepDB s) := by
  unfold stepDB
  rw [apply_ite (mapNext _), apply_ite (mapNext _)]
  rfl

theorem stepDD_setUnread : stepDD (setUnread a b c d turns s) = setUnread a b c d turns (stepDD s) := by
  cases hn : nodeAt s.tab.node s.dec.node with
  | none =>
    rw [stepDD_of_none hn, stepDD_of_none (s := setUnread a b c d turns s) hn]
    rfl
  | some n =>
    cases n with
    | leaf y code len =>
      rw [stepDD_of_leaf hn, stepDD_of_leaf (s := setUnread a b c d turns s) hn, apply_ite (setUnread a b c d turns)]
      rfl
    | internal c0 c1 =>
      rw [stepDD_of_internal hn, stepDD_of_internal (s := setUnread a b c d turns s) hn,
        apply_ite (setUnread a b c d turns)]
      rfl

theorem stepDWalk_setUnread : stepDWalk (setUnread a b c d turns s) = setUnread a b c d turns (stepDWalk s) := by
  unfold stepDWalk
  simp only [apply_ite (setUnread a b c d turns)]
  rfl

theorem stepDEmit_setUnread :
    stepDEmit (setUnread a b c d turns s) = mapNext (setUnread a b c d turns) (stepDEmit s) := by
  have hb : emitByte (setUnread a b c d turns s) = emitByte s := rfl
  unfold stepDEmit
  rw [hb]
  cases emitByte s <;> simp only [apply_ite (mapNext _)] <;> rfl

/-- The engine's step is the same with other values in what it does not read, but for those values. -/
theorem engineStep_setUnread :
    engineStep (setUnread a b c d turns s) = mapNext (setUnread a b c d turns) (engineStep s) := by
  have he : (setUnread a b c d turns s).estate = s.estate := rfl
  unfold engineStep
  rw [he]
  cases s.estate with
  | idle | tree | lutb | dC => rfl
  | dA => exact congrArg _ (stepDA_setUnread a b c d turns s)
  | dB => exact stepDB_setUnread a b c d turns s
  | dD => exact congrArg _ (stepDD_setUnread a b c d turns s)
  | dWalk => exact congrArg _ (stepDWalk_setUnread a b c d turns s)
  | dEmit => exact stepDEmit_setUnread a b c d turns s

end

/-- An engine step leaves the turns alone. -/
theorem engineStep_turns {s t : State} (h : engineStep s = .next t) : t.turns = s.turns := by
  obtain ⟨-, -, -, -, -, -, -, -, hturns, -⟩ := engineFrame s t h
  exact hturns

/-- Settles O44: the parameter registers are among what the engine does not read, and it does not write the turns. -/
theorem parameterWritesDoNotReachARunningCommand : Obligations.ParameterWritesDoNotReachARunningCommand := by
  intro s a b c d
  calc engineStep (setParams s a b c d)
    _ = mapNext (setUnread a b c d s.turns) (engineStep s) := engineStep_setUnread a b c d s.turns s
    _ = mapNext (fun t => setParams t a b c d) (engineStep s) := by
      cases hs : engineStep s with
      | next t =>
        rw [← engineStep_turns hs]
        rfl
      | fault r | refused r => rfl

end Sys2Proof.Machine
end

section
/-! Whose step it is (R12), and the steps of an idle block and of a WAIT (R94, R252). -/

namespace Sys2Proof.Machine

/-! ### Turns -/

/-- A step of a busy machine whose engine is not stuck is the engine's unless the turn is the host's. -/
theorem nextAgent_of_engine_turn {s : State} (hb : busy s = true) (hstuck : engineStuck s = false)
    (ht : s.turns.head?.getD .engine = .engine) : nextAgent s = some .engine := by
  simp [nextAgent, hb, hstuck, ht]

theorem takeTurn_of_no_turns {s : State} (h : s.turns = []) : takeTurn s = s := by
  rw [takeTurn, h, List.tail_nil, ← h]

/-- Settles O34, by the head of the list of turns. -/
theorem engineIsNeverStarved : Obligations.EngineIsNeverStarved := by
  intro s hb hstuck
  refine ⟨fun ht => ?_, fun turns ht => ?_, fun turns i rest ht hin => ?_⟩
  · rw [step_of_engine (nextAgent_of_engine_turn hb hstuck (by simp [ht])), takeTurn_of_no_turns ht]
  · rw [step_of_engine (nextAgent_of_engine_turn hb hstuck (by simp [ht])), takeTurn, ht, List.tail_cons]
  · rw [step_of_host (nextAgent_host_turn hin ht) hin, takeTurn, ht, List.tail_cons]

/-! ### Waiting -/

theorem step_of_idle {s : State} (he : s.estate = .idle) (hin : s.inputs = []) : step s = .next s := by
  simp [step, nextAgent, hin, (not_busy_iff s).2 he]

/-- Settles O32: after reset the block is idle, and an idle block with nothing asked of it does not move. -/
theorem resetStateWaits : Obligations.ResetStateWaits :=
  ⟨rfl, by decide, rfl, rfl, rfl, rfl, rfl, step_of_idle rfl rfl, fun _ => step_of_idle⟩

/-- A poll notes the STATUS word and draws no free value. -/
theorem readAt_status (s : State) : readAt 0x004#14 s = record (.read 0x004#14 (statusWord s)) s := rfl

/-- Settles O33, by whether the poll finds the block busy. -/
theorem waitPollsStatus : Obligations.WaitPollsStatus := by
  intro s rest h
  have hbusy : busy (taken s rest) = busy s := rfl
  refine ⟨waitPoll (taken s rest), step_of_host h.1 h.2, ?_⟩
  rw [waitPoll, hbusy, readAt_status]
  cases busy s with
  | true => exact ⟨rfl, fun _ => rfl, nofun, rfl⟩
  | false => exact ⟨rfl, nofun, fun _ => rfl, rfl⟩

end Sys2Proof.Machine
end

section
/-! The words of the commands, and the write of one as the host's next move (R81, R82, R200). -/

namespace Sys2Proof.Machine

/-- A CMD write that is the host's next move carries out the command of its word. -/
theorem step_of_cmdWrite {s : State} {w : Word} {rest : List Input} {i : Instr}
    (h : HostNext s (.busWrite .w32 0x000#14 w) rest) (hw : decodeCmd w = .ok i) :
    step s = exec i (record (.write 0x000#14 w) (taken s rest)) := by
  rw [step_of_host h.1 h.2, decodeCmd_eq_ok_iff.1 hw]
  exact cmdWrite_encode i _

theorem hostNext_withFetchWord (s : State) (nbits w : Nat) :
    HostNext (s.withFetchWord nbits w) (.busWrite .w32 0x000#14 (tableWord nbits w)) s.inputs :=
  ⟨nextAgent_host_turn rfl rfl, rfl⟩

theorem decodeCmd_of_decodeTableWord {nbits w : Nat} {i : Instr} (h : decodeTableWord nbits w = some i) :
    decodeCmd (tableWord nbits w) = .ok i := by
  unfold decodeTableWord at h
  split at h
  · split at h <;> cases h
    assumption
  · cases h

/-- Settles O4; `withFetchWord` makes a CMD write of the word the host's next move. -/
theorem stepRunsTheDecodedCommand : Obligations.StepRunsTheDecodedCommand :=
  ⟨fun _ _ _ _ => step_of_cmdWrite, fun s nbits w _ h =>
    step_of_cmdWrite (hostNext_withFetchWord s nbits w) (decodeCmd_of_decodeTableWord h)⟩

/-- Settles O2: a word decodes to a command exactly when it is the command's word. -/
theorem encodeAndDecodeAgree : Obligations.EncodeAndDecodeAgree :=
  fun i _ => ⟨decodeCmd_encode i, fun _ => decodeCmd_eq_ok_iff.1⟩

theorem decodeTableWord_encode (i : Instr) : decodeTableWord 32 (encode i).toNat = some i := by
  have hw : tableWord 32 (encode i).toNat = encode i := by
    rw [tableWord, Nat.mod_eq_of_lt (encode i).isLt, BitVec.ofNat_toNat, BitVec.setWidth_eq]
  simp only [decodeTableWord, le_refl, if_true, hw, decodeCmd_encode]

/-- Settles O3: three of the words are those of the commands, the others have a reserved opcode or a reserved bit. -/
theorem tableWordsDecode : Obligations.TableWordsDecode :=
  ⟨decodeTableWord_encode .nop, decodeTableWord_encode .init, decodeTableWord_encode .decode, by decide, by decide⟩

end Sys2Proof.Machine
end

section
/-! The frame of the commands (R203 to R207). -/

namespace Sys2Proof.Machine

/-- Settles O6: INIT is accepted, and what STATUS then shows is the state of an accepted INIT. -/
theorem initIsAcceptedWhenIdle : Obligations.InitIsAcceptedWhenIdle :=
  fun s hb => ⟨exec_init_of_idle hb, statusWord_initAccepted s⟩

/-- Settles O14, by what each command can do. -/
theorem commandFrame : Obligations.CommandFrame := by
  intro i s t h
  obtain ⟨rfl, rfl⟩ | ⟨hi, hb, rfl⟩ | ⟨rfl, hb, rfl⟩ | ⟨rfl, hb, hr, rfl⟩ | ⟨rfl, hb, hr, -, rfl⟩ := exec_cases h
  · simp
  · simp [memRead, hi, hb, reject]
  · simp [memRead, hb]
  · simp [memRead, hb]
  · simp [memRead, hb, decodeStart]

end Sys2Proof.Machine
end

section
/-! Reads of the registers and of the reserved offsets (R89, R201). -/

namespace Sys2Proof.Machine

theorem regOf_reserved {a : Offset}
    (h : (0x01C ≤ a.toNat ∧ a.toNat ≤ 0x3FC) ∨ (0x804 ≤ a.toNat ∧ a.toNat ≤ 0xFFC)
      ∨ (0x2008 ≤ a.toNat ∧ a.toNat ≤ 0x2FFC)) : regOf a = .reserved := by
  simp only [regOf]
  repeat rw [if_neg (by omega)]
  repeat rw [dif_neg (by omega)]

/-- Settles O27: where each offset points, and that a read is noted and does nothing more. -/
theorem registerReads : Obligations.RegisterReads := by
  refine fun s => ⟨rfl, rfl, rfl, rfl, rfl, rfl, rfl, fun a _ hres => ?_, fun a ha => ?_⟩
  · rw [regOf_reserved hres, regRead]
  · exact ⟨readAt a s, checkedAccess_ok ha _, readAt_eq a s⟩

end Sys2Proof.Machine
end

section
/-! The host's accesses to its own memory (R62, R63, R71). -/

namespace Sys2Proof.Machine

section
variable {s : State} {a : Word}

theorem hostMemRead_of_admitted (ha : admits s a = true) (hd : s.estate.decoding = false ∨ inOutput s a = false) :
    hostMemRead a s = .next (record (.memRead a (memRead s a)) s) := by
  rw [hostMemRead, if_neg (by obtain hd | hd := hd <;> simp [hd]), if_pos ha]

theorem hostMemWrite_of_admitted (ha : admits s a = true)
    (hd : s.estate.decoding = false ∨ (inInput s a = false ∧ inOutput s a = false)) (v : Byte) :
    hostMemWrite a v s = .next (record (.memWrite a v) (memWrite s a v)) := by
  rw [hostMemWrite, if_neg (by obtain hd | hd := hd <;> simp [hd]), if_pos ha]

end

/-- Settles O30, by the laws of host memory. -/
theorem hostMemoryAccess : Obligations.HostMemoryAccess := by
  intro s a v ha hmem
  refine ⟨hostMemRead_of_admitted ha, fun hd => ⟨_, hostMemWrite_of_admitted ha hd v, ?_, fun b hb => ?_, rfl⟩⟩
  · exact memRead_memWrite_same hmem a v
  · exact memRead_memWrite_other s v hb

end Sys2Proof.Machine
end

section
/-! The invariants in the state after reset (R40). -/

namespace Sys2Proof.Machine

/-- Settles O35: after reset the block is idle with READY = 0 and nothing is listed in memory. -/
theorem invariantsHoldAtReset : Obligations.InvariantsHoldAtReset :=
  ⟨reset_memory_wf, nofun, codecInv_of_idle rfl nofun, by simp [NodeInv, State.reset],
    candInv_of_elsewhere nofun nofun, freq_wf _⟩

end Sys2Proof.Machine
end

section
/-! The node that the decoder holds (R144, R164, R167): with tables that READY vouches for, it is always one that the
engine's state needs. -/

namespace Sys2Proof.Machine

section
variable {s t : State}

theorem CodecInv.tab_eq (h : CodecInv s) (hd : s.estate.decoding = true) : s.tab = builtTables s.freq :=
  h.1 (h.2.2.2 hd)

/-! ### Where the decoder's lookups and its walk lead -/

theorem lutLookup_le {f : FreqTable} (htab : s.tab = builtTables f) : (lutLookup s).toNat ≤ 512 := by
  rw [lutLookup, htab]
  exact lutBuild_le (lutIndex s).isLt

theorem le_of_isInternalAt {node : Vector Node 513} {i : NodeIx} (h : isInternalAt node i = true) : i.toNat ≤ 512 := by
  by_contra hgt
  rw [isInternalAt, nodeAt, Vector.getElem?_eq_none (Nat.lt_of_not_le hgt)] at h
  cases h

theorem walkChild_le {f : FreqTable} (htab : s.tab = builtTables f)
    (hnode : isInternalAt s.tab.node s.dec.node = true) : (walkChild s).toNat ≤ 512 := by
  have hle := le_of_isInternalAt hnode
  rw [isInternalAt_eq_not_isLeafAt _ hle, Bool.not_eq_true'] at hnode
  rw [walkChild]
  rw [htab] at hnode ⊢
  exact childAt_le_of_not_leaf hle hnode _

/-! ### The invariant, state by state -/

theorem BlockKept.nodeInv (hk : BlockKept s t) (h : NodeInv s) : NodeInv t := by
  simpa only [NodeInv, hk.estate, hk.dec, hk.tab] using h

/-- Nothing is asked of the decoder's registers while no DECODE runs. -/
theorem nodeInv_of_not_decoding (hd : t.estate.decoding = false) : NodeInv t := by
  refine ⟨fun he => ?_, fun he => ?_, fun he => ?_, fun he => ?_⟩
  · obtain he | he := he <;> simp [he, EState.decoding, EState.phase] at hd
  all_goals simp [he, EState.decoding, EState.phase] at hd

theorem nodeInv_of_dA (he : t.estate = .dA) : NodeInv t := by simp [NodeInv, he]

theorem nodeInv_of_refill (he : t.estate = .dB ∨ t.estate = .dC)
    (hcand : t.dec.candv = true → t.dec.cand.toNat ≤ 512) : NodeInv t := by
  obtain he | he := he <;> simpa [NodeInv, he] using hcand

theorem nodeInv_of_dD (he : t.estate = .dD) (hnode : t.dec.node.toNat ≤ 512) : NodeInv t := by
  simpa [NodeInv, he] using hnode

theorem nodeInv_of_dWalk (he : t.estate = .dWalk) (hnode : isInternalAt t.tab.node t.dec.node = true) : NodeInv t := by
  simpa [NodeInv, he] using hnode

theorem nodeInv_of_dEmit (he : t.estate = .dEmit) (hnode : isLeafAt t.tab.node t.dec.node = true) : NodeInv t := by
  simpa [NodeInv, he] using hnode

/-! ### The steps -/

theorem stepDA_nodeInv {f : FreqTable} (htab : s.tab = builtTables f) : NodeInv (stepDA s) := by
  unfold stepDA
  split
  · exact nodeInv_of_refill (.inl rfl) fun _ => lutLookup_le htab
  · exact nodeInv_of_refill (.inl rfl) nofun

theorem stepDC_nodeInv {f : FreqTable} (htab : s.tab = builtTables f)
    (hcand : s.dec.candv = true → s.dec.cand.toNat ≤ 512) : NodeInv (stepDC s) := by
  refine nodeInv_of_dD rfl ?_
  rw [stepDC]
  split
  · next hv => exact hcand hv
  · exact lutLookup_le htab

theorem stepDD_nodeInv (s : State) : NodeInv (stepDD s) := by
  obtain ⟨-, hs⟩ | ⟨y, c, len, -, -, hs⟩ | ⟨y, c, len, hn, -, hs⟩ | ⟨c0, c1, -, -, hs⟩ | ⟨c0, c1, hn, -, hs⟩ :=
    stepDD_cases s <;> rw [hs]
  · exact nodeInv_of_not_decoding rfl
  · exact nodeInv_of_not_decoding rfl
  · exact nodeInv_of_dEmit rfl (isLeafAt_iff.2 ⟨y, c, len, hn⟩)
  · exact nodeInv_of_not_decoding rfl
  · refine nodeInv_of_dWalk rfl ?_
    simp only [isInternalAt, dropBits, hn]

theorem stepDWalk_nodeInv (he : s.estate = .dWalk) : NodeInv (stepDWalk s) := by
  obtain ⟨-, hs⟩ | ⟨-, -, hs⟩ | ⟨-, -, hleaf, hs⟩ | ⟨-, -, -, -, hs⟩ | ⟨-, hle, hleaf, -, hs⟩ :=
    stepDWalk_cases s <;> rw [hs]
  · exact nodeInv_of_not_decoding rfl
  · exact nodeInv_of_not_decoding rfl
  · exact nodeInv_of_dEmit rfl hleaf
  · exact nodeInv_of_not_decoding rfl
  · refine nodeInv_of_dWalk he ?_
    rw [walkTake_tab, walkTake_dec, isInternalAt_eq_not_isLeafAt _ hle, hleaf]
    rfl

theorem engineStep_keeps_nodeInv (hc : CodecInv s) (h : NodeInv s) (hs : engineStep s = .next t) : NodeInv t := by
  obtain ⟨hcand, -⟩ := h
  obtain ⟨he, rfl⟩ | ⟨-, rfl⟩ | ⟨-, rfl⟩ | ⟨he, rfl⟩ | ⟨he, -, -, rfl⟩ | ⟨he, -, rfl⟩ | ⟨he, rfl⟩ | ⟨-, rfl⟩ | ⟨he, rfl⟩
    | ⟨-, -, rfl⟩ | ⟨-, -, -, rfl⟩ | ⟨b, -, -, -, -, -, rfl⟩ := engineStep_cases hs
  · exact nodeInv_of_not_decoding (he ▸ rfl)
  · exact nodeInv_of_not_decoding rfl
  · exact nodeInv_of_not_decoding rfl
  · exact stepDA_nodeInv (hc.tab_eq (he ▸ rfl))
  · exact nodeInv_of_refill (.inl he) (hcand (.inl he))
  · exact nodeInv_of_refill (.inr rfl) (hcand (.inl he))
  · exact stepDC_nodeInv (hc.tab_eq (he ▸ rfl)) (hcand (.inr he))
  · exact stepDD_nodeInv s
  · exact stepDWalk_nodeInv he
  · exact nodeInv_of_not_decoding rfl
  · exact nodeInv_of_not_decoding rfl
  · exact nodeInv_of_dA rfl

theorem step_keeps_nodeInv (hc : CodecInv s) (h : NodeInv s) (hs : step s = .next t) : NodeInv t := by
  cases step_blockStep hs with
  | kept hk => exact hk.nodeInv h
  | engine he => exact engineStep_keeps_nodeInv (s := takeTurn s) hc h he
  | init => exact nodeInv_of_not_decoding rfl
  | failed cls => exact nodeInv_of_not_decoding rfl
  | started => exact nodeInv_of_dA rfl
  | reset => exact nodeInv_of_not_decoding rfl

/-! ### INVALID_CODE -/

/-- The two steps that can raise INVALID_CODE do so on a node, or a child, that does not exist. -/
theorem engineStep_invalidCode (hs : engineStep s = .next t) (ht : t.errClass = .invalidCode) :
    s.errClass = .invalidCode ∨ (s.estate = .dD ∧ 512 < s.dec.node.toNat)
      ∨ (s.estate = .dWalk ∧ 512 < (walkChild s).toNat) := by
  obtain ⟨-, rfl⟩ | ⟨-, rfl⟩ | ⟨-, rfl⟩ | ⟨-, rfl⟩ | ⟨-, -, -, rfl⟩ | ⟨-, -, rfl⟩ | ⟨-, rfl⟩ | ⟨he, rfl⟩ | ⟨he, rfl⟩
    | ⟨-, -, rfl⟩ | ⟨-, -, -, rfl⟩ | ⟨b, -, -, -, -, -, rfl⟩ := engineStep_cases hs
  · exact .inl ht
  · exact .inl ht
  · cases ht
  · unfold stepDA at ht
    split at ht <;> exact .inl ht
  · exact .inl ht
  · exact .inl ht
  · exact .inl ht
  · obtain ⟨hn, hs⟩ | ⟨y, c, len, -, -, hs⟩ | ⟨y, c, len, -, -, hs⟩ | ⟨c0, c1, -, -, hs⟩ | ⟨c0, c1, -, -, hs⟩ :=
      stepDD_cases s <;> rw [hs] at ht
    · exact .inr (.inl ⟨he, Vector.getElem?_eq_none_iff.1 hn⟩)
    · cases ht
    · exact .inl ht
    · cases ht
    · exact .inl ht
  · obtain ⟨-, hs⟩ | ⟨-, hgt, hs⟩ | ⟨-, -, -, hs⟩ | ⟨-, -, -, -, hs⟩ | ⟨-, -, -, -, hs⟩ := stepDWalk_cases s <;>
      rw [hs] at ht
    · cases ht
    · exact .inr (.inr ⟨he, hgt⟩)
    · exact .inl ht
    · cases ht
    · exact .inl ht
  · cases ht
  · cases ht
  · exact .inl ht

theorem estate_of_emitNotLeaf (hs : engineStep s = .fault .emitNotLeaf) : s.estate = .dEmit ∧ emitByte s = none := by
  cases he : s.estate with
  | dB =>
    rw [engineStep_of_dB he, stepDB] at hs
    split_ifs at hs
    cases hs
  | dEmit =>
    cases hb : emitByte s with
    | none => exact ⟨rfl, rfl⟩
    | some b =>
      simp only [engineStep_of_dEmit he, stepDEmit, hb] at hs
      split_ifs at hs
      cases hs
  | _ => simp [engineStep, he] at hs

end

/-- Settles O39: the node invariant step by step, and under it the checks that could fail find a node. -/
theorem invalidCodeIsUnreachable : Obligations.InvalidCodeIsUnreachable := by
  intro s hc h
  refine ⟨fun t => step_keeps_nodeInv hc h, fun t hs ht => ?_, fun hs => ?_⟩
  · obtain ⟨-, hD, hW, -⟩ := h
    obtain ht | ⟨he, hgt⟩ | ⟨he, hgt⟩ := engineStep_invalidCode hs ht
    · exact ht
    · exact absurd (hD he) (Nat.not_le.2 hgt)
    · exact absurd (walkChild_le (hc.tab_eq (he ▸ rfl)) (hW he)) (Nat.not_le.2 hgt)
  · obtain ⟨he, hb⟩ := estate_of_emitNotLeaf hs
    obtain ⟨-, -, -, hE⟩ := h
    obtain ⟨y, c, l, hn⟩ := isLeafAt_iff.1 (hE he)
    cases hb.symm.trans (emitByte_of_leaf hn)

end Sys2Proof.Machine
end

section
/-! The regions of a DECODE that would start (R72): two runs of addresses modulo 2^32 share a byte exactly when one of
them starts inside the other. -/

namespace Sys2Proof.Machine

theorem regionsOverlap_iff (base1 len1 base2 len2 : Word) :
    regionsOverlap base1 len1 base2 len2 = true ↔ ∃ j k : Nat, j < len1.toNat ∧ k < len2.toNat
      ∧ base1 + BitVec.ofNat 32 j = base2 + BitVec.ofNat 32 k := by
  simp only [regionsOverlap, inRange, Bool.and_eq_true, Bool.or_eq_true, bne_iff_ne, decide_eq_true_eq]
  constructor
  · rintro ⟨⟨h1, h2⟩, hin | hin⟩
    · exact ⟨(base2 - base1).toNat, 0, hin, by bv_omega, by bv_omega⟩
    · exact ⟨0, (base1 - base2).toNat, by bv_omega, hin, by bv_omega⟩
  · rintro ⟨j, k, hj, hk, heq⟩
    refine ⟨⟨by bv_omega, by bv_omega⟩, ?_⟩
    obtain hle | hlt := le_or_gt k j
    · exact .inl (by bv_omega)
    · exact .inr (by bv_omega)

/-- Settles O12: DECODE refuses the regions that `regionsOverlap` finds to share a byte. -/
theorem decodeRefusedIffRegionsShareAByte : Obligations.DecodeRefusedIffRegionsShareAByte := by
  intro s hb hready
  rw [← regionsOverlap_iff]
  refine ⟨fun h => ?_, exec_decode_of_overlap hb hready⟩
  obtain ⟨-, -, -, hover, -⟩ := exec_refused h
  exact hover

end Sys2Proof.Machine
end

section
/-! The weights in the merge loop (R106, R109), and what the finished node array is and is not made of (R31, R100). -/

namespace Sys2Proof.Machine

open scoped List

/-! ### The kinds of the nodes and the table's entries -/

/-- Settles O48: the code assignment leaves a leaf its symbol and an internal node its children. -/
theorem treeNodeKinds : Obligations.TreeNodeKinds := by
  refine fun f i h => ⟨fun hi => ?_, fun hi => treeBuild_internal hi h⟩
  obtain ⟨p, -, -, hn⟩ := treeBuild_leaf (f := f) hi
  exact ⟨_, _, hn⟩

theorem weight_congr {f g : FreqTable} (h : ∀ (i : Nat) (h : i < 256), f[i] = g[i]) {s : Nat} (hs : s < 257) :
    weight f s = weight g s := by
  obtain rfl | hne := eq_or_ne s 256
  · rw [weight_eos, weight_eos]
  · rw [weight_eq_getElem f hs hne, weight_eq_getElem g hs hne, h s (by omega)]

/-- Settles O53: the tree is built from the weights, and EOS weighs 1 whatever its entry (R102). -/
theorem treeIgnoresTheEosEntry : Obligations.TreeIgnoresTheEosEntry := by
  intro f g h
  have hinit : initBuild f = initBuild g := by
    have hwl : ∀ s ∈ List.range 257, (⟨BitVec.ofNat 10 s, weight f s⟩ : Record) = ⟨BitVec.ofNat 10 s, weight g s⟩ :=
      fun s hs => by rw [weight_congr h (List.mem_range.1 hs)]
    rw [initBuild, initBuild, List.map_congr_left hwl]
  simp only [treeBuild, codePaths, mergeAll, hinit]

/-! ### The sum of the weights -/

/-- The exact sum of the frequencies of a list of records. -/
def freqSum (l : List Record) : Nat := (l.map fun r => r.freq.toNat).sum

@[simp] theorem freqSum_cons (r : Record) (l : List Record) : freqSum (r :: l) = r.freq.toNat + freqSum l := by
  simp [freqSum]

@[simp] theorem freqSum_append (l l' : List Record) : freqSum (l ++ l') = freqSum l + freqSum l' := by
  simp [freqSum]

@[simp] theorem freqSum_nil : freqSum [] = 0 := rfl

theorem freqSum_perm {l l' : List Record} (h : l ~ l') : freqSum l = freqSum l' := (h.map _).sum_eq

theorem freq_le_freqSum {r : Record} {l : List Record} (h : r ∈ l) : r.freq.toNat ≤ freqSum l :=
  List.le_sum_of_mem (List.mem_map_of_mem h)

/-- The merged record's weight does not wrap when the exact sum fits 32 bits (R106, R109). -/
theorem freqSum_merged {l : List Record} {x y : Record} (m : NodeIx) (h : freqSum (l ++ [x, y]) < 2 ^ 32) :
    freqSum (l ++ [{ id := m, freq := x.freq + y.freq }]) = freqSum (l ++ [x, y]) := by
  simp only [freqSum_append, freqSum_cons, freqSum_nil, BitVec.toNat_add] at h ⊢
  rw [Nat.mod_eq_of_lt (by omega)]
  omega

theorem mergePass_freqSum {b b' : Build} (h2 : 2 ≤ b.wl.length) (hsum : freqSum b.wl < 2 ^ 32)
    (hp : mergePass b = some b') : freqSum b'.wl = freqSum b.wl := by
  obtain ⟨l, x, y, hl, hp'⟩ := mergePass_of_two h2
  obtain rfl := Option.some.inj (hp'.symm.trans hp)
  rw [← freqSum_perm (sortDesc_perm b.wl), hl] at hsum ⊢
  exact freqSum_merged _ hsum

/-- While there are passes left the exact sum stays, and each pass drops one record. -/
theorem mergeLoop_freqSum {fuel : Nat} {b : Build} (hb : Forest b) (h : fuel < b.wl.length)
    (hsum : freqSum b.wl < 2 ^ 32) :
    freqSum (mergeLoop fuel b).wl = freqSum b.wl
      ∧ (mergeLoop fuel b).dropped.length = b.dropped.length + fuel := by
  induction fuel generalizing b with
  | zero => exact ⟨rfl, rfl⟩
  | succ fuel ih =>
    obtain ⟨b', hp, hb', hlen, -⟩ := mergePass_forest hb (by omega)
    have hsum' := mergePass_freqSum (by omega) hsum hp
    obtain ⟨-, hdropped⟩ := mergePass_lengths hp
    obtain ⟨hs, hd⟩ := ih hb' (by omega) (hsum' ▸ hsum)
    simp only [mergeLoop, hp]
    exact ⟨hs.trans hsum', by omega⟩

theorem freqSum_initBuild (f : FreqTable) : freqSum (initBuild f).wl = totalWeight f := by
  rw [freqSum, initBuild, List.map_map]
  rfl

/-- The record left at the end is the root's: every other id is a child (R108). -/
theorem mergeAll_wl (f : FreqTable) : ∃ r, (mergeAll f).wl = [r] ∧ r.id = rootIx := by
  obtain ⟨hb, hl, hn⟩ := mergeAll_forest f
  obtain ⟨r, hr⟩ := List.length_eq_one_iff.1 hl
  have hids := hb.ids
  rw [hr, hn, List.map_singleton, List.range_succ] at hids
  have hroot := ((mergeAll_childIds_perm f).symm.append_right _).trans hids
  have hid : r.id.toNat = 512 := by simpa using (List.perm_append_left_iff _).1 hroot
  exact ⟨r, hr, BitVec.eq_of_toNat_eq hid⟩

/-- Settles O47, by the sum and the forest that every pass keeps. -/
theorem mergeSumsAreExact : Obligations.MergeSumsAreExact := by
  intro f hf
  obtain ⟨-, -, htotal, -⟩ := (freqWf_iff f).1 hf
  refine ⟨fun n hn => ?_, mergeAll_wl f⟩
  have hlen : (initBuild f).wl.length = 257 := by simp [initBuild]
  have hfuel : n < (initBuild f).wl.length := by omega
  have hb := initBuild_forest f
  obtain ⟨hforest, hl, hnext⟩ := mergeLoop_forest hb hfuel
  obtain ⟨hs, hd⟩ := mergeLoop_freqSum hb hfuel (by rw [freqSum_initBuild]; omega)
  have hnext' : (mergeLoop n (initBuild f)).next = 257 + n := hnext
  exact ⟨hs.trans (freqSum_initBuild f), by omega, hnext', hforest.length.trans hnext', hd.trans (Nat.zero_add n)⟩

end Sys2Proof.Machine
end

section
/-! A leaf's code as the path to it (R91, R110, R111), and the one-bit code of a symbol that outweighs all others
together (R115). -/

namespace Sys2Proof.Machine

open scoped List

/-! ### Codes and paths -/

section
variable {f : FreqTable}

theorem nodeAt_ofNat (node : Vector Node 513) {i : Nat} (h : i < 513) :
    nodeAt node (BitVec.ofNat 10 i) = some node[i] := by
  have htoNat : (BitVec.ofNat 10 i).toNat = i := Nat.mod_eq_of_lt (by omega)
  simp only [nodeAt, htoNat, Vector.getElem?_eq_getElem h]

theorem codeBits_of_leaf {node : Vector Node 513} {i : NodeIx} {y : BitVec 9} {c : BitVec 24} {l : BitVec 5}
    (hn : nodeAt node i = some (.leaf y c l)) : codeBits node i = bitsOf l.toNat c.toNat := by
  rw [codeBits, hn]

/-- The low bits, the lowest one first. -/
theorem bitsOf_succ (n v : Nat) : bitsOf (n + 1) v = v.testBit 0 :: bitsOf n (v >>> 1) := by
  simp [bitsOf, List.range_succ_eq_map, Function.comp_def, Nat.testBit_shiftRight, Nat.add_comm]

/-- No node on the way to a leaf is a leaf: its code would begin the leaf's. -/
theorem not_isLeafAt_on_path (hf : FreqWf f) {i : NodeIx} (hi : isLeafAt (treeBuild f) i = true) {k : Nat}
    (hk : k < (codeBits (treeBuild f) i).length) :
    isLeafAt (treeBuild f) (pathNode (treeBuild f) ((codeBits (treeBuild f) i).take k)) = false := by
  refine Bool.eq_false_iff.2 fun hleaf => ?_
  have hbits := codeBits_pathNode hf hleaf
  have heq := eq_of_codeBits_isPrefix hf hleaf hi (hbits.symm ▸ List.take_prefix k _)
  rw [heq] at hbits
  have hlen := congrArg List.length hbits
  rw [List.length_take] at hlen
  omega

end

/-- Settles O50; the code of leaf `i` is its path from the root. -/
theorem codeIsThePathFromTheRoot : Obligations.CodeIsThePathFromTheRoot := by
  intro f hf i hi
  obtain ⟨-, -, -, hmax⟩ := (freqWf_iff f).1 hf
  obtain ⟨p, hp, -, hn⟩ := treeBuild_leaf (f := f) hi
  have hn' := (nodeAt_ofNat (treeBuild f) (by omega : i < 513)).trans (congrArg some hn)
  have hleaf := isLeafAt_iff.2 ⟨_, _, _, hn'⟩
  have hlen := codePath_len_toNat hf hp
  have hle : p.len ≤ maxLen f := len_le_maxLenOf hp
  have hbits := codeBits_of_leaf hn'
  refine ⟨_, _, hn', ?_, ?_, ?_, leaf_code_lt hf hn', ?_, fun k hk => ?_⟩
  · rw [hlen]; exact codePath_len_pos hp
  · rwa [hlen]
  · rw [hlen]; exact hle.trans hmax
  · rw [← hbits, pathNode_codeBits hf hleaf]
  · rw [← hbits]
    exact not_isLeafAt_on_path hf hleaf (by rwa [hbits, length_bitsOf])

/-! ### A record that outweighs all others together -/

/-- The record of symbol 0 under R7. -/
abbrev symbolZero : Record := { id := 0#10, freq := freq0 }

/-- The working list holds symbol 0's own record, and it is heavier than all others together. -/
def Outweighs (b : Build) : Prop :=
  ∃ rest, b.wl ~ symbolZero :: rest ∧ freqSum rest < 2 ^ 30

/-- A list in order begins with the record that is heavier than every other one. -/
theorem Desc.eq_cons_of_heaviest {l rest : List Record} {x : Record} (h : Desc l) (hp : l ~ x :: rest)
    (hx : ∀ y ∈ rest, y.freq.toNat < x.freq.toNat) : ∃ t, l = x :: t ∧ t ~ rest := by
  cases l with
  | nil => exact absurd hp.length_eq (by simp)
  | cons y t =>
    have hge := h.head_ge (hp.mem_iff.2 List.mem_cons_self)
    obtain rfl | hy := List.mem_cons.1 (hp.mem_iff.1 List.mem_cons_self)
    · exact ⟨t, rfl, hp.cons_inv⟩
    · exact absurd (hx y hy) (Nat.not_lt.2 hge)

theorem Outweighs.sortDesc_eq {b : Build} (h : Outweighs b) :
    ∃ t, sortDesc b.wl = symbolZero :: t ∧ freqSum t < 2 ^ 30 := by
  obtain ⟨rest, hperm, hsum⟩ := h
  obtain ⟨t, ht, hrest⟩ := (sortDesc_desc b.wl).eq_cons_of_heaviest ((sortDesc_perm _).trans hperm)
    fun y hy => (freq_le_freqSum hy).trans_lt hsum
  exact ⟨t, ht, freqSum_perm hrest ▸ hsum⟩

/-- With three records left a pass merges two of the others. -/
theorem mergePass_outweighs {b b' : Build} (h : Outweighs b) (h3 : 3 ≤ b.wl.length) (hp : mergePass b = some b') :
    Outweighs b' := by
  obtain ⟨l, x, y, hl, hp'⟩ := mergePass_of_two (b := b) (by omega)
  obtain rfl := Option.some.inj (hp'.symm.trans hp)
  obtain ⟨t, ht, hsum⟩ := h.sortDesc_eq
  have hlen := sortDesc_length b.wl
  cases l with
  | nil =>
    have h2 : b.wl.length = 2 := by rw [← hlen, hl]; rfl
    omega
  | cons z l =>
    obtain ⟨rfl, rfl⟩ := List.cons.inj (ht.symm.trans hl)
    exact ⟨_, .refl _, (freqSum_merged _ (hsum.trans (by decide))).trans_lt hsum⟩

theorem Forest.child_lt {b : Build} (hb : Forest b) {i j : Nat} {n : Node} (hn : b.nodes[i]? = some n)
    (hj : j ∈ n.children) : j < i := by
  obtain hle | hgt := le_or_gt i 256
  · obtain rfl := Option.some.inj ((hb.leaf i hle).symm.trans hn)
    cases hj
  · obtain ⟨hi, -⟩ := List.getElem?_eq_some_iff.1 hn
    obtain ⟨c0, c1, hn', h0, h1⟩ := hb.internal i hgt (hb.length ▸ hi)
    obtain rfl := Option.some.inj (hn'.symm.trans hn)
    obtain ⟨d0, d1, hd, rfl | rfl⟩ := mem_children.1 hj <;> cases hd
    · exact h0
    · exact h1

/-- The record made last is still in the working list: no node stands above it. -/
theorem Forest.last_mem_wl {b : Build} (hb : Forest b) (h : 1 ≤ b.next) : ∃ r ∈ b.wl, r.id.toNat = b.next - 1 := by
  have hmem := hb.ids.symm.subset (List.mem_range.2 (Nat.sub_one_lt_of_le h le_rfl))
  obtain hmem | hmem := List.mem_append.1 hmem
  · obtain ⟨i, n, hn, hj⟩ := exists_parent_of_mem_childIds hmem
    obtain ⟨hi, -⟩ := List.getElem?_eq_some_iff.1 hn
    have hlt := hb.child_lt hn hj
    rw [hb.length] at hi
    omega
  · exact List.mem_map.1 hmem

/-- The last pass makes the root of symbol 0 and of the node made before it (R105). -/
theorem mergePass_root {b b' : Build} (hb : Forest b) (h : Outweighs b) (h2 : b.wl.length = 2)
    (hp : mergePass b = some b') : b'.nodes[512]? = some (.internal 0#10 511#10) := by
  obtain ⟨l, x, y, hl, hp'⟩ := mergePass_of_two h2.ge
  obtain rfl := Option.some.inj (hp'.symm.trans hp)
  obtain ⟨t, ht, -⟩ := h.sortDesc_eq
  have hlen := sortDesc_length b.wl
  obtain rfl : l = [] := by
    rw [hl, h2] at hlen
    simpa using hlen
  obtain ⟨rfl, -⟩ := List.cons.inj (ht.symm.trans hl)
  have hsize := hb.size
  obtain ⟨r, hr, hrid⟩ := hb.last_mem_wl (by omega)
  have hy : y.id = 511#10 := by
    have hr' : r = symbolZero ∨ r = y := by simpa [hl] using (sortDesc_perm b.wl).symm.subset hr
    obtain rfl | rfl := hr'
    · exact absurd (show 0 = b.next - 1 from hrid) (by omega)
    · exact BitVec.eq_of_toNat_eq (hrid.trans (show b.next - 1 = 511 by omega))
  have hnodes := hb.length
  rw [hy, show 512 = b.nodes.length by omega, List.getElem?_concat_length]

/-- The passes up to the last one leave symbol 0's record alone, so it becomes child 0 of the root. -/
theorem mergeLoop_root {fuel : Nat} {b : Build} (hb : Forest b) (h : Outweighs b) (hlen : b.wl.length = fuel + 2) :
    (mergeLoop (fuel + 1) b).nodes[512]? = some (.internal 0#10 511#10) := by
  induction fuel generalizing b with
  | zero =>
    obtain ⟨b', hp, -⟩ := mergePass_forest hb hlen.ge
    simp only [mergeLoop, hp]
    exact mergePass_root hb h hlen hp
  | succ fuel ih =>
    obtain ⟨b', hp, hb', hlen', -⟩ := mergePass_forest hb (by omega)
    rw [mergeLoop, hp]
    exact ih hb' (mergePass_outweighs h (by omega) hp) (by omega)

theorem initBuild_outweighs {f : FreqTable} (hf : FreqWf f) (h : totalWeight f < 2 ^ 30 + 2 ^ 30) :
    Outweighs (initBuild f) := by
  obtain ⟨h0, -⟩ := (freqWf_iff f).1 hf
  have hw : weight f 0 = freq0 := (weight_eq_getElem f (by decide) (by decide)).trans h0
  have hwl : (initBuild f).wl = symbolZero :: (initBuild f).wl.tail := by
    rw [initBuild, List.range_succ_eq_map, List.map_cons, hw]
    rfl
  refine ⟨_, .of_eq hwl, ?_⟩
  have hsum := freqSum_initBuild f
  rw [hwl, freqSum_cons, show (freq0 : Word).toNat = 2 ^ 30 from rfl] at hsum
  omega

theorem mergeAll_root {f : FreqTable} (hf : FreqWf f) (h : totalWeight f < 2 ^ 30 + 2 ^ 30) :
    (mergeAll f).nodes[rootIx.toNat]? = some (.internal 0#10 511#10) :=
  mergeLoop_root (fuel := 255) (initBuild_forest f) (initBuild_outweighs hf h) (by simp [initBuild])

/-- When symbol 0 is child 0 of the root, its code is the single bit 0. -/
theorem codeBits_zero {f : FreqTable} (hf : FreqWf f) {c1 : NodeIx}
    (hroot : (mergeAll f).nodes[rootIx.toNat]? = some (.internal 0#10 c1)) : codeBits (treeBuild f) 0#10 = [false] := by
  have hpath : pathNode (treeBuild f) [false] = 0#10 :=
    (pathNode_concat _ [] false).trans (childAt_treeBuild hroot false)
  have hleaf : isLeafAt (treeBuild f) 0#10 = true := (isLeafAt_treeBuild_iff f (by decide)).2 (by decide)
  rw [← hpath] at hleaf
  rw [← hpath, codeBits_pathNode hf hleaf]

/-- Every other code begins with the bit 1, as none begins with symbol 0's (R114). -/
theorem codeBits_head_of_ne_zero {f : FreqTable} (hf : FreqWf f) (h0 : codeBits (treeBuild f) 0#10 = [false])
    {i : NodeIx} (hi : i.toNat ≤ 256) (hne : i ≠ 0#10) : ∃ bs, codeBits (treeBuild f) i = true :: bs := by
  have hleaf : ∀ j : NodeIx, j.toNat ≤ 256 → isLeafAt (treeBuild f) j = true := fun j hj =>
    (isLeafAt_treeBuild_iff f (by omega)).2 hj
  cases hbits : codeBits (treeBuild f) i with
  | nil =>
    have hpath := pathNode_codeBits hf (hleaf i hi)
    rw [hbits] at hpath
    obtain rfl : i = rootIx := hpath.symm
    exact absurd hi (by decide)
  | cons b bs =>
    cases b with
    | true => exact ⟨bs, rfl⟩
    | false =>
      have hpre : codeBits (treeBuild f) 0#10 <+: codeBits (treeBuild f) i := by
        rw [h0, hbits]
        exact List.cons_prefix_cons.2 ⟨rfl, List.nil_prefix⟩
      exact absurd (eq_of_codeBits_isPrefix hf (hleaf _ (by decide)) (hleaf i hi) hpre).symm hne

/-- Settles O52: the root's children are symbol 0 and node 511, and codes begin with the slot taken at the root. -/
theorem symbolZeroGetsTheOneBitCode : Obligations.SymbolZeroGetsTheOneBitCode := by
  intro f hf htotal
  have hroot := mergeAll_root hf htotal
  have h0 := codeBits_zero hf hroot
  refine ⟨treeBuild_getElem hroot (by decide), ?_, fun i hi hpos => ?_⟩
  · obtain ⟨c, l, hn, hlen, -, -, hlt, -⟩ := codeIsThePathFromTheRoot f hf 0 (by decide)
    rw [codeBits_of_leaf hn] at h0
    obtain rfl : l = 1#5 := BitVec.eq_of_toNat_eq (by simpa using congrArg List.length h0)
    have hmod : c.toNat % 2 ^ 1 = 0 := mod_eq_of_bitsOf_eq (n := 1) (w := 0) (h0.trans rfl)
    obtain rfl : c = 0#24 := BitVec.eq_of_toNat_eq ((Nat.mod_eq_of_lt hlt).symm.trans hmod)
    exact Option.some.inj ((nodeAt_ofNat _ (by decide)).symm.trans hn)
  · obtain ⟨c, l, hn, hlen, -⟩ := codeIsThePathFromTheRoot f hf i (by omega)
    have htoNat : (BitVec.ofNat 10 i).toNat = i := Nat.mod_eq_of_lt (by omega)
    obtain ⟨bs, hbs⟩ := codeBits_head_of_ne_zero hf h0 (i := BitVec.ofNat 10 i) (by omega) (by bv_omega)
    obtain ⟨n, hlen'⟩ : ∃ n, l.toNat = n + 1 := ⟨l.toNat - 1, by omega⟩
    rw [codeBits_of_leaf hn, hlen', bitsOf_succ] at hbs
    exact ⟨_, c, l, Option.some.inj ((nodeAt_ofNat _ (by omega)).symm.trans hn), (List.cons.inj hbs).1⟩

end Sys2Proof.Machine
end

section
/-! The decode function on the bits of its input (R171): a symbol is taken when its code comes next, and a decode is
truncated when no whole code does. -/

namespace Sys2Proof.Machine

/-! ### Bits -/

theorem bitsOf_add (m n v : Nat) : bitsOf (m + n) v = bitsOf m v ++ bitsOf n (v >>> m) := by
  simp [bitsOf, List.range_add, Function.comp_def, Nat.testBit_shiftRight]

theorem bitsOf_congr {n v w : Nat} (h : ∀ k < n, v.testBit k = w.testBit k) : bitsOf n v = bitsOf n w :=
  List.map_congr_left fun k hk => h k (List.mem_range.1 hk)

theorem bitsOf_mod_two_pow {n m : Nat} (h : n ≤ m) (v : Nat) : bitsOf n (v % 2 ^ m) = bitsOf n v :=
  bitsOf_congr fun k hk => by simp [Nat.testBit_mod_two_pow, hk.trans_le h]

theorem bitsOf_isPrefix {m n : Nat} (h : m ≤ n) (v : Nat) : bitsOf m v <+: bitsOf n v :=
  take_bitsOf h v ▸ List.take_prefix m _

/-- A number put above `m` bits. -/
theorem bitsOf_or_shiftLeft {m v : Nat} (hv : v < 2 ^ m) (n b : Nat) :
    bitsOf (m + n) (v ||| b <<< m) = bitsOf m v ++ bitsOf n b := by
  rw [bitsOf_add]
  congr 1
  · exact bitsOf_congr fun k hk => by simp [Nat.testBit_shiftLeft, Nat.not_le.2 hk]
  · rw [Nat.shiftRight_or_distrib, Nat.shiftRight_eq_div_pow v, Nat.div_eq_of_lt hv, Nat.zero_or,
      Nat.shiftLeft_shiftRight]

/-- The bits of the bytes one after another, each byte's lowest bit first (R10, R90). -/
def byteBits (bytes : List Byte) : List Bool := bytes.flatMap fun b => bitsOf 8 b.toNat

@[simp] theorem byteBits_cons (b : Byte) (bytes : List Byte) :
    byteBits (b :: bytes) = bitsOf 8 b.toNat ++ byteBits bytes := List.flatMap_cons

@[simp] theorem byteBits_append (l l' : List Byte) : byteBits (l ++ l') = byteBits l ++ byteBits l' :=
  List.flatMap_append

@[simp] theorem length_byteBits (bytes : List Byte) : (byteBits bytes).length = 8 * bytes.length := by
  induction bytes with
  | nil => rfl
  | cons b bytes ih => rw [byteBits_cons, List.length_append, ih, length_bitsOf, List.length_cons]; omega

theorem byteBits_take (bytes : List Byte) (n : Nat) : byteBits (bytes.take n) = (byteBits bytes).take (8 * n) := by
  induction bytes generalizing n with
  | nil => simp [byteBits]
  | cons b bytes ih =>
    cases n with
    | zero => rfl
    | succ n =>
      rw [List.take_succ_cons, byteBits_cons, byteBits_cons, ih, Nat.mul_succ, Nat.add_comm]
      exact (length_bitsOf 8 b.toNat ▸ List.take_length_add_append (8 * n)).symm

/-- The bytes of a stream hold its bits, and after them those that fill up the last byte (R90). -/
theorem byteBits_packBytes (bits : List Bool) : ∃ pad, byteBits (packBytes bits) = bits ++ pad := by
  have hbytes (n : Nat) : ((List.range n).flatMap fun k => bitsOf 8 (bitsToNat bits >>> (8 * k)))
      = bitsOf (8 * n) (bitsToNat bits) := by
    induction n with
    | zero => rfl
    | succ n ih => rw [List.range_succ, List.flatMap_append, ih, Nat.mul_succ, bitsOf_add, List.flatMap_singleton]
  have hpack : byteBits (packBytes bits) = bitsOf (8 * ((bits.length + 7) / 8)) (bitsToNat bits) := by
    rw [← hbytes, byteBits, packBytes, List.flatMap_map]
    simp only [BitVec.toNat_ofNat, bitsOf_mod_two_pow le_rfl]
  obtain ⟨m, hm⟩ : ∃ m, 8 * ((bits.length + 7) / 8) = bits.length + m := Nat.exists_eq_add_of_le (by omega)
  exact ⟨_, by rw [hpack, hm, bitsOf_add, bitsOf_bitsToNat]⟩

/-! ### The accumulator -/

/-- The accumulator holds no bit above those it counts (R39). -/
def Acc.Wf (a : Acc) : Prop := a.bits < 2 ^ a.cnt

/-- The bits in the accumulator, the next one first. -/
def Acc.own (a : Acc) : List Bool := bitsOf a.cnt a.bits

/-- All bits that have not been consumed: those in the accumulator and then those of the bytes not yet taken. -/
def Acc.ahead (inp : List Byte) (a : Acc) : List Bool := a.own ++ byteBits (inp.drop a.ip)

@[simp] theorem Acc.length_own (a : Acc) : a.own.length = a.cnt := length_bitsOf _ _

theorem Acc.drop_wf {a : Acc} (ha : a.Wf) {n : Nat} (hn : n ≤ a.cnt) : (a.drop n).Wf := by
  rw [Acc.Wf, Acc.drop, Nat.shiftRight_eq_div_pow, Nat.div_lt_iff_lt_mul (Nat.two_pow_pos n), ← pow_add,
    Nat.sub_add_cancel hn]
  exact ha

/-- Consuming bits takes them off what is ahead. -/
theorem Acc.ahead_drop (inp : List Byte) {a : Acc} {n : Nat} (hn : n ≤ a.cnt) :
    a.ahead inp = bitsOf n a.bits ++ (a.drop n).ahead inp := by
  obtain ⟨m, hm⟩ := Nat.exists_eq_add_of_le hn
  rw [Acc.ahead, Acc.ahead, Acc.own, Acc.own, Acc.drop, hm, bitsOf_add, Nat.add_sub_cancel_left, List.append_assoc]

/-- What a refill makes of an accumulator: more of the same bits, as many as a code can have or all there are. -/
structure Refilled (inp : List Byte) (a r : Acc) : Prop where
  wf : r.Wf
  ahead_eq : r.ahead inp = a.ahead inp
  cnt_le : a.cnt ≤ r.cnt
  full : 24 ≤ r.cnt ∨ r.ahead inp = r.own

/-- The refill, when the bytes it may take are enough to make 24 bits. -/
theorem refillAcc_refilled (inp : List Byte) {fuel : Nat} {a : Acc} (ha : a.Wf) (hfuel : 24 ≤ a.cnt + 8 * fuel) :
    Refilled inp a (refillAcc inp fuel a) := by
  induction fuel generalizing a with
  | zero => exact ⟨ha, rfl, le_rfl, .inl hfuel⟩
  | succ fuel ih =>
    rw [refillAcc]
    split
    · split
      · next b hb =>
        obtain ⟨hlt, rfl⟩ := List.getElem?_eq_some_iff.1 hb
        have hwf : a.bits ||| (inp[a.ip]).toNat <<< a.cnt < 2 ^ (a.cnt + 8) :=
          Nat.or_lt_two_pow (ha.trans (Nat.pow_lt_pow_right (by decide) (by omega)))
            (Nat.add_comm 8 a.cnt ▸ Nat.shiftLeft_lt (inp[a.ip]).isLt)
        obtain ⟨hr, hahead, hcnt, hfull⟩ := ih (a := ⟨_, a.cnt + 8, a.ip + 1⟩) hwf (by simp only; omega)
        refine ⟨hr, hahead.trans ?_, (Nat.le_add_right _ _).trans hcnt, hfull⟩
        rw [Acc.ahead, Acc.ahead, Acc.own, Acc.own, bitsOf_or_shiftLeft ha, List.drop_eq_getElem_cons hlt,
          byteBits_cons, List.append_assoc]
      · next hnone =>
        refine ⟨ha, rfl, le_rfl, .inr ?_⟩
        rw [Acc.ahead, List.drop_eq_nil_of_le (List.getElem?_eq_none_iff.1 hnone)]
        exact List.append_nil _
    · exact ⟨ha, rfl, le_rfl, .inl (by omega)⟩

/-- A code that comes next is in the accumulator after the refill. -/
theorem Refilled.isPrefix_own_iff {inp : List Byte} {a r : Acc} (h : Refilled inp a r) {code : List Bool}
    (hlen : code.length ≤ 24) : code <+: r.own ↔ code <+: a.ahead inp := by
  rw [← h.ahead_eq]
  obtain hfull | hall := h.full
  · exact ⟨fun hp => hp.trans (List.prefix_append _ _), fun hp =>
      List.prefix_of_prefix_length_le hp (List.prefix_append _ _) (by rw [Acc.length_own]; omega)⟩
  · rw [hall]

/-- The refill leaves the ten bits that an early lookup reads as they were. -/
theorem Refilled.low_bits {inp : List Byte} {a r : Acc} (h : Refilled inp a r) {n : Nat} (hn : n ≤ a.cnt) :
    bitsOf n a.bits = bitsOf n r.bits := by
  have htake := congrArg (List.take n) h.ahead_eq
  rw [Acc.ahead_drop inp (hn.trans h.cnt_le), Acc.ahead_drop inp hn] at htake
  simpa using htake.symm

end Sys2Proof.Machine
end

section
/-! One symbol of a decode with the tables that INIT builds (R164 to R167, R171): the leaf whose code comes next, or a
truncation when no whole code does. -/

namespace Sys2Proof.Machine

section
variable {f : FreqTable}

/-! ### The walk below the lookup table -/

theorem exists_internal_of_not_leaf {node : Vector Node 513} {i : NodeIx} (hi : i.toNat ≤ 512)
    (hleaf : isLeafAt node i = false) : ∃ c0 c1, nodeAt node i = some (.internal c0 c1) := by
  rw [isLeafAt, nodeAt_of_lt _ (Nat.lt_succ_of_le hi)] at hleaf
  rw [nodeAt_of_lt _ (Nat.lt_succ_of_le hi)]
  cases hn : node[i.toNat] with
  | leaf y c l => simp [hn] at hleaf
  | internal c0 c1 => exact ⟨c0, c1, rfl⟩

/-- The bits lead from the root to a node, and begin with no code: the walk over them goes on. -/
structure OpenPath (f : FreqTable) (bits : List Bool) : Prop where
  le : (pathNode (treeBuild f) bits).toNat ≤ 512
  no_code : ∀ i, isLeafAt (treeBuild f) i = true → ¬codeBits (treeBuild f) i <+: bits

variable {bits : List Bool}

theorem OpenPath.not_leaf (h : OpenPath f bits) (hf : FreqWf f) :
    isLeafAt (treeBuild f) (pathNode (treeBuild f) bits) = false :=
  Bool.eq_false_iff.2 fun hleaf => h.no_code _ hleaf ((codeBits_pathNode hf hleaf).symm ▸ List.prefix_rfl)

/-- A walk that goes on is shorter than the longest code. -/
theorem OpenPath.length_lt (h : OpenPath f bits) (hf : FreqWf f) : bits.length < maxLen f := by
  obtain ⟨i, hi, hlt, -⟩ := exists_codeBits_of_no_prefix hf h.no_code
  exact hlt.trans_le (codeBits_length_le_maxLen hf hi)

theorem OpenPath.child_le (h : OpenPath f bits) (hf : FreqWf f) (b : Bool) :
    (pathNode (treeBuild f) (bits ++ [b])).toNat ≤ 512 :=
  pathNode_concat (treeBuild f) bits b ▸ childAt_le_of_not_leaf h.le (h.not_leaf hf) b

/-- One bit more leads to a leaf, or the walk still goes on. -/
theorem OpenPath.concat (h : OpenPath f bits) (hf : FreqWf f) {b : Bool}
    (hleaf : isLeafAt (treeBuild f) (pathNode (treeBuild f) (bits ++ [b])) = false) : OpenPath f (bits ++ [b]) where
  le := h.child_le hf b
  no_code := fun i hi hpre => by
    obtain heq | hpre := List.prefix_concat_iff.1 hpre
    · rw [← heq, pathNode_codeBits hf hi, hi] at hleaf
      cases hleaf
    · exact h.no_code i hi hpre

/-- The walk takes bits up to the leaf whose code they complete, or runs out of them before (R167). -/
theorem walkAcc_cases (hf : FreqWf f) (h : OpenPath f bits) (ip n v : Nat) :
    (∃ i k, isLeafAt (treeBuild f) i = true ∧ k ≤ n ∧ codeBits (treeBuild f) i = bits ++ bitsOf k v
        ∧ walkAcc (treeBuild f) ip n (pathNode (treeBuild f) bits) v = .ok (i, ⟨v >>> k, n - k, ip⟩))
      ∨ ((∀ i, isLeafAt (treeBuild f) i = true → ¬codeBits (treeBuild f) i <+: bits ++ bitsOf n v)
        ∧ walkAcc (treeBuild f) ip n (pathNode (treeBuild f) bits) v = .error .truncated) := by
  induction n generalizing bits v with
  | zero =>
    refine .inr ⟨fun i hi => ?_, rfl⟩
    rw [show bitsOf 0 v = [] from rfl, List.append_nil]
    exact h.no_code i hi
  | succ n ih =>
    have hle := h.child_le hf (v.testBit 0)
    simp only [walkAcc, ← pathNode_concat, if_neg (Nat.not_lt.2 hle)]
    split
    · next hleaf =>
      refine .inl ⟨_, 1, hleaf, by omega, codeBits_pathNode hf hleaf, rfl⟩
    · next hleaf =>
      have hcons (k : Nat) : bits ++ bitsOf (k + 1) v = bits ++ [v.testBit 0] ++ bitsOf k (v >>> 1) := by
        rw [bitsOf_succ, List.append_assoc, List.singleton_append]
      have hopen := h.concat hf (Bool.eq_false_of_not_eq_true hleaf)
      obtain ⟨i, k, hi, hk, hcode, hwalk⟩ | ⟨hno, hwalk⟩ := ih hopen (v >>> 1)
      · refine .inl ⟨i, k + 1, hi, by omega, hcode.trans (hcons k).symm, ?_⟩
        rw [hwalk, ← Nat.shiftRight_add, Nat.add_comm 1 k, Nat.add_sub_add_right]
      · exact .inr ⟨fun i hi => hcons n ▸ hno i hi, hwalk⟩

/-! ### The lookup and what follows it -/

theorem lutOfBits_builtTables (f : FreqTable) (v : Nat) :
    lutOfBits (builtTables f) v = (lutBuild (treeBuild f))[v % 2 ^ 10]'(Nat.mod_lt _ (by decide)) := by
  simp only [lutOfBits, lutAt, builtTables, BitVec.toNat_ofNat]

theorem lutOfBits_congr (t : Tables) {v w : Nat} (h : bitsOf 10 v = bitsOf 10 w) : lutOfBits t v = lutOfBits t w := by
  have hv : BitVec.ofNat 10 v = BitVec.ofNat 10 w := BitVec.eq_of_toNat_eq (mod_eq_of_bitsOf_eq h)
  rw [lutOfBits, lutOfBits, hv]

/-- A lookup gives the leaf whose code its ten bits begin with, or the node they lead to, from where the walk goes on
(R142, R143). -/
theorem lutOfBits_leaf_or_open (hf : FreqWf f) (v : Nat) :
    (isLeafAt (treeBuild f) (lutOfBits (builtTables f) v) = true
        ∧ codeBits (treeBuild f) (lutOfBits (builtTables f) v) <+: bitsOf 10 v)
      ∨ (lutOfBits (builtTables f) v = pathNode (treeBuild f) (bitsOf 10 v) ∧ OpenPath f (bitsOf 10 v)) := by
  have hv : v % 2 ^ 10 < 1024 := Nat.mod_lt _ (by decide)
  have hcases := lutBuild_leaf_or_internal hf hv
  have hle := lutBuild_le (f := f) hv
  rw [bitsOf_mod_two_pow le_rfl, ← lutOfBits_builtTables] at hcases
  rw [← lutOfBits_builtTables] at hle
  obtain hleaf | ⟨-, hpath, hno⟩ := hcases
  · exact .inl hleaf
  · exact .inr ⟨hpath, hpath ▸ hle, hno⟩

/-- The lookup on the accumulator's low ten bits leads to the leaf whose code the accumulator begins with, or to a
truncation when it begins with none (R142, R143, R164 to R167). -/
theorem resolveAcc_cases (hf : FreqWf f) (r : Acc) :
    (∃ i n, isLeafAt (treeBuild f) i = true ∧ n ≤ r.cnt ∧ codeBits (treeBuild f) i = bitsOf n r.bits
        ∧ resolveAcc (treeBuild f) (lutOfBits (builtTables f) r.bits) r = .ok (i, r.drop n))
      ∨ ((∀ i, isLeafAt (treeBuild f) i = true → ¬codeBits (treeBuild f) i <+: r.own)
        ∧ resolveAcc (treeBuild f) (lutOfBits (builtTables f) r.bits) r = .error .truncated) := by
  have hcases := lutOfBits_leaf_or_open hf r.bits
  generalize lutOfBits (builtTables f) r.bits = e at hcases ⊢
  obtain ⟨hleaf, hpre⟩ | ⟨hpath, hopen⟩ := hcases
  · obtain ⟨y, c, l, hn⟩ := isLeafAt_iff.1 hleaf
    have hlen : (codeBits (treeBuild f) e).length = l.toNat := by rw [codeBits_of_leaf hn, length_bitsOf]
    have hten : l.toNat ≤ 10 := by simpa [hlen] using hpre.length_le
    have hcode : codeBits (treeBuild f) e = bitsOf l.toNat r.bits := by
      rw [List.prefix_iff_eq_take.1 hpre, hlen, take_bitsOf hten]
    simp only [resolveAcc, hn]
    split
    · next hlt =>
      refine .inr ⟨fun i hi hown => ?_, rfl⟩
      have hie := eq_of_codeBits_isPrefix hf hi hleaf (hcode ▸ hown.trans (bitsOf_isPrefix hlt.le _))
      have hle := hown.length_le
      rw [hie, hlen, Acc.length_own] at hle
      omega
    · next hge => exact .inl ⟨e, l.toNat, hleaf, Nat.not_lt.1 hge, hcode, rfl⟩
  · obtain ⟨c0, c1, hn⟩ := exists_internal_of_not_leaf hopen.le (hopen.not_leaf hf)
    rw [hpath]
    simp only [resolveAcc, hn]
    split
    · next hlt =>
      exact .inr ⟨fun i hi hown => hopen.no_code i hi (hown.trans (bitsOf_isPrefix hlt.le _)), rfl⟩
    · next hge =>
      obtain ⟨m, hm⟩ := Nat.exists_eq_add_of_le (Nat.not_lt.1 hge)
      rw [hm, Nat.add_sub_cancel_left]
      obtain ⟨i, k, hi, hk, hcode, hwalk⟩ | ⟨hno, hwalk⟩ := walkAcc_cases hf hopen r.ip m (r.bits >>> 10)
      · refine .inl ⟨i, 10 + k, hi, by omega, by rw [hcode, bitsOf_add], ?_⟩
        rw [hwalk, Acc.drop, Nat.shiftRight_add, hm, Nat.add_sub_add_left]
      · refine .inr ⟨fun i hi => ?_, hwalk⟩
        rw [Acc.own, hm, bitsOf_add]
        exact hno i hi

/-! ### The next symbol -/

/-- The early lookup gives what one after the refill gives, as the refill keeps the bits looked up (R172). -/
theorem nextSymbol_eq (t : Tables) (inp : List Byte) {a : Acc} (ha : a.Wf) :
    nextSymbol t inp a = resolveAcc t.node (lutOfBits t (refillAcc inp 3 a).bits) (refillAcc inp 3 a) := by
  rw [nextSymbol]
  split
  · next hten =>
    have hr := refillAcc_refilled inp (fuel := 3) ha (by omega)
    rw [lutOfBits_congr t (hr.low_bits hten)]
  · rfl

/-- A symbol of R171's loop: the leaf whose code comes next is consumed, or no whole code comes next. -/
theorem nextSymbol_cases (hf : FreqWf f) (inp : List Byte) {a : Acc} (ha : a.Wf) :
    (∃ i a', isLeafAt (treeBuild f) i = true ∧ nextSymbol (builtTables f) inp a = .ok (i, a') ∧ a'.Wf
        ∧ a.ahead inp = codeBits (treeBuild f) i ++ a'.ahead inp)
      ∨ ((∀ i, isLeafAt (treeBuild f) i = true → ¬codeBits (treeBuild f) i <+: a.ahead inp)
        ∧ nextSymbol (builtTables f) inp a = .error .truncated) := by
  have hr := refillAcc_refilled inp (fuel := 3) ha (by omega)
  rw [nextSymbol_eq _ _ ha]
  obtain ⟨i, n, hi, hn, hcode, hres⟩ | ⟨hno, hres⟩ := resolveAcc_cases hf (refillAcc inp 3 a)
  · exact .inl ⟨i, _, hi, hres, Acc.drop_wf hr.wf hn, by rw [← hr.ahead_eq, Acc.ahead_drop inp hn, hcode]⟩
  · obtain ⟨-, -, -, hmax⟩ := (freqWf_iff f).1 hf
    refine .inr ⟨fun i hi hpre => hno i hi ?_, hres⟩
    exact (hr.isPrefix_own_iff ((codeBits_length_le_maxLen hf hi).trans hmax)).2 hpre

end

end Sys2Proof.Machine
end

section
/-! Whole streams of the wire format (R90, R174, R176): the decode of a stream, and of a part of one. -/

namespace Sys2Proof.Machine

section
variable {f : FreqTable}

/-! ### The symbols of a stream -/

theorem byteIx_toNat (b : Byte) : (b.setWidth 10 : NodeIx).toNat = b.toNat := by
  rw [BitVec.toNat_setWidth, Nat.mod_eq_of_lt (by omega)]

theorem isLeafAt_byte (f : FreqTable) (b : Byte) : isLeafAt (treeBuild f) (b.setWidth 10) = true := by
  have hlt := b.isLt
  have htoNat := byteIx_toNat b
  exact (isLeafAt_treeBuild_iff f (by omega)).2 (by omega)

theorem isLeafAt_eos (f : FreqTable) : isLeafAt (treeBuild f) eosIx = true :=
  (isLeafAt_treeBuild_iff f (by decide)).2 (by decide)

theorem byteIx_ne_eos (b : Byte) : (b.setWidth 10 : NodeIx) ≠ eosIx := by
  intro h
  have htoNat := byteIx_toNat b
  rw [h] at htoNat
  exact absurd b.isLt (by rw [← htoNat]; decide)

/-- The leaf of a byte writes that byte. -/
theorem symbolByte_byte (f : FreqTable) (b : Byte) : symbolByte (treeBuild f) (b.setWidth 10) = b := by
  have hlt := b.isLt
  have htoNat := byteIx_toNat b
  obtain ⟨p, -, -, hn⟩ := treeBuild_leaf (f := f) (i := b.toNat) (by omega)
  have hn' : nodeAt (treeBuild f) (b.setWidth 10) = some (treeBuild f)[b.toNat] := by
    rw [nodeAt_of_lt _ (by omega)]
    simp only [htoNat]
  rw [symbolByte, hn', hn]
  exact BitVec.eq_of_toNat_eq (by simp)

theorem symbolByte_builtTables (f : FreqTable) (b : Byte) :
    symbolByte (builtTables f).node (b.setWidth 10) = b := symbolByte_byte f b

theorem streamBits_cons (node : Vector Node 513) (b : Byte) (symbols : List Byte) :
    streamBits node (b :: symbols) = codeBits node (b.setWidth 10) ++ streamBits node symbols := by
  simp [streamBits]

theorem streamBits_nil (node : Vector Node 513) : streamBits node [] = codeBits node eosIx := rfl

theorem codeBits_ne_nil (hf : FreqWf f) {i : NodeIx} (hi : isLeafAt (treeBuild f) i = true) :
    codeBits (treeBuild f) i ≠ [] := by
  intro hnil
  have hpath := pathNode_codeBits hf hi
  rw [hnil] at hpath
  rw [← hpath] at hi
  exact absurd (hi.symm.trans isLeafAt_root) (by decide)

theorem length_lt_length_streamBits (hf : FreqWf f) (symbols : List Byte) :
    symbols.length < (streamBits (treeBuild f) symbols).length := by
  induction symbols with
  | nil =>
    rw [streamBits_nil]
    exact List.length_pos_iff.2 (codeBits_ne_nil hf (isLeafAt_eos f))
  | cons b symbols ih =>
    have hpos := List.length_pos_iff.2 (codeBits_ne_nil hf (isLeafAt_byte f b))
    rw [streamBits_cons, List.length_append, List.length_cons]
    omega

/-! ### The loop -/

variable {inp : List Byte} {a : Acc} {i : NodeIx}

theorem nextSymbol_of_code (hf : FreqWf f) (ha : a.Wf) (hi : isLeafAt (treeBuild f) i = true) {rest : List Bool}
    (h : a.ahead inp = codeBits (treeBuild f) i ++ rest) :
    ∃ a', nextSymbol (builtTables f) inp a = .ok (i, a') ∧ a'.Wf ∧ a'.ahead inp = rest := by
  obtain ⟨j, a', hj, hnext, ha', hahead⟩ | ⟨hno, -⟩ := nextSymbol_cases hf inp ha
  · obtain rfl := codeBits_isPrefix_unique hf hi hj (h ▸ List.prefix_append _ _) (hahead ▸ List.prefix_append _ _)
    exact ⟨a', hnext, ha', List.append_cancel_left (hahead.symm.trans h)⟩
  · exact absurd (h ▸ List.prefix_append _ _) (hno i hi)

/-- Bits that are less than a code begin with no code. -/
theorem nextSymbol_of_part (hf : FreqWf f) (ha : a.Wf) (hi : isLeafAt (treeBuild f) i = true)
    (h : a.ahead inp <+: codeBits (treeBuild f) i) (hlt : (a.ahead inp).length < (codeBits (treeBuild f) i).length) :
    nextSymbol (builtTables f) inp a = .error .truncated := by
  obtain ⟨j, a', hj, -, -, hahead⟩ | ⟨-, hnext⟩ := nextSymbol_cases hf inp ha
  · have hpre : codeBits (treeBuild f) j <+: a.ahead inp := hahead ▸ List.prefix_append _ _
    obtain rfl := eq_of_codeBits_isPrefix hf hj hi (hpre.trans h)
    exact absurd hpre.length_le (Nat.not_le.2 hlt)
  · exact hnext

variable {cap fuel : Nat} {out : List Byte}

theorem decodeLoop_of_error {t : Tables} {cls : ErrClass} (h : nextSymbol t inp a = .error cls) :
    decodeLoop t inp cap (fuel + 1) a out = some (.error cls, out) := by
  simp only [decodeLoop, h]

theorem decodeLoop_of_ok {t : Tables} {a' : Acc} (h : nextSymbol t inp a = .ok (i, a')) :
    decodeLoop t inp cap (fuel + 1) a out
      = if i = eosIx then some (.success out.length, out)
        else if out.length = cap then some (.error .outputOverflow, out)
        else decodeLoop t inp cap fuel a' (out ++ [symbolByte t.node i]) := by
  simp only [decodeLoop, h]

/-- What the loop makes of the symbols of a stream, with the bytes of `out` written: all of them, or those there is room
for. -/
def streamResult (cap : Nat) (out symbols : List Byte) : StreamEnd × List Byte :=
  if out.length + symbols.length ≤ cap then (.success (out.length + symbols.length), out ++ symbols)
  else (.error .outputOverflow, (out ++ symbols).take cap)

theorem streamResult_cons (cap : Nat) (out symbols : List Byte) (b : Byte) :
    streamResult cap out (b :: symbols) = streamResult cap (out ++ [b]) symbols := by
  simp [streamResult, Nat.add_assoc, Nat.add_comm 1]

theorem streamResult_full (b : Byte) (symbols : List Byte) :
    streamResult out.length out (b :: symbols) = (.error .outputOverflow, out) := by
  simp [streamResult]

theorem decodeLoop_stream (hf : FreqWf f) {symbols : List Byte} {rest : List Bool} (ha : a.Wf)
    (h : a.ahead inp = streamBits (treeBuild f) symbols ++ rest) (hfuel : symbols.length < fuel)
    (hout : out.length ≤ cap) :
    decodeLoop (builtTables f) inp cap fuel a out = some (streamResult cap out symbols) := by
  induction symbols generalizing fuel a out with
  | nil =>
    obtain ⟨fuel, rfl⟩ := Nat.exists_eq_add_one_of_ne_zero (Nat.ne_zero_of_lt hfuel)
    rw [streamBits_nil] at h
    obtain ⟨a', hnext, -, -⟩ := nextSymbol_of_code hf ha (isLeafAt_eos f) h
    simp [decodeLoop_of_ok hnext, streamResult, hout]
  | cons b symbols ih =>
    obtain ⟨fuel, rfl⟩ := Nat.exists_eq_add_one_of_ne_zero (Nat.ne_zero_of_lt hfuel)
    rw [streamBits_cons, List.append_assoc] at h
    obtain ⟨a', hnext, ha', hahead⟩ := nextSymbol_of_code hf ha (isLeafAt_byte f b) h
    rw [decodeLoop_of_ok hnext, if_neg (byteIx_ne_eos b)]
    split
    · next hfull => rw [← hfull, streamResult_full]
    · next hroom =>
      rw [symbolByte_builtTables, streamResult_cons]
      exact ih ha' hahead (Nat.lt_of_succ_lt_succ hfuel) (by rw [List.length_append, List.length_singleton]; omega)

/-- Bits that a stream goes on from run out before EOS, or the buffer is full before that. -/
theorem decodeLoop_part (hf : FreqWf f) {symbols : List Byte} (ha : a.Wf)
    (h : a.ahead inp <+: streamBits (treeBuild f) symbols)
    (hlt : (a.ahead inp).length < (streamBits (treeBuild f) symbols).length) (hfuel : (a.ahead inp).length < fuel) :
    ∃ out', decodeLoop (builtTables f) inp cap fuel a out = some (.error .truncated, out')
      ∨ (decodeLoop (builtTables f) inp cap fuel a out = some (.error .outputOverflow, out') ∧ out'.length = cap) := by
  induction symbols generalizing fuel a out with
  | nil =>
    obtain ⟨fuel, rfl⟩ := Nat.exists_eq_add_one_of_ne_zero (Nat.ne_zero_of_lt hfuel)
    rw [streamBits_nil] at h hlt
    exact ⟨out, .inl (decodeLoop_of_error (nextSymbol_of_part hf ha (isLeafAt_eos f) h hlt))⟩
  | cons b symbols ih =>
    obtain ⟨fuel, rfl⟩ := Nat.exists_eq_add_one_of_ne_zero (Nat.ne_zero_of_lt hfuel)
    rw [streamBits_cons] at h hlt
    obtain hle | hgt := Nat.lt_or_ge (a.ahead inp).length (codeBits (treeBuild f) (b.setWidth 10)).length
    · have hpart := List.prefix_of_prefix_length_le h (List.prefix_append _ _) hle.le
      exact ⟨out, .inl (decodeLoop_of_error (nextSymbol_of_part hf ha (isLeafAt_byte f b) hpart hle))⟩
    · obtain ⟨rest, hrest⟩ := List.prefix_of_prefix_length_le (List.prefix_append _ _) h hgt
      obtain ⟨a', hnext, ha', hahead⟩ := nextSymbol_of_code hf ha (isLeafAt_byte f b) hrest.symm
      rw [← hrest] at h
      rw [decodeLoop_of_ok hnext, if_neg (byteIx_ne_eos b)]
      split
      · next hfull => exact ⟨out, .inr ⟨rfl, hfull⟩⟩
      · have hpos := List.length_pos_iff.2 (codeBits_ne_nil hf (isLeafAt_byte f b))
        simp only [← hrest, List.length_append] at hlt hfuel
        exact ih ha' (hahead ▸ (List.prefix_append_right_inj _).1 h) (by rw [hahead]; omega) (by rw [hahead]; omega)

/-! ### The function -/

theorem initialAcc_wf : Acc.Wf { bits := 0, cnt := 0, ip := 0 } := Nat.one_pos

theorem ahead_initialAcc (inp : List Byte) : Acc.ahead inp { bits := 0, cnt := 0, ip := 0 } = byteBits inp := rfl

theorem decodeFn_stream (hf : FreqWf f) (symbols extra : List Byte) (cap : Nat) :
    decodeFn (builtTables f) (packBytes (streamBits (treeBuild f) symbols) ++ extra) cap
      = some (streamResult cap [] symbols) := by
  obtain ⟨pad, hpad⟩ := byteBits_packBytes (streamBits (treeBuild f) symbols)
  have hahead : byteBits (packBytes (streamBits (treeBuild f) symbols) ++ extra)
      = streamBits (treeBuild f) symbols ++ (pad ++ byteBits extra) := by
    rw [byteBits_append, hpad, List.append_assoc]
  refine decodeLoop_stream hf initialAcc_wf ((ahead_initialAcc _).trans hahead) ?_ (Nat.zero_le _)
  have hlen := length_lt_length_streamBits hf symbols
  rw [← length_byteBits, hahead, List.length_append]
  omega

/-- Every whole byte of a stream but the last holds bits of the stream only. -/
theorem byteBits_take_packBytes {bits : List Bool} {b : Nat} (hb : b < (packBytes bits).length) :
    byteBits ((packBytes bits).take b) = bits.take (8 * b) ∧ 8 * b < bits.length := by
  have hlen : 8 * b < bits.length := by
    simp only [packBytes, List.length_map, List.length_range] at hb
    omega
  obtain ⟨pad, hpad⟩ := byteBits_packBytes bits
  rw [byteBits_take, hpad, List.take_append_of_le_length hlen.le]
  exact ⟨rfl, hlen⟩

end

/-- Settles O58: symbol by symbol, the code that comes next is the symbol's. -/
theorem decodeOfAStreamGivesItsSymbols : Obligations.DecodeOfAStreamGivesItsSymbols := by
  refine fun f symbols extra cap hf => ⟨fun hle => ?_, fun hlt => ?_⟩
  · rw [decodeFn_stream hf, streamResult]
    simp [hle]
  · rw [decodeFn_stream hf, streamResult]
    simp [Nat.not_le.2 hlt]

/-- Settles O59: the bytes left hold the first bits of the stream and not all of them. -/
theorem decodeOfAStrictPrefixIsTruncated : Obligations.DecodeOfAStrictPrefixIsTruncated := by
  intro f symbols cap b hf hb
  obtain ⟨hbits, hlt⟩ := byteBits_take_packBytes hb
  rw [← ahead_initialAcc] at hbits
  refine decodeLoop_part hf (symbols := symbols) initialAcc_wf (hbits ▸ List.take_prefix _ _) ?_ ?_
  · rw [hbits, List.length_take]
    omega
  · rw [ahead_initialAcc, length_byteBits]
    exact Nat.lt_succ_self _

end Sys2Proof.Machine
end

section
/-! Runs of the engine with no host in between: what they keep, and that the machine's own runs are these. -/

namespace Sys2Proof.Machine

/-- At most `k` engine steps lead from one state to the other. -/
inductive LeadsTo : Nat → State → State → Prop where
  | refl (k : Nat) (s : State) : LeadsTo k s s
  | step {k : Nat} {s u t : State} (h : engineStep s = .next u) (h' : LeadsTo k u t) : LeadsTo (k + 1) s t

section
variable {j k n : Nat} {s t u : State}

theorem LeadsTo.mono (h : LeadsTo j s t) (hjk : j ≤ k) : LeadsTo k s t := by
  induction h generalizing k with
  | refl j s => exact .refl k s
  | step h h' ih =>
    obtain ⟨k, rfl⟩ := Nat.exists_eq_add_one_of_ne_zero (Nat.ne_zero_of_lt hjk)
    exact .step h (ih (Nat.le_of_succ_le_succ hjk))

theorem LeadsTo.trans (h : LeadsTo j s u) (h' : LeadsTo k u t) : LeadsTo (j + k) s t := by
  induction h with
  | refl j s => exact h'.mono (Nat.le_add_left k j)
  | @step j s v u hs hv ih => exact (LeadsTo.step hs (ih h')).mono (by omega)

theorem LeadsTo.one (h : engineStep s = .next t) : LeadsTo 1 s t := .step h (.refl 0 t)

theorem LeadsTo.bounded (h : LeadsTo k s t) (hd : s.dec.Bounded) : t.dec.Bounded := by
  induction h with
  | refl => exact hd
  | step hs _ ih => exact ih (engineStep_bounded hd hs)

theorem LeadsTo.candInv (h : LeadsTo k s t) (hc : CandInv s) : CandInv t := by
  induction h with
  | refl => exact hc
  | step hs _ ih => exact ih (engineStep_keeps_candInv hc hs)

theorem runs_succ (h : step s = .next u) (h' : Runs n u t) : Runs (n + 1) s t := by
  have hs : core.step s = .next u := h
  simp only [Runs, Host.Core.run, hs]
  exact h'

/-- With no host input a step is the engine's, whatever the turns are, but for the turn used. -/
theorem step_with_turns (hin : s.inputs = []) (hb : busy s = true) (h : engineStep s = .next u) (turns : List Agent) :
    step { s with turns := turns } = .next { u with turns := turns.tail } := by
  obtain ⟨hinBase, hinLen, houtBase, houtCap, -⟩ := engineFrame s u h
  calc step { s with turns := turns }
    _ = engineStep (takeTurn { s with turns := turns }) :=
      step_of_engine (nextAgent_no_input (s := { s with turns := turns }) hin hb)
    _ = engineStep (setUnread s.inBase s.inLen s.outBase s.outCap turns.tail s) := rfl
    _ = .next (setUnread s.inBase s.inLen s.outBase s.outCap turns.tail u) := by
      rw [engineStep_setUnread, h, mapNext]
    _ = .next { u with turns := turns.tail } := by
      rw [← hinBase, ← hinLen, ← houtBase, ← houtCap]
      rfl

/-- With no host input the machine's runs are the engine's, but for the turns used. -/
theorem LeadsTo.exists_runs (h : LeadsTo k s t) (hin : s.inputs = []) (turns : List Agent) :
    ∃ n ≤ k, ∃ turns', Runs n { s with turns := turns } { t with turns := turns' } := by
  induction h generalizing turns with
  | refl k s => exact ⟨0, Nat.zero_le k, turns, rfl⟩
  | @step k s u t h h' ih =>
    have hin' : u.inputs = [] := by
      obtain ⟨-, -, -, -, -, -, hinputs, -⟩ := engineFrame s u h
      rw [hinputs, hin]
    cases hb : busy s with
    | true =>
      obtain ⟨n, hn, turns', hrun⟩ := ih hin' turns.tail
      exact ⟨n + 1, Nat.succ_le_succ hn, turns', runs_succ (step_with_turns hin hb h turns) hrun⟩
    | false =>
      obtain rfl : u = s := Host.Outcome.next.inj (h.symm.trans (engineStep_of_idle ((not_busy_iff s).1 hb)))
      obtain ⟨n, hn, hrun⟩ := ih hin' turns
      exact ⟨n, Nat.le_succ_of_le hn, hrun⟩

end

end Sys2Proof.Machine
end

section
/-! One pass of the decoder's states against one symbol of the decode function (R171, R173): the registers as exact
numbers, and the steps that make of them what `nextSymbol` makes. -/

namespace Sys2Proof.Machine

/-! ### The registers as exact numbers -/

/-- The decoder's accumulator as R171 has it. -/
def DecoderRegs.acc (d : DecoderRegs) : Acc := { bits := d.bits.toNat, cnt := d.bitcnt.toNat, ip := d.inPtr.toNat }

theorem DecoderRegs.Bounded.acc_wf {d : DecoderRegs} (h : d.Bounded) : d.acc.Wf := h.2.1

theorem acc_dropBits {d : DecoderRegs} {n : Nat} (h : n ≤ d.bitcnt.toNat) : (dropBits d n).acc = d.acc.drop n := by
  rw [DecoderRegs.acc, dropBits_bitcnt_toNat h, dropBits_bits_toNat, ← Nat.shiftRight_eq_div_pow]
  rfl

theorem length_inputBytes (s : State) : (inputBytes s).length = s.dec.lInLen.toNat := by simp [inputBytes]

theorem getElem_inputBytes (s : State) {k : Nat} (h : k < (inputBytes s).length) :
    (inputBytes s)[k] = memRead s (s.dec.lInBase + BitVec.ofNat 32 k) := by
  simp [inputBytes]

/-- The byte at the input address is the next one of the input (R162). -/
theorem inputBytes_getElem?_inPtr {s : State} (h : s.dec.inPtr.toNat < s.dec.lInLen.toNat) :
    (inputBytes s)[s.dec.inPtr.toNat]? = some (memRead s (inputAddr s)) := by
  have hlt : s.dec.inPtr.toNat < (inputBytes s).length := by rwa [length_inputBytes]
  rw [List.getElem?_eq_getElem hlt, getElem_inputBytes s hlt, BitVec.ofNat_toNat, BitVec.setWidth_eq, inputAddr]

theorem inputBytes_congr {s t : State} (hbase : t.dec.lInBase = s.dec.lInBase) (hlen : t.dec.lInLen = s.dec.lInLen)
    (hmem : ∀ a, inInput s a = true → memRead t a = memRead s a) : inputBytes t = inputBytes s := by
  rw [inputBytes, inputBytes, hbase, hlen]
  refine List.map_congr_left fun k hk => hmem _ ?_
  have hk' := List.mem_range.1 hk
  rw [inInput, inRange_add, decide_eq_true_eq, BitVec.toNat_ofNat]
  exact (Nat.mod_le _ _).trans_lt hk'

theorem acc_takeByte {s : State} (hd : s.dec.Bounded) (hw : wantsByte s = true) :
    (takeByte s).dec.acc = ⟨s.dec.bits.toNat ||| (memRead s (inputAddr s)).toNat <<< s.dec.bitcnt.toNat,
      s.dec.bitcnt.toNat + 8, s.dec.inPtr.toNat + 1⟩ := by
  obtain ⟨hroom, hleft⟩ := (wantsByte_iff s).1 hw
  have hbyte : (memRead s (inputAddr s)).toNat <<< s.dec.bitcnt.toNat < 2 ^ 32 :=
    (Nat.shiftLeft_lt (memRead s (inputAddr s)).isLt).trans_le (Nat.pow_le_pow_right (by decide) (by omega))
  have hin : (s.dec.inPtr + 1#32).toNat = s.dec.inPtr.toNat + 1 := by bv_omega
  have hbits : ((memRead s (inputAddr s)).setWidth 32 <<< s.dec.bitcnt.toNat).toNat
      = (memRead s (inputAddr s)).toNat <<< s.dec.bitcnt.toNat := by
    have hwide : ((memRead s (inputAddr s)).setWidth 32).toNat = (memRead s (inputAddr s)).toNat :=
      BitVec.toNat_setWidth_of_le (by decide)
    rw [BitVec.toNat_shiftLeft, hwide, Nat.mod_eq_of_lt hbyte]
  rw [DecoderRegs.acc, takeByte_bitcnt_toNat hw]
  simp only [takeByte, BitVec.toNat_or, hbits, hin]

theorem lutLookup_eq (s : State) : lutLookup s = lutOfBits s.tab s.dec.acc.bits := rfl

/-! ### States of one pass -/

/-- A pass has gone on from one state to the other: only the engine's state and the registers of the accumulator and of
the node have changed. -/
structure SamePass (s t : State) : Prop where
  eq : t = { s with estate := t.estate, dec := t.dec } := by rfl
  outPtr : t.dec.outPtr = s.dec.outPtr := by rfl
  lInBase : t.dec.lInBase = s.dec.lInBase := by rfl
  lInLen : t.dec.lInLen = s.dec.lInLen := by rfl
  lOutBase : t.dec.lOutBase = s.dec.lOutBase := by rfl
  lOutCap : t.dec.lOutCap = s.dec.lOutCap := by rfl

section
variable {s t u : State}

theorem SamePass.trans (h : SamePass s u) (h' : SamePass u t) : SamePass s t where
  eq := by rw [h'.eq, h.eq]
  outPtr := h'.outPtr.trans h.outPtr
  lInBase := h'.lInBase.trans h.lInBase
  lInLen := h'.lInLen.trans h.lInLen
  lOutBase := h'.lOutBase.trans h.lOutBase
  lOutCap := h'.lOutCap.trans h.lOutCap

theorem SamePass.tab (h : SamePass s t) : t.tab = s.tab := by rw [h.eq]

theorem SamePass.mem (h : SamePass s t) : t.mem = s.mem := by rw [h.eq]

theorem SamePass.regions (h : SamePass s t) : t.regions = s.regions := by rw [h.eq]

theorem SamePass.inputBytes (h : SamePass s t) : inputBytes t = inputBytes s :=
  inputBytes_congr h.lInBase h.lInLen fun a _ => memRead_congr h.mem a

/-- The host addresses of the buffers exist and the buffers share no byte, as in the state before. -/
theorem buffersGood_congr (hregions : t.regions = s.regions) (hinBase : t.dec.lInBase = s.dec.lInBase)
    (hinLen : t.dec.lInLen = s.dec.lInLen) (houtBase : t.dec.lOutBase = s.dec.lOutBase)
    (houtCap : t.dec.lOutCap = s.dec.lOutCap) (h : BuffersGood s) : BuffersGood t := by
  simpa only [BuffersGood, inInput, inOutput, admits, hregions, hinBase, hinLen, houtBase, houtCap] using h

theorem SamePass.buffersGood (h : SamePass s t) (hg : BuffersGood s) : BuffersGood t :=
  buffersGood_congr h.regions h.lInBase h.lInLen h.lOutBase h.lOutCap hg

/-- What a pass has come to when the symbol is `r`: the output step with the leaf, or a failed command. -/
def SymbolFound (s t : State) : Except ErrClass (NodeIx × Acc) → Prop
  | .ok (i, a) => SamePass s t ∧ t.estate = .dEmit ∧ t.dec.node = i ∧ t.dec.acc = a
  | .error c => ∃ u, SamePass s u ∧ t = raise u c

theorem SamePass.symbolFound (h : SamePass s u) {r : Except ErrClass (NodeIx × Acc)} (h' : SymbolFound u t r) :
    SymbolFound s t r := by
  cases r with
  | ok p =>
    obtain ⟨hs, hrest⟩ := h'
    exact ⟨h.trans hs, hrest⟩
  | error c =>
    obtain ⟨v, hs, ht⟩ := h'
    exact ⟨v, h.trans hs, ht⟩

/-! ### The refill -/

theorem refillAcc_of_byte {inp : List Byte} {a : Acc} {b : Byte} (hcnt : a.cnt < 24) (hb : inp[a.ip]? = some b)
    (fuel : Nat) :
    refillAcc inp (fuel + 1) a = refillAcc inp fuel ⟨a.bits ||| b.toNat <<< a.cnt, a.cnt + 8, a.ip + 1⟩ := by
  rw [refillAcc, if_pos hcnt, hb]

theorem refillAcc_of_done {inp : List Byte} {a : Acc} (h : ¬(a.cnt < 24 ∧ a.ip < inp.length)) (fuel : Nat) :
    refillAcc inp fuel a = a := by
  cases fuel with
  | zero => rfl
  | succ fuel =>
    rw [refillAcc]
    split
    · next hcnt => rw [List.getElem?_eq_none (Nat.not_lt.1 fun hip => h ⟨hcnt, hip⟩)]
    · rfl

/-- D_B takes the bytes that the refill takes, one a step, and goes on to D_C (R162). -/
theorem refill_leadsTo {fuel : Nat} (he : s.estate = .dB) (hd : s.dec.Bounded) (hgood : BuffersGood s)
    (hfuel : 24 ≤ s.dec.bitcnt.toNat + 8 * fuel) :
    ∃ t, LeadsTo (fuel + 1) s t ∧ SamePass s t ∧ t.estate = .dC
      ∧ t.dec.acc = refillAcc (inputBytes s) fuel s.dec.acc := by
  induction fuel generalizing s with
  | zero =>
    have hw : wantsByte s = false := Bool.eq_false_iff.2 fun hw => by
      have := ((wantsByte_iff s).1 hw).1
      omega
    refine ⟨_, .one ((engineStep_of_dB he).trans (stepDB_of_done hw)), {}, rfl, rfl⟩
  | succ fuel ih =>
    cases hw : wantsByte s with
    | true =>
      obtain ⟨hroom, hleft⟩ := (wantsByte_iff s).1 hw
      have hadmits : admits s (inputAddr s) = true := hgood.1 _ (.inl (by simp [inInput, inputAddr, hleft]))
      have hstep := (engineStep_of_dB he).trans (stepDB_of_wantsByte hw hadmits)
      have hsame : SamePass s (takeByte s) := {}
      obtain ⟨t, hlead, ht, hte, hacc⟩ := ih (s := takeByte s) he (takeByte_bounded hd hw) (hsame.buffersGood hgood)
        (by rw [takeByte_bitcnt_toNat hw]; omega)
      refine ⟨t, .step hstep hlead, hsame.trans ht, hte, ?_⟩
      rw [hacc, hsame.inputBytes, acc_takeByte hd hw]
      exact (refillAcc_of_byte (a := s.dec.acc) hroom (inputBytes_getElem?_inPtr hleft) fuel).symm
    | false =>
      have hdone : ¬(s.dec.acc.cnt < 24 ∧ s.dec.acc.ip < (inputBytes s).length) := by
        rw [length_inputBytes]
        exact fun h => by simp [(wantsByte_iff s).2 h] at hw
      refine ⟨_, (LeadsTo.one ((engineStep_of_dB he).trans (stepDB_of_done hw))).mono (by omega), {}, rfl, ?_⟩
      exact (refillAcc_of_done hdone _).symm

/-! ### The walk -/

theorem walkAcc_of_leaf {node : Vector Node 513} {i : NodeIx} {v : Nat} (ip n : Nat)
    (hc : (childAt node i (v.testBit 0)).toNat ≤ 512) (hleaf : isLeafAt node (childAt node i (v.testBit 0)) = true) :
    walkAcc node ip (n + 1) i v = .ok (childAt node i (v.testBit 0), ⟨v >>> 1, n, ip⟩) := by
  simp only [walkAcc, if_neg (Nat.not_lt.2 hc), if_pos hleaf]

theorem walkAcc_of_internal {node : Vector Node 513} {i : NodeIx} {v : Nat} (ip n : Nat)
    (hc : (childAt node i (v.testBit 0)).toNat ≤ 512) (hleaf : isLeafAt node (childAt node i (v.testBit 0)) = false) :
    walkAcc node ip (n + 1) i v = walkAcc node ip n (childAt node i (v.testBit 0)) (v >>> 1) := by
  simp only [walkAcc, if_neg (Nat.not_lt.2 hc), hleaf, Bool.false_eq_true, if_false]

theorem OpenPath.length_lt_24 {f : FreqTable} {bits : List Bool} (h : OpenPath f bits) (hf : FreqWf f) :
    bits.length < 24 := by
  obtain ⟨-, -, -, hmax⟩ := (freqWf_iff f).1 hf
  exact (h.length_lt hf).trans_le hmax

theorem walkTake_samePass (s : State) : SamePass s (walkTake s) := {}

/-- D_WALK descends as the walk does, one bit a step. From a path of `p` bits it takes `24 - p` steps at most: no code
is longer than 24 bits (R7, R167). -/
theorem walk_leadsTo {f : FreqTable} (hf : FreqWf f) {bits : List Bool} {n : Nat} (he : s.estate = .dWalk)
    (htab : s.tab.node = treeBuild f) (hopen : OpenPath f bits) (hnode : s.dec.node = pathNode (treeBuild f) bits)
    (hn : s.dec.bitcnt.toNat = n) :
    ∃ t, LeadsTo (24 - bits.length) s t
      ∧ SymbolFound s t (walkAcc s.tab.node s.dec.inPtr.toNat n s.dec.node s.dec.bits.toNat) := by
  have hlast {bits : List Bool} (h : OpenPath f bits) {s t : State} (hs : engineStep s = .next t) :
      LeadsTo (24 - bits.length) s t := by
    have hlt := h.length_lt_24 hf
    exact (LeadsTo.one hs).mono (by omega)
  induction n generalizing s bits with
  | zero =>
    have h0 : s.dec.bitcnt = 0#6 := BitVec.eq_of_toNat_eq hn
    exact ⟨_, hlast hopen ((engineStep_of_dWalk he).trans (congrArg _ (stepDWalk_of_no_bit h0))), s, {}, rfl⟩
  | succ n ih =>
    have h0 : s.dec.bitcnt ≠ 0#6 := by bv_omega
    have hcnt : (walkTake s).dec.bitcnt.toNat = n := by rw [walkTake_bitcnt_toNat h0, hn, Nat.add_sub_cancel]
    have hbits : (walkTake s).dec.bits.toNat = s.dec.bits.toNat >>> 1 := by
      rw [walkTake_bits_toNat, Nat.shiftRight_eq_div_pow, pow_one]
    have hchild : walkChild s = childAt s.tab.node s.dec.node (s.dec.bits.toNat.testBit 0) := rfl
    have hpath : walkChild s = pathNode (treeBuild f) (bits ++ [s.dec.bits.toNat.testBit 0]) := by
      rw [hchild, htab, hnode, pathNode_concat]
    have hle : (walkChild s).toNat ≤ 512 := hpath ▸ hopen.child_le hf _
    cases hleaf : isLeafAt s.tab.node (walkChild s) with
    | true =>
      refine ⟨_, hlast hopen ((engineStep_of_dWalk he).trans (congrArg _ (stepDWalk_of_leaf h0 hle hleaf))), ?_⟩
      rw [walkAcc_of_leaf _ _ (hchild ▸ hle) (hchild ▸ hleaf), ← hchild, ← hbits, ← hcnt]
      exact ⟨{}, rfl, rfl, rfl⟩
    | false =>
      have hstep := (engineStep_of_dWalk he).trans (congrArg _ (stepDWalk_of_internal h0 hle hleaf))
      rw [walkAcc_of_internal _ _ (hchild ▸ hle) (hchild ▸ hleaf), ← hchild, ← hbits]
      split at hstep
      · next hnone =>
        obtain rfl : n = 0 := by rw [← hcnt, hnone]; rfl
        exact ⟨_, hlast hopen hstep, walkTake s, walkTake_samePass s, rfl⟩
      · have hopen' := hopen.concat hf (by rw [← hpath, ← htab]; exact hleaf)
        obtain ⟨t, hlead, hfound⟩ := ih (s := walkTake s) he htab hopen' hpath hcnt
        have hlt := hopen'.length_lt_24 hf
        rw [List.length_append, List.length_singleton] at hlead hlt
        exact ⟨t, (LeadsTo.step hstep hlead).mono (by omega), (walkTake_samePass s).symbolFound hfound⟩

/-! ### The resolution -/

theorem resolveAcc_of_leaf {node : Vector Node 513} {i : NodeIx} {y : BitVec 9} {c : BitVec 24} {len : BitVec 5}
    (hn : nodeAt node i = some (.leaf y c len)) (a : Acc) :
    resolveAcc node i a = if a.cnt < len.toNat then .error .truncated else .ok (i, a.drop len.toNat) := by
  simp only [resolveAcc, hn]

theorem resolveAcc_of_internal {node : Vector Node 513} {i c0 c1 : NodeIx}
    (hn : nodeAt node i = some (.internal c0 c1)) (a : Acc) :
    resolveAcc node i a
      = if a.cnt < 10 then .error .truncated else walkAcc node a.ip (a.cnt - 10) i (a.bits >>> 10) := by
  simp only [resolveAcc, hn]

/-- D_D, and D_WALK after it, resolve a node that a lookup has given as `resolveAcc` does (R164 to R167). -/
theorem resolve_leadsTo {f : FreqTable} (hf : FreqWf f) (he : s.estate = .dD) (htab : s.tab = builtTables f)
    (hnode : s.dec.node = lutOfBits s.tab s.dec.acc.bits) :
    ∃ t, LeadsTo 15 s t ∧ SymbolFound s t (resolveAcc s.tab.node s.dec.node s.dec.acc) := by
  have hnode' : s.tab.node = treeBuild f := by rw [htab, builtTables]
  have hcases := lutOfBits_leaf_or_open hf s.dec.acc.bits
  rw [← htab, ← hnode] at hcases
  obtain ⟨hleaf, -⟩ | ⟨hpath, hopen⟩ := hcases
  · obtain ⟨y, c, l, hn⟩ := isLeafAt_iff.1 hleaf
    rw [← hnode'] at hn
    have hstep := (engineStep_of_dD he).trans (congrArg _ (stepDD_of_leaf hn))
    rw [resolveAcc_of_leaf hn]
    split at hstep
    · next hlt =>
      rw [if_pos (show s.dec.acc.cnt < _ from hlt)]
      exact ⟨_, .step hstep (.refl 14 _), s, {}, rfl⟩
    · next hge =>
      rw [if_neg (show ¬s.dec.acc.cnt < _ from hge)]
      exact ⟨_, .step hstep (.refl 14 _), {}, rfl, rfl, acc_dropBits (Nat.not_lt.1 hge)⟩
  · obtain ⟨c0, c1, hn⟩ := exists_internal_of_not_leaf hopen.le (hopen.not_leaf hf)
    rw [← hpath, ← hnode'] at hn
    have hstep := (engineStep_of_dD he).trans (congrArg _ (stepDD_of_internal hn))
    rw [resolveAcc_of_internal hn]
    split at hstep
    · next hlt =>
      rw [if_pos (show s.dec.acc.cnt < _ from hlt)]
      exact ⟨_, .step hstep (.refl 14 _), s, {}, rfl⟩
    · next hge =>
      rw [if_neg (show ¬s.dec.acc.cnt < _ from hge)]
      have hsame : SamePass s { s with dec := dropBits s.dec 10, estate := .dWalk } := {}
      have hbits : (dropBits s.dec 10).bits.toNat = s.dec.acc.bits >>> 10 := BitVec.toNat_ushiftRight _ _
      obtain ⟨t, hlead, hfound⟩ := walk_leadsTo (s := { s with dec := dropBits s.dec 10, estate := .dWalk }) hf rfl
        hnode' hopen hpath (dropBits_bitcnt_toNat (Nat.not_lt.1 hge))
      simp only [hbits] at hfound
      exact ⟨t, .step hstep hlead, hsame.symbolFound hfound⟩

/-! ### One symbol -/

/-- From D_A the engine finds the next symbol as `nextSymbol` does, in at most 21 steps (R171, R173). -/
theorem symbol_leadsTo {f : FreqTable} (hf : FreqWf f) (he : s.estate = .dA) (htab : s.tab = builtTables f)
    (hd : s.dec.Bounded) (hgood : BuffersGood s) :
    ∃ t, LeadsTo 21 s t ∧ SymbolFound s t (nextSymbol s.tab (inputBytes s) s.dec.acc) := by
  have hA : LeadsTo 1 s (stepDA s) := .one (engineStep_of_dA he)
  have hsameA : SamePass s (stepDA s) ∧ (stepDA s).estate = .dB ∧ (stepDA s).dec.acc = s.dec.acc := by
    unfold stepDA
    split <;> exact ⟨{}, rfl, rfl⟩
  obtain ⟨hsA, heA, haccA⟩ := hsameA
  obtain ⟨u, hB, hsB, heB, haccB⟩ := refill_leadsTo (fuel := 3) heA (hA.bounded hd) (hsA.buffersGood hgood) (by omega)
  have hcand := (hA.trans hB).candInv (candInv_of_elsewhere (by simp [he]) (by simp [he]))
  have hC : LeadsTo 1 u (stepDC u) := .one (engineStep_of_dC heB)
  have hsC : SamePass u (stepDC u) := {}
  have hs := (hsA.trans hsB).trans hsC
  have hacc : (stepDC u).dec.acc = refillAcc (inputBytes s) 3 s.dec.acc := by
    rw [← haccA, ← hsA.inputBytes, ← haccB]
    rfl
  have hnode : (stepDC u).dec.node = lutOfBits (stepDC u).tab (stepDC u).dec.acc.bits :=
    (stepDC_node hcand heB).trans (lutLookup_eq u)
  obtain ⟨t, hD, hfound⟩ := resolve_leadsTo hf rfl (hs.tab.trans htab) hnode
  rw [hnode, hs.tab, hacc, ← nextSymbol_eq s.tab _ hd.acc_wf] at hfound
  exact ⟨t, ((hA.trans hB).trans hC).trans hD, hs.symbolFound hfound⟩

end

end Sys2Proof.Machine
end

section
/-! Whole DECODEs against the decode function (R171, R173, R175, R208). -/

namespace Sys2Proof.Machine

/-! ### Bytes written one after another -/

theorem withMem_mem_congr {s t : State} (h : t.mem = s.mem) (a : Word) (bytes : List Byte) :
    (withMem t a bytes).mem = (withMem s a bytes).mem := by
  induction bytes generalizing s t a with
  | nil => exact h
  | cons b bytes ih => exact ih (by rw [memWrite_mem, memWrite_mem, h]) (a + 1#32)

theorem memRead_withMem_outside (s : State) {a x : Word} {bytes : List Byte}
    (h : inRange a bytes.length x = false) : memRead (withMem s a bytes) x = memRead s x := by
  induction bytes generalizing s a with
  | nil => rfl
  | cons b bytes ih =>
    simp only [inRange, List.length_cons, decide_eq_false_iff_not] at h ih
    rw [withMem, ih _ (by bv_omega), memRead_memWrite_other s b (by bv_omega)]

theorem memRead_withMem_inside {s : State} (hs : MemInv s) (a : Word) {bytes : List Byte}
    (hlen : bytes.length < 2 ^ 32) {k : Nat} (hk : k < bytes.length) :
    memRead (withMem s a bytes) (a + BitVec.ofNat 32 k) = bytes[k] := by
  induction bytes generalizing s a k with
  | nil => cases hk
  | cons b bytes ih =>
    rw [List.length_cons] at hlen hk
    cases k with
    | zero =>
      have hout : inRange (a + 1#32) bytes.length a = false := by
        simp only [inRange, decide_eq_false_iff_not]
        bv_omega
      rw [BitVec.add_zero, withMem, memRead_withMem_outside _ hout, memRead_memWrite_same hs]
      rfl
    | succ k =>
      have haddr : a + BitVec.ofNat 32 (k + 1) = a + 1#32 + BitVec.ofNat 32 k := by bv_omega
      rw [haddr, withMem, ih (s := memWrite s a b) (memWrite_wf a b hs) (a + 1#32) (by omega) (by omega)]
      rfl

/-! ### How a DECODE ends -/

/-- A DECODE has ended as `e` says, with `count` bytes written by then (R208, R234). -/
structure DecodeEnded (t : State) (count : Nat) (e : StreamEnd) : Prop where
  estate : t.estate = .idle
  done : t.done = true
  success : ∀ k, e = .success k → t.err = false ∧ t.errClass = .none ∧ t.result.toNat = k ∧ k = count
  error : ∀ c, e = .error c → t.err = true ∧ t.errClass = c ∧ t.result = errorResult

theorem decodeEnded_finish (u : State) (r : Word) :
    DecodeEnded (finish u .success r .none) r.toNat (.success r.toNat) where
  estate := rfl
  done := rfl
  success := fun k hk => by
    cases hk
    exact ⟨rfl, rfl, rfl, rfl⟩
  error := nofun

theorem decodeEnded_raise (u : State) (cls : ErrClass) (count : Nat) :
    DecodeEnded (raise u cls) count (.error cls) where
  estate := rfl
  done := rfl
  success := nofun
  error := fun c hc => by
    cases hc
    exact ⟨rfl, rfl, rfl⟩

/-- From `s` a DECODE ends in `t` as `e` says, having written `new` from the next output byte on and nothing else. -/
structure DecodesTo (s t : State) (e : StreamEnd) (new : List Byte) : Prop where
  ended : DecodeEnded t (s.dec.outPtr.toNat + new.length) e
  mem : t.mem = (withMem s (outputAddr s) new).mem
  fits : s.dec.outPtr.toNat + new.length ≤ s.dec.lOutCap.toNat

section
variable {s t u : State}

/-! ### The output step -/

theorem emitByte_of_isLeafAt (h : isLeafAt s.tab.node s.dec.node = true) :
    emitByte s = some (symbolByte s.tab.node s.dec.node) := by
  obtain ⟨y, c, l, hn⟩ := isLeafAt_iff.1 h
  rw [emitByte_of_leaf hn, symbolByte, hn]

theorem inOutput_outputAddr (hlt : s.dec.outPtr.toNat < s.dec.lOutCap.toNat) : inOutput s (outputAddr s) = true := by
  simp [inOutput, outputAddr, hlt]

/-- The output step on a leaf, when the bytes written so far fit the buffer: the end at EOS, an overflow of the full
buffer, or one more byte (R168 to R170). -/
theorem emitStep_cases (he : s.estate = .dEmit) (hleaf : isLeafAt s.tab.node s.dec.node = true) (hd : s.dec.Bounded)
    (hgood : BuffersGood s) :
    (s.dec.node = eosIx ∧ engineStep s = .next (finish s .success s.dec.outPtr .none))
      ∨ (s.dec.node ≠ eosIx ∧ s.dec.outPtr.toNat = s.dec.lOutCap.toNat
        ∧ engineStep s = .next (raise s .outputOverflow))
      ∨ (s.dec.node ≠ eosIx ∧ s.dec.outPtr.toNat < s.dec.lOutCap.toNat
        ∧ engineStep s = .next (putByte s (symbolByte s.tab.node s.dec.node))) := by
  rw [engineStep_of_dEmit he]
  obtain ⟨-, -, -, hle⟩ := hd
  by_cases hn : s.dec.node = eosIx
  · exact .inl ⟨hn, stepDEmit_of_eos hn⟩
  · obtain hfull | hlt := Nat.eq_or_lt_of_le hle
    · exact .inr (.inl ⟨hn, hfull, stepDEmit_of_full hn (BitVec.eq_of_toNat_eq hfull)⟩)
    · have hadmits := hgood.1 _ (.inr (inOutput_outputAddr hlt))
      exact .inr (.inr ⟨hn, hlt, stepDEmit_of_room hn (by bv_omega) (emitByte_of_isLeafAt hleaf) hadmits⟩)

theorem putByte_outPtr_toNat (b : Byte) (hlt : s.dec.outPtr.toNat < s.dec.lOutCap.toNat) :
    (putByte s b).dec.outPtr.toNat = s.dec.outPtr.toNat + 1 := by
  simp only [putByte_dec]
  bv_omega

/-- The output byte is no byte of the input, so the input stays as it is (R72). -/
theorem inputBytes_putByte (b : Byte) (hgood : BuffersGood s) (hlt : s.dec.outPtr.toNat < s.dec.lOutCap.toNat) :
    inputBytes (putByte s b) = inputBytes s :=
  inputBytes_congr rfl rfl fun a ha => memRead_putByte_other s b fun heq =>
    hgood.2 a ⟨ha, heq ▸ inOutput_outputAddr hlt⟩

/-- What follows the next output byte is what was written from it on, with that byte before it. -/
theorem DecodesTo.of_putByte {b : Byte} {e : StreamEnd} {new : List Byte} (h : DecodesTo (putByte s b) t e new)
    (hlt : s.dec.outPtr.toNat < s.dec.lOutCap.toNat) : DecodesTo s t e (b :: new) := by
  have haddr : outputAddr (putByte s b) = outputAddr s + 1#32 := (BitVec.add_assoc _ _ _).symm
  have hcount : (putByte s b).dec.outPtr.toNat + new.length = s.dec.outPtr.toNat + (b :: new).length := by
    rw [putByte_outPtr_toNat b hlt, List.length_cons, Nat.add_assoc, Nat.add_comm 1]
  refine ⟨hcount ▸ h.ended, ?_, hcount ▸ h.fits⟩
  rw [h.mem, haddr, withMem]
  exact withMem_mem_congr (s := memWrite s (outputAddr s) b) (t := putByte s b) rfl _ _

theorem SamePass.decodesTo (h : SamePass s u) {e : StreamEnd} {new : List Byte} (h' : DecodesTo u t e new) :
    DecodesTo s t e new := by
  have haddr : outputAddr u = outputAddr s := by rw [outputAddr, outputAddr, h.lOutBase, h.outPtr]
  obtain ⟨hended, hmem, hfits⟩ := h'
  rw [h.outPtr] at hended hfits
  rw [h.lOutCap] at hfits
  rw [haddr, withMem_mem_congr h.mem] at hmem
  exact ⟨hended, hmem, hfits⟩

theorem decodesTo_raise (hd : s.dec.Bounded) (cls : ErrClass) : DecodesTo s (raise s cls) (.error cls) [] where
  ended := decodeEnded_raise s cls _
  mem := rfl
  fits := hd.2.2.2

theorem decodesTo_finish (hd : s.dec.Bounded) :
    DecodesTo s (finish s .success s.dec.outPtr .none) (.success s.dec.outPtr.toNat) [] where
  ended := decodeEnded_finish s s.dec.outPtr
  mem := rfl
  fits := hd.2.2.2

/-! ### The loop -/

/-- The engine runs from D_A as the loop of R171 does, in at most 22 steps a pass. -/
theorem decodeLoop_leadsTo {f : FreqTable} (hf : FreqWf f) {fuel : Nat} {out : List Byte} (he : s.estate = .dA)
    (htab : s.tab = builtTables f) (hd : s.dec.Bounded) (hgood : BuffersGood s)
    (hout : out.length = s.dec.outPtr.toNat) (hfuel : (s.dec.acc.ahead (inputBytes s)).length < fuel) :
    ∃ e new t, decodeLoop s.tab (inputBytes s) s.dec.lOutCap.toNat fuel s.dec.acc out = some (e, out ++ new)
      ∧ LeadsTo (22 * fuel) s t ∧ DecodesTo s t e new := by
  induction fuel generalizing s out with
  | zero => exact absurd hfuel (Nat.not_lt_zero _)
  | succ fuel ih =>
    obtain ⟨u, hlead, hfound⟩ := symbol_leadsTo hf he htab hd hgood
    have hud := hlead.bounded hd
    have hnext := nextSymbol_cases hf (inputBytes s) hd.acc_wf
    rw [← htab] at hnext
    obtain ⟨i, a', hi, hnext, -, hahead⟩ | ⟨-, hnext⟩ := hnext
    · rw [hnext] at hfound
      obtain ⟨hsame, hue, rfl, rfl⟩ := hfound
      have hugood := hsame.buffersGood hgood
      have hutab := hsame.tab.trans htab
      have hlast {v : State} (hv : engineStep u = .next v) : LeadsTo (22 * (fuel + 1)) s v :=
        (hlead.trans (.one hv)).mono (by omega)
      rw [decodeLoop_of_ok hnext, hout, ← hsame.outPtr, ← hsame.lOutCap]
      obtain ⟨heos, hstep⟩ | ⟨hne, hfull, hstep⟩ | ⟨hne, hlt, hstep⟩ :=
        emitStep_cases hue (by rw [hutab]; exact hi) hud hugood
      · refine ⟨_, [], _, ?_, hlast hstep, hsame.decodesTo (decodesTo_finish hud)⟩
        rw [if_pos heos, List.append_nil]
      · refine ⟨_, [], _, ?_, hlast hstep, hsame.decodesTo (decodesTo_raise hud _)⟩
        rw [if_neg hne, if_pos hfull, List.append_nil]
      · have hin := (inputBytes_putByte (symbolByte u.tab.node u.dec.node) hugood hlt).trans hsame.inputBytes
        have hpos := List.length_pos_iff.2 (codeBits_ne_nil hf hi)
        have hleft : (u.dec.acc.ahead (inputBytes s)).length < fuel := by
          rw [hahead, List.length_append] at hfuel
          omega
        obtain ⟨e, new, t, hloop, hlead', hdecodes⟩ := ih (s := putByte u (symbolByte u.tab.node u.dec.node))
          (out := out ++ [symbolByte u.tab.node u.dec.node]) rfl hutab (putByte_bounded _ hud (by bv_omega))
          (buffersGood_congr rfl rfl rfl rfl rfl hugood)
          (by rw [List.length_append, hout, ← hsame.outPtr, putByte_outPtr_toNat _ hlt, List.length_singleton])
          (by rw [hin]; exact hleft)
        rw [hin, putByte_tab, hsame.tab, List.append_assoc] at hloop
        refine ⟨e, _ :: new, t, ?_, ((hlead.trans (.one hstep)).trans hlead').mono (by omega),
          hsame.decodesTo (hdecodes.of_putByte hlt)⟩
        rw [if_neg hne, if_neg hlt.ne, hsame.tab]
        exact hloop
    · rw [hnext] at hfound
      obtain ⟨v, hsame, rfl⟩ := hfound
      refine ⟨_, [], _, ?_, hlead.mono (by omega), hsame.decodesTo (decodesTo_raise (s := v) hud _)⟩
      rw [decodeLoop_of_error hnext, List.append_nil]

/-- A DECODE that has just started runs as `Decode(in, cap)` does: a pass for each bit of input and one more at most,
each of at most 22 steps (R173). -/
theorem decode_leadsTo (hc : CodecInv s) (hs : JustStarted s) (hgood : BuffersGood s) :
    ∃ e out t, decodeFn s.tab (inputBytes s) s.dec.lOutCap.toNat = some (e, out)
      ∧ LeadsTo (22 * (8 * s.dec.lInLen.toNat + 1)) s t ∧ DecodesTo s t e out := by
  obtain ⟨he, hbits, hcnt, hin, hout⟩ := hs
  have hacc : s.dec.acc = { bits := 0, cnt := 0, ip := 0 } := by
    rw [DecoderRegs.acc, hbits, hcnt, hin]
    rfl
  have hbounded : s.dec.Bounded := by simp [DecoderRegs.Bounded, hbits, hcnt, hin, hout]
  have hfuel : (s.dec.acc.ahead (inputBytes s)).length < 8 * (inputBytes s).length + 1 := by
    rw [hacc, ahead_initialAcc, length_byteBits]
    exact Nat.lt_succ_self _
  have hloop := decodeLoop_leadsTo (out := []) (freq_wf s) he (hc.tab_eq (he ▸ rfl)) hbounded hgood (by rw [hout]; rfl)
    hfuel
  rw [hacc] at hloop
  rw [← length_inputBytes]
  exact hloop

end

/-- Settles O56: with no host input the machine's steps are the engine's. -/
theorem everyDecodeEnds : Obligations.EveryDecodeEnds := by
  intro s hc hs hin hgood
  obtain ⟨e, out, t, -, hlead, hdecodes⟩ := decode_leadsTo hc hs hgood
  obtain ⟨n, hn, turns, hrun⟩ := hlead.exists_runs hin s.turns
  exact ⟨n, _, hn, hrun, hdecodes.ended.estate, hdecodes.ended.done⟩

/-- Settles O57, by the run of the loop; what it has written is read back from canonical memory. -/
theorem decoderRunsAsTheDecodeFunction : Obligations.DecoderRunsAsTheDecodeFunction := by
  intro s hc hmem hs hin hgood
  obtain ⟨e, out, t, hfn, hlead, hended, hout, hfits⟩ := decode_leadsTo hc hs hgood
  obtain ⟨n, -, turns, hrun⟩ := hlead.exists_runs hin s.turns
  obtain ⟨-, -, -, -, hzero⟩ := hs
  have haddr : outputAddr s = s.dec.lOutBase := by rw [outputAddr, hzero, BitVec.add_zero]
  have hcount : s.dec.outPtr.toNat + out.length = out.length := by rw [hzero]; exact Nat.zero_add _
  rw [hcount] at hended hfits
  rw [haddr] at hout
  have hread (a : Word) : memRead { t with turns := turns } a = memRead (withMem s s.dec.lOutBase out) a :=
    memRead_congr hout a
  refine ⟨n, _, e, out, hfn, hrun, hended.estate, hended.done, ?_, hfits, fun k hk => ?_, fun a ha => ?_⟩
  · cases e with
    | success k => exact hended.success k rfl
    | error c => exact hended.error c rfl
  · rw [hread, memRead_withMem_inside hmem _ (hfits.trans_lt (BitVec.isLt _)) hk]
  · rw [hread, memRead_withMem_outside s ha]

end Sys2Proof.Machine
end
